-- ==== Sys2Proof/Word.lean ====
section
/-! DEFINITION. The word types of the block: the 64-bit operand and bus word (spec/00_scope.md R5, `W`)
and the byte of a byte sequence (R9). -/

namespace Sys2Proof

/-- A value of a `W`-bit register, `W = 64` (R5, R22). -/
abbrev Word := BitVec 64

/-- One byte of a byte sequence (R9). -/
abbrev Byte := BitVec 8

end Sys2Proof
end

