-- ==== Sys2Proof/Syntax.lean ====
section
/-! DEFINITION. The commands of TSF-CMD-1 (spec/30_encoding.md R92, R97; spec/opcode_table.json), one
constructor per row of the opcode table. -/

namespace Sys2Proof

/-- A legal command (R94). No command names a register as an operand (spec/10_state.md R20). -/
inductive Instr where
  /-- `tsf.config`: CONFIG, basic variant (spec/40_domain_and_keys.md R131). -/
  | config
  /-- `tsf.config.o L`: CONFIG, optimized variant with optimization level L (R131); L is the 4-bit field of R91. -/
  | configO (level : Nat)
  /-- `tsf.ckey`: CONFIG_KEY, basic variant (R136). -/
  | ckey
  /-- `tsf.ckey.o`: CONFIG_KEY, optimized variant at level 7 (R136). -/
  | ckeyO
  /-- `tsf.enc`: ENCRYPT (spec/42_shuffle.md R190). -/
  | enc
  /-- `tsf.dec`: DECRYPT (R190). -/
  | dec
  /-- `tsf.rpp`: RPP (spec/40_domain_and_keys.md R122). -/
  | rpp
  /-- `tsf.unconfig`: UNCONFIG (R140). -/
  | unconfig
deriving DecidableEq, Repr

end Sys2Proof
end

