-- ==== Sys2Proof/WellFormed.lean ====
section
/-! DEFINITION. Which terms of `Instr` are commands that a word encodes (spec/30_encoding.md R91, R97). -/

namespace Sys2Proof

/-- The one operand of the command set is L, zero-extended to a natural in [0, 15] (R91): "L an integer 0 .. 15" (R97). -/
def Instr.wellFormed : Instr → Bool
  | .config => true
  | .configO level => level ≤ 15
  | .ckey => true
  | .ckeyO => true
  | .enc => true
  | .dec => true
  | .rpp => true
  | .unconfig => true

end Sys2Proof
end

