-- ==== Sys2Proof/Decode.lean ====
section
/-! DEFINITION. Command words (spec/30_encoding.md): field extraction (R91), the legality predicate (R93), the
decoder, total on every word and on every byte string and rejecting by name, and after it the encoder. -/

namespace Sys2Proof

/-- Why a word is no command (R95). The machine answers each of them with ILLEGAL_CMD (spec/60_exceptions.md R221). -/
inductive Reject where
  /-- Not 8 bytes: every command is one 64-bit word (R96). -/
  | notOneWord
  /-- A reserved bit, 7:5 or 63:12, is set (R90). -/
  | reservedBits
  /-- OP is 0x0 or 0x7 to 0xF (R92). -/
  | reservedOpcode (op : Nat)
  /-- V = 1 on a command other than CONFIG and CONFIG_KEY (R93). -/
  | variantBit
  /-- L ≠ 0 on a word other than CONFIG with V = 1 (R93). -/
  | levelField
deriving DecidableEq, Repr

/-! ## Fields (R91) -/

def opOf (c : Word) : Nat := c.toNat % 16
def variantOf (c : Word) : Bool := c.toNat / 16 % 2 == 1
def levelOf (c : Word) : Nat := c.toNat / 256 % 16
/-- `RSV = c[63:12] · 2^3 + c[7:5]`: the reserved bits seen as one number. -/
def reservedOf (c : Word) : Nat := c.toNat / 4096 * 8 + c.toNat / 32 % 8

/-- R93, as the rule writes it. -/
def legal (c : Word) : Bool :=
  reservedOf c == 0
    && (opOf c == 1 || opOf c == 2 || opOf c == 3 || opOf c == 4 || opOf c == 5 || opOf c == 6)
    && (opOf c == 1 || opOf c == 2 || !variantOf c)
    && ((opOf c == 1 && variantOf c) || levelOf c == 0)

/-- A command whose word has V = 0 and L = 0 (R92). -/
def plainCommand (i : Instr) (c : Word) : Except Reject Instr :=
  if variantOf c then .error .variantBit
  else if levelOf c = 0 then .ok i
  else .error .levelField

/-- The command a word stands for (R92, R94), or why it is illegal (R95). -/
def decodeWord (c : Word) : Except Reject Instr :=
  if reservedOf c = 0 then
    match opOf c with
    | 1 => if variantOf c then .ok (.configO (levelOf c)) else plainCommand .config c
    | 2 => if levelOf c = 0 then .ok (if variantOf c then .ckeyO else .ckey) else .error .levelField
    | 3 => plainCommand .enc c
    | 4 => plainCommand .dec c
    | 5 => plainCommand .rpp c
    | 6 => plainCommand .unconfig c
    | op => .error (.reservedOpcode op)
  else .error .reservedBits

/-! ## Bytes: the bus is little-endian (spec/20_memory.md R64) -/

/-- `LE64(v)` (spec/00_scope.md R9): 8 bytes, byte `k` being bits `8k+7 : 8k` of `v`. -/
def le64 (v : Nat) : List Byte := (List.range 8).map fun k => BitVec.ofNat 8 (v / 2 ^ (8 * k))

/-- The number whose little-endian bytes these are: the sum over `j` of `b[j] << 8j` (spec/20_memory.md R66). -/
def ofLE : List Byte → Nat
  | [] => 0
  | b :: bs => b.toNat + 256 * ofLE bs

/-- The decoder on the bytes of a CMD write, lowest address first. -/
def decodeBytes (bs : List Byte) : Except Reject Instr :=
  if bs.length = 8 then decodeWord (BitVec.ofNat 64 (ofLE bs)) else .error .notOneWord

/-- The instruction this decoder reads from a table word of `nbits` bits; the bits above `nbits` are 0, and a
word longer than the one command length (R96) is no command. -/
def decodeTableWord (nbits w : Nat) : Option Instr :=
  if w % 2 ^ nbits < 2 ^ 64 then (decodeBytes (le64 (w % 2 ^ nbits))).toOption else none

/-! ## The encoder (R90, R97) -/

/-- The word with fields OP, V and L and every reserved bit 0 (R90). -/
def commandWord (op v level : Nat) : Word := BitVec.ofNat 64 (op + v * 16 + level * 256)

/-- The word of a command (R97). -/
def encode : Instr → Word
  | .config => commandWord 1 0 0
  | .configO level => commandWord 1 1 level
  | .ckey => commandWord 2 0 0
  | .ckeyO => commandWord 2 1 0
  | .enc => commandWord 3 0 0
  | .dec => commandWord 4 0 0
  | .rpp => commandWord 5 0 0
  | .unconfig => commandWord 6 0 0

/-- The bytes of a command as the bus carries them, lowest address first (R64). -/
def encodeBytes (i : Instr) : List Byte := le64 (encode i).toNat

end Sys2Proof
end

