-- ==== Sys2Proof/Config.lean ====
section
/-! DEFINITION. What one implementation fixes (spec/00_scope.md R5, R7) and the free values: the OPEN
parameters, the two oracles (R6), the platform's base address and interrupt line (spec/20_memory.md R70,
spec/60_exceptions.md R230) and the KEYMEM draw of each reset (spec/70_reset_and_hazards.md R261).
Everything else of the model is written in terms of a `Params`; the machine of `step` and `exec` is the one
at `Config.machine`, whose values are opaque constants. -/

namespace Sys2Proof

/-- The open parameters of R5 and of spec/92_eei_decisions.md §2. An oracle is given byte by byte, so that its answer
has the requested length by construction: `hashByte key msg n j` is byte `j` of `Hash(key, msg, n)`, and
`expandByte seed len j` is byte `j` of `Expand(seed, len)`. `keymemDraw k a` is what reset number `k` draws for KEYMEM
byte `a` (R261). `tsfBase` is `TSF_BASE`, the window's base address in the system (spec/20_memory.md R70), and
`tsfIrqLine` is `TSF_IRQ_LINE`, the platform's interrupt line (spec/60_exceptions.md R230). -/
structure Params where
  keySlotBytes : Nat
  seedBytes    : Nat
  hashOutBasic : Nat
  keySlotsMax  : Nat
  hashByte     : List Byte → List Byte → Nat → Nat → Byte
  expandByte   : List Byte → Nat → Nat → Byte
  keymemDraw   : Nat → Nat → Byte
  tsfBase      : Nat
  tsfIrqLine   : Nat

namespace Params

/-- `KEYMEM_BYTES = KEY_SLOTS_MAX · KEY_SLOT_BYTES` (R5; 90_conflicts.md C4). -/
def keymemBytes (P : Params) : Nat := P.keySlotsMax * P.keySlotBytes

/-- R7: what a model requires of the open parameters. -/
structure Legal (P : Params) : Prop where
  slotBytes : 1 ≤ P.keySlotBytes ∧ P.keySlotBytes ≤ 255
  seedBytes : 8 ≤ P.seedBytes ∧ P.seedBytes ≤ 255
  hashOut   : 1 ≤ P.hashOutBasic ∧ P.hashOutBasic ≤ 64
  slotsMax  : 512 ≤ P.keySlotsMax ∧ P.keySlotsMax < 2 ^ 32
  wholeWords : P.keymemBytes % 8 = 0

end Params

namespace Config

/-- `PASS_MULT`: the pass multiplier of CONFIG_KEY (R5). -/
abbrev passMult : Nat := 8
/-- `L_KEY`: the optimization level of CONFIG_KEY with V = 1 (R5). -/
abbrev lKey : Nat := 7
/-- `L_MIN` and `L_MAX`: the legal optimization levels (R5). -/
abbrev lMin : Nat := 1
abbrev lMax : Nat := 7
/-- `HASH_MAX_BITS`: the bound on `L · 2^(L−1)` (R5). -/
abbrev hashMaxBits : Nat := 512
/-- `HASH_OUT_AMORT`: the output bytes the amortized generator asks for (R5, D11). -/
abbrev hashOutAmort : Nat := 64

/-- FREE VALUE (log 1): `KEY_SLOT_BYTES` is this plus 1. -/
opaque keySlotBytesPick : Fin 255
/-- FREE VALUE (log 1): `SEED_BYTES` is this plus 8. -/
opaque seedBytesPick : Fin 248
/-- FREE VALUE (log 1): `HASH_OUT_BASIC` is this plus 1. -/
opaque hashOutBasicPick : Fin 64
/-- FREE VALUE (log 1): `KEY_SLOTS_MAX`, where this is a legal value of it. -/
opaque keySlotsMaxPick : Nat
/-- FREE VALUE (log 2): byte `j` of `Hash(key, msg, n)` (R6, R75). -/
opaque hashByte (key msg : List Byte) (n j : Nat) : Byte
/-- FREE VALUE (log 2): byte `j` of `Expand(seed, len)` (R6, R76). -/
opaque expandByte (seed : List Byte) (len j : Nat) : Byte
/-- FREE VALUE (log 3): what reset number `k` draws for KEYMEM byte `a` (R261). -/
opaque keymemDraw (k a : Nat) : Byte

/-- FREE VALUE (log 15): `TSF_BASE`, a system address (spec/20_memory.md R70). -/
opaque tsfBase : Nat
/-- FREE VALUE (log 15): `TSF_IRQ_LINE`, a platform interrupt line (spec/60_exceptions.md R230). -/
opaque tsfIrqLine : Nat

def keySlotBytes : Nat := keySlotBytesPick.val + 1
def seedBytes : Nat := seedBytesPick.val + 8
def hashOutBasic : Nat := hashOutBasicPick.val + 1

/-- `KEY_SLOTS_MAX`: any value R7 admits beside `KEY_SLOT_BYTES`; R5 names 512 as the value to take otherwise. -/
def keySlotsMax : Nat :=
  if 512 ≤ keySlotsMaxPick ∧ keySlotsMaxPick < 2 ^ 32 ∧ keySlotsMaxPick * keySlotBytes % 8 = 0
  then keySlotsMaxPick else 512

/-- The parameters of the machine that `exec` and `step` model: every value R7 admits is possible, and none is known. -/
def machine : Params where
  keySlotBytes := keySlotBytes
  seedBytes    := seedBytes
  hashOutBasic := hashOutBasic
  keySlotsMax  := keySlotsMax
  hashByte     := hashByte
  expandByte   := expandByte
  keymemDraw   := keymemDraw
  tsfBase      := tsfBase
  tsfIrqLine   := tsfIrqLine

end Config

end Sys2Proof
end

