-- ==== Sys2Proof/Machine/State.lean ====
section
/-! DEFINITION. The state of the block (spec/10_state.md), its reset value (R54), and the reasons a step can
stop. Plain data: two states can be compared and written out. -/

namespace Sys2Proof.Machine

/-- Error codes of STATUS.ERRCODE (spec/60_exceptions.md R220); codes 8 to 15 are never written. -/
inductive ErrCode where
  | noError | illegalCmd | notConfigured | domainEven | optLevel | partition | keyShort | domainInput
deriving DecidableEq, Repr

/-- `FSM_STATE` (R47). -/
inductive FsmState where
  | idle | keygen | round
deriving DecidableEq, Repr

/-- `DIR` (R48). -/
inductive Dir where
  | enc | dec
deriving DecidableEq, Repr

/-- One line of a host program as the bus sees it (spec/20_memory.md R60; spec/30_encoding.md R98). `width` is the
access width in bits and `offset` the byte offset in the window; an access that is not 64 bits wide gets an ERROR
response whatever its data (R61), so one word carries the data of every write. -/
inductive HostLine where
  | read (width offset : Nat)
  | write (width offset : Nat) (value : Word)
  /-- Repeat `rd STATUS` until BUSY reads 0 (R98). -/
  | poll
deriving DecidableEq, Repr

/-- Who moves next (spec/20_memory.md R72; spec/70_reset_and_hazards.md R260). -/
inductive Turn where
  | host | fsm | rst
deriving DecidableEq, Repr

/-- The OKAY response of the last host access (spec/20_memory.md R60). -/
inductive Response where
  | none
  | data (value : Word)
  | done
deriving DecidableEq, Repr

/-- Key memory: pairs of a KEYMEM byte offset and a byte, in the canonical form `Memory.wf` of Machine/Ops.lean. -/
abbrev Memory := List Host.Cell

/-- Everything the spec gives the block, and the environment that moves it. -/
structure State where
  /-- STATUS.CONFIGURED (R26). -/
  configured : Bool
  /-- STATUS.ERR (R27). -/
  err        : Bool
  /-- STATUS.DROP (R28). -/
  drop       : Bool
  /-- STATUS.ERRCODE (R29). -/
  errcode    : ErrCode
  /-- MAXMSG (R30). -/
  maxmsg     : Word
  /-- ROUNDS (R31). -/
  rounds     : Word
  /-- KEYLEN (R32). -/
  keylen     : Word
  /-- KEYNUM (R33). -/
  keynum     : Word
  /-- DATA_IN (R34). -/
  dataIn     : Word
  /-- DATA_OUT (R35). -/
  dataOut    : Word
  /-- ACT_MAXMSG (R36). -/
  actMaxmsg  : Word
  /-- ACT_ROUNDS (R37). -/
  actRounds  : Word
  /-- ACT_CFG.V (R38). -/
  actV       : Bool
  /-- ACT_CFG.L (R38). -/
  actL       : BitVec 4
  /-- IRQ_EN.DONE_EN (R39). -/
  irqEn      : Bool
  /-- IRQ_PEND.DONE (R40). -/
  irqPend    : Bool
  /-- HASHCNT (R41). -/
  hashcnt    : Word
  /-- KEYMEM (R45). -/
  keymem     : Memory
  /-- FSM_STATE (R47). -/
  fsm        : FsmState
  /-- DIR (R48). -/
  dir        : Dir
  /-- IROUND (R49). -/
  iround     : Nat
  /-- MSG (R50). -/
  msg        : Word
  /-- KG_M (R51). -/
  kgM        : Word
  /-- KG_R (R51). -/
  kgR        : Nat
  /-- KG_V (R51). -/
  kgV        : Bool
  /-- KG_L (R51). -/
  kgL        : BitVec 4
  /-- KG_KEY (R51). -/
  kgKey      : Word
  /-- CACHE_VALID (R52). -/
  cacheValid : Bool
  /-- CACHE_TAG (R52). -/
  cacheTag   : Nat
  /-- CACHE_DATA (R52). -/
  cacheData  : List Byte
  /-- THE MODEL'S OWN: how many resets came before; it numbers the KEYMEM draws (log 3). -/
  resets     : Nat
  /-- THE ENVIRONMENT: host lines not yet done, in bus order (log 5). -/
  host       : List HostLine
  /-- THE ENVIRONMENT: turns the scheduler has fixed (log 5, 6). -/
  sched      : List Turn
  /-- THE ENVIRONMENT: the response of the last host access (log 11). -/
  resp       : Response
deriving DecidableEq, Repr

/-- Why a step stops. Every one of them is safe: the model stops where the hardware's behaviour is an ERROR
response or is not given. -/
inductive Fault where
  /-- Raised by a host access that is not 64 bits wide, not aligned, or beyond the window: ERROR response, "the
  host's step faults with BusError(o)" (spec/20_memory.md R61, R62). Safe: no state changes, the run ends (log 8). -/
  | busError (offset : Nat)
  /-- Raised by a ROUND step whose MSG exceeds ACT_MAXMSG or whose IROUND is no round of the configuration: no state
  a run reaches (R49, R50; log 10). Safe. -/
  | roundBounds
  /-- Raised by a ROUND step of an optimized configuration that breaks the level or PARTITION check: "must fault on
  P = 0" (spec/41_prf.md R168; log 10). Safe. -/
  | noPartition
  /-- Raised by an FSM step that would access KEYMEM up to this byte count, beyond KEYMEM_BYTES (spec/00_scope.md R10;
  log 10). Safe. -/
  | keymemBounds (bytes : Nat)
deriving DecidableEq, Repr

/-- No meaning for an instruction. -/
inductive Refusal where
  /-- Raised by an arm of `exec` that has no meaning yet; no arm of this model does. Safe. -/
  | notModelled (mnemonic : String)
deriving DecidableEq, Repr

/-- What one step of this machine answers. -/
abbrev Outcome := Host.Outcome State Fault Refusal

/-- The state right after reset (R54). DIR, MSG, KG_*, CACHE_TAG and CACHE_DATA have no reset value in the spec: the
values here are DESIGN CHOICES (log 4). KEYMEM lists nothing: every byte reads as the draw of reset number 0 (log 3).
The environment is empty (log 5). -/
def State.reset : State where
  configured := false
  err        := false
  drop       := false
  errcode    := .noError
  maxmsg     := 0
  rounds     := 0
  keylen     := 0
  keynum     := 0
  dataIn     := 0
  dataOut    := 0
  actMaxmsg  := 0
  actRounds  := 0
  actV       := false
  actL       := 0
  irqEn      := false
  irqPend    := false
  hashcnt    := 0
  keymem     := []
  fsm        := .idle
  dir        := .enc
  iround     := 0
  msg        := 0
  kgM        := 0
  kgR        := 0
  kgV        := false
  kgL        := 0
  kgKey      := 0
  cacheValid := false
  cacheTag   := 0
  cacheData  := List.replicate 64 0
  resets     := 0
  host       := []
  sched      := []
  resp       := .none

end Sys2Proof.Machine
end

