-- ==== Sys2Proof/Machine/Ops.lean ====
section
/-! DEFINITION. The named operations every command and FSM step is written in: key memory (spec/00_scope.md R10,
spec/10_state.md R45), the oracle calls (R10), the updates of the active configuration and of a running command, and
the two ways a command ends, error completion and normal completion (spec/60_exceptions.md R226, R227). The block takes
no trap (R232): error completion is all its exception entry, and the return from it is the host's next CMD write. -/

namespace Sys2Proof.Machine

/-! ## Key memory -/

namespace Memory

/-- The byte at an address; an unlisted address reads as the reset draw `draw` gives it (spec/70_reset_and_hazards.md R261). -/
def read (draw : Nat → Byte) : Memory → Nat → Byte
  | [], a => draw a
  | (b, v) :: m, a => if a = b then v else read draw m a

/-- Store a byte, keeping the canonical form. -/
def write (draw : Nat → Byte) (a : Nat) (v : Byte) : Memory → Memory
  | [] => if v = draw a then [] else [(a, v)]
  | (b, w) :: m =>
    if a < b then (if v = draw a then (b, w) :: m else (a, v) :: (b, w) :: m)
    else if a = b then (if v = draw a then m else (a, v) :: m)
    else (b, w) :: write draw a v m

/-- Store bytes at `a`, `a + 1`, … -/
def writeBytes (draw : Nat → Byte) (a : Nat) : List Byte → Memory → Memory
  | [], m => m
  | v :: vs, m => writeBytes draw (a + 1) vs (write draw a v m)

/-- Every listed address is at least `lo`, addresses rise strictly, and no entry equals what its address would read as unlisted. -/
def wfFrom (draw : Nat → Byte) (lo : Nat) : Memory → Bool
  | [] => true
  | (a, v) :: m => decide (lo ≤ a) && decide (v ≠ draw a) && wfFrom draw (a + 1) m

/-- The canonical form. -/
def wf (draw : Nat → Byte) (m : Memory) : Bool := wfFrom draw 0 m

end Memory

/-- What KEYMEM drew at the last reset (R261). -/
def drawOf (P : Params) (s : State) : Nat → Byte := P.keymemDraw s.resets

/-- KEYMEM byte `a` (R45). -/
def keyByte (P : Params) (s : State) (a : Nat) : Byte := Memory.read (drawOf P s) s.keymem a

/-- `MemRead(a, n)` (R10). -/
def memRead (P : Params) (s : State) (a n : Nat) : List Byte := (List.range n).map fun j => keyByte P s (a + j)

/-- `MemWrite(a, n, b)` with `n = len(b)` (R10). -/
def memWrite (P : Params) (a : Nat) (bs : List Byte) (s : State) : State :=
  { s with keymem := Memory.writeBytes (drawOf P s) a bs s.keymem }

/-- `KeySlot(i)` (R10, R45). -/
def keySlot (P : Params) (s : State) (i : Nat) : List Byte := memRead P s (i * P.keySlotBytes) P.keySlotBytes

/-! ## Oracles -/

/-- `Hash(key, msg, n)`, n bytes (spec/20_memory.md R75). -/
def hash (P : Params) (key msg : List Byte) (n : Nat) : List Byte := (List.range n).map (P.hashByte key msg n)

/-- `Expand(seed, len)`, len bytes (R76). -/
def expand (P : Params) (seed : List Byte) (len : Nat) : List Byte := (List.range len).map (P.expandByte seed len)

/-- The state written by one `HashCall`: HASHCNT counts it (spec/60_exceptions.md R240). -/
def State.countHash (s : State) : State := { s with hashcnt := s.hashcnt + 1 }

/-- `bit(b, j)` (R9, R69): bit `j mod 8` of byte `j div 8`. -/
def bitOf (b : List Byte) (j : Nat) : Bool := (b.getD (j / 8) 0).getLsbD (j % 8)

/-! ## Status -/

/-- `STATUS.BUSY`: FSM_STATE ≠ IDLE (spec/10_state.md R25). -/
def State.busy (s : State) : Bool := s.fsm != .idle

/-- The write lock of KEYMEM and KEYLEN (R46). -/
def State.locked (s : State) : Bool := s.configured || s.busy

/-- `HALF` (R53). -/
def State.half (s : State) : Nat := s.actMaxmsg.toNat / 2 + 1

/-! ## The ends of a command -/

/-- `raise Error(code)` (spec/60_exceptions.md R226). -/
def State.raiseError (code : ErrCode) (s : State) : State :=
  { s with err := true, errcode := code, irqPend := true, fsm := .idle }

/-- `complete()` (R227). -/
def State.complete (s : State) : State :=
  { s with err := false, errcode := .noError, irqPend := true, fsm := .idle }

/-- `complete(out)` (R227). -/
def State.completeWith (out : Word) (s : State) : State :=
  { s with err := false, errcode := .noError, dataOut := out, irqPend := true, fsm := .idle }

/-! ## Issue -/

/-- Set STATUS.DROP (spec/10_state.md R28). -/
def State.setDrop (b : Bool) (s : State) : State := { s with drop := b }

/-- A CMD write (R24): dropped while BUSY, else the issue event (R225), which clears DROP and does `body`. -/
def issueRequest (body : State → State) (s : State) : State :=
  if s.busy then s.setDrop true else body (s.setDrop false)

/-- The first writes of CONFIG, CONFIG_KEY and UNCONFIG (spec/40_domain_and_keys.md R131, R136, R140). -/
def State.clearConfig (s : State) : State :=
  { s with configured := false, actMaxmsg := 0, actRounds := 0, actV := false, actL := 0 }

/-- Make a checked configuration active (R131, R137). -/
def State.activate (m r : Word) (v : Bool) (l : BitVec 4) (s : State) : State :=
  { s with configured := true, actMaxmsg := m, actRounds := r, actV := v, actL := l }

/-- Latch CONFIG_KEY's operands and enter KEYGEN (R136). -/
def State.latchKeygen (m : Word) (r : Nat) (v : Bool) (l : BitVec 4) (k : Word) (s : State) : State :=
  { s with kgM := m, kgR := r, kgV := v, kgL := l, kgKey := k, fsm := .keygen }

/-- The writes of a checked ENCRYPT or DECRYPT issue (spec/42_shuffle.md R190). -/
def State.startRun (x : Word) (d : Dir) (s : State) : State :=
  { s with hashcnt := 0, cacheValid := false, msg := x, dir := d }

/-- Enter ROUND at round `i` (R190). -/
def State.enterRound (i : Nat) (s : State) : State := { s with iround := i, fsm := .round }

/-! ## A running command -/

def State.setMsg (m : Word) (s : State) : State := { s with msg := m }

def State.setIround (i : Nat) (s : State) : State := { s with iround := i }

def State.setKeylen (n : Word) (s : State) : State := { s with keylen := n }

/-- Fill the HashCache (spec/41_prf.md R166). -/
def State.fillCache (tag : Nat) (data : List Byte) (s : State) : State :=
  { s with cacheValid := true, cacheTag := tag, cacheData := data }

/-! ## The environment -/

/-- The schedule after its first turn is taken. -/
def State.takeTurn (s : State) : State := { s with sched := s.sched.tail }

/-- The host after its first line is done, with the response it got. -/
def State.answer (rest : List HostLine) (r : Response) (s : State) : State := { s with host := rest, resp := r }

end Sys2Proof.Machine
end

