-- ==== Sys2Proof/Machine/Flags.lean ====
section
/-! DEFINITION. The words made of flags: STATUS, ACT_CFG, DBG, ID, PARAM (spec/10_state.md) and the interrupt output
(spec/60_exceptions.md R230). -/

namespace Sys2Proof.Machine

/-- The number of an error code (R220). -/
def ErrCode.code : ErrCode → Nat
  | .noError => 0
  | .illegalCmd => 1
  | .notConfigured => 2
  | .domainEven => 3
  | .optLevel => 4
  | .partition => 5
  | .keyShort => 6
  | .domainInput => 7

/-- A word with only bit 0. -/
def bitWord (b : Bool) : Word := BitVec.ofNat 64 b.toNat

/-- STATUS: BUSY 0, CONFIGURED 1, ERR 2, DROP 3, ERRCODE 11:8; every other bit 0 (R25 to R29). -/
def statusWord (s : State) : Word :=
  BitVec.ofNat 64 (s.busy.toNat + 2 * s.configured.toNat + 4 * s.err.toNat + 8 * s.drop.toNat + 256 * s.errcode.code)

/-- ACT_CFG: V 4, L 11:8 (R38). -/
def actCfgWord (s : State) : Word := BitVec.ofNat 64 (16 * s.actV.toNat + 256 * s.actL.toNat)

/-- DBG.STATE (R44). -/
def FsmState.code : FsmState → Nat
  | .idle => 0
  | .keygen => 1
  | .round => 2

/-- DBG.DIR: 1 only in a DECRYPT's ROUND (R44). -/
def dbgDir (s : State) : Bool := s.fsm == .round && s.dir == .dec

/-- DBG.IROUND: IROUND in ROUND, else 0; the field has 32 bits (R44). -/
def dbgIround (s : State) : Nat := if s.fsm = .round then s.iround % 2 ^ 32 else 0

/-- DBG: STATE 1:0, DIR 2, CVALID 3, IROUND 63:32 (R44). -/
def dbgWord (s : State) : Word :=
  BitVec.ofNat 64 (s.fsm.code + 4 * (dbgDir s).toNat + 8 * s.cacheValid.toNat + 2 ^ 32 * dbgIround s)

/-- ID (R42). -/
def idWord : Word := 0x0000000154534631

/-- PARAM (R43). -/
def paramWord (P : Params) : Word :=
  BitVec.ofNat 64 (P.keySlotBytes + 2 ^ 8 * P.seedBytes + 2 ^ 16 * P.hashOutBasic + 2 ^ 24 * Config.hashOutAmort
    + 2 ^ 32 * P.keySlotsMax)

/-- The interrupt output (R230). -/
def irq (s : State) : Bool := s.irqEn && s.irqPend

/-- The level this block drives on line `n` of the platform: its output stands on line `TSF_IRQ_LINE` (R230). -/
def irqOnLine (P : Params) (s : State) (n : Nat) : Bool := n == P.tsfIrqLine && irq s

end Sys2Proof.Machine
end

