-- ==== Sys2Proof/Machine/Operands.lean ====
section
/-! DEFINITION. The operand and result registers of the window (spec/10_state.md R22): their offsets, what the host
reads from each and what a host write to each does. Commands have no operand forms of their own: each reads fixed
registers (R20). -/

namespace Sys2Proof.Machine

/-- The named registers of R22. -/
inductive Reg where
  | cmd | status | maxmsg | rounds | keylen | keynum | dataIn | dataOut | actMaxmsg | actRounds | actCfg
  | irqEn | irqPend | hashcnt | dbg | id | param
deriving DecidableEq, Repr

/-- The byte offset of a register (R22). -/
def Reg.offset : Reg → Nat
  | .cmd => 0x000
  | .status => 0x008
  | .maxmsg => 0x010
  | .rounds => 0x018
  | .keylen => 0x020
  | .keynum => 0x028
  | .dataIn => 0x030
  | .dataOut => 0x038
  | .actMaxmsg => 0x040
  | .actRounds => 0x048
  | .actCfg => 0x050
  | .irqEn => 0x058
  | .irqPend => 0x060
  | .hashcnt => 0x068
  | .dbg => 0x070
  | .id => 0x078
  | .param => 0x080

/-- Every register, in the order of R22. -/
def Reg.all : List Reg :=
  [.cmd, .status, .maxmsg, .rounds, .keylen, .keynum, .dataIn, .dataOut, .actMaxmsg, .actRounds, .actCfg,
    .irqEn, .irqPend, .hashcnt, .dbg, .id, .param]

/-- What an OKAY access reaches (R22, R23). -/
inductive Target where
  | reg (r : Reg)
  | reserved
  | keyWord (k : Nat)
deriving DecidableEq, Repr

/-- The offset of the first KEYMEM word (R22). -/
def keymemBase : Nat := 0x1000

/-- The register at an offset below KEYMEM, or a reserved offset (R22, R23). -/
def registerAt (o : Nat) : Target :=
  match Reg.all.find? fun r => r.offset == o with
  | some r => .reg r
  | none => .reserved

/-- What an access of `width` bits at offset `o` reaches; `none` is an ERROR response (spec/20_memory.md R61, R62). -/
def locate (P : Params) (width o : Nat) : Option Target :=
  if width ≠ 64 ∨ o % 8 ≠ 0 then none
  else if o < keymemBase then some (registerAt o)
  else if o < keymemBase + P.keymemBytes then some (.keyWord ((o - keymemBase) / 8))
  else none

/-- The byte size of the window (R62). -/
def windowBytes (P : Params) : Nat := keymemBase + P.keymemBytes

/-- The offset that a system address has in the window, which stands at `TSF_BASE`; `none` is an address that is not
this block's (spec/20_memory.md R70). -/
def windowOffset (P : Params) (a : Nat) : Option Nat :=
  if P.tsfBase ≤ a ∧ a < P.tsfBase + windowBytes P then some (a - P.tsfBase) else none

/-- KEYMEM word `k` as the host reads it (R66). -/
def keyWord (P : Params) (s : State) (k : Nat) : Word := BitVec.ofNat 64 (ofLE (memRead P s (8 * k) 8))

/-- A host read of a register (R22 to R44). -/
def readReg (P : Params) (s : State) : Reg → Word
  | .cmd => 0
  | .status => statusWord s
  | .maxmsg => s.maxmsg
  | .rounds => s.rounds
  | .keylen => s.keylen
  | .keynum => s.keynum
  | .dataIn => s.dataIn
  | .dataOut => s.dataOut
  | .actMaxmsg => s.actMaxmsg
  | .actRounds => s.actRounds
  | .actCfg => actCfgWord s
  | .irqEn => bitWord s.irqEn
  | .irqPend => bitWord s.irqPend
  | .hashcnt => s.hashcnt
  | .dbg => dbgWord s
  | .id => idWord
  | .param => paramWord P

/-- A host read of what an access reaches. -/
def readTarget (P : Params) (s : State) : Target → Word
  | .reg r => readReg P s r
  | .reserved => 0
  | .keyWord k => keyWord P s k

/-- The stored value of a KEYLEN write (R32). -/
def clampKeylen (P : Params) (v : Word) : Word := BitVec.ofNat 64 (min v.toNat P.keymemBytes)

/-- A host write of a register other than CMD; CMD holds no state of its own (R24) and its write is the issue
request of Machine/Bus.lean. A read-only register ignores the write (R23). -/
def writeReg (P : Params) (v : Word) (s : State) : Reg → State
  | .cmd => s
  | .status => s
  | .maxmsg => { s with maxmsg := v }
  | .rounds => { s with rounds := v }
  | .keylen => if s.locked then s else s.setKeylen (clampKeylen P v)
  | .keynum => { s with keynum := v }
  | .dataIn => { s with dataIn := v }
  | .dataOut => s
  | .actMaxmsg => s
  | .actRounds => s
  | .actCfg => s
  | .irqEn => { s with irqEn := v.getLsbD 0 }
  | .irqPend => if v.getLsbD 0 then { s with irqPend := false } else s
  | .hashcnt => s
  | .dbg => s
  | .id => s
  | .param => s

/-- A host write of KEYMEM word `k` (R45, R46, R66). -/
def writeKeyWord (P : Params) (k : Nat) (v : Word) (s : State) : State :=
  if s.locked then s else memWrite P (8 * k) (le64 v.toNat) s

/-- A host write of what an access reaches, CMD apart. -/
def writeTarget (P : Params) (v : Word) (s : State) : Target → State
  | .reg r => writeReg P v s r
  | .reserved => s
  | .keyWord k => writeKeyWord P k v s

end Sys2Proof.Machine
end

