-- ==== Sys2Proof/Machine/Configure.lean ====
section
/-! DEFINITION. Domain sizing, key schedule and configuration commands (spec/40_domain_and_keys.md): RPP, CONFIG,
CONFIG_KEY with its KEYGEN step, UNCONFIG. -/

namespace Sys2Proof.Machine

/-! ## DomainSizing -/

/-- The least `j ≥ k` with `n ≤ 2^j`, if it is below `k + fuel`. -/
def ceilLog2From (n : Nat) : Nat → Nat → Nat
  | 0, k => k
  | fuel + 1, k => if n ≤ 2 ^ k then k else ceilLog2From n fuel (k + 1)

/-- `ceil_log2(n)`: the least `k` with `n ≤ 2^k` (spec/00_scope.md R9), for `1 ≤ n ≤ 2^64`. -/
def ceilLog2 (n : Nat) : Nat := ceilLog2From n 64 0

/-- `rpp(m) = ceil_log2(m + 1)`, m + 1 exact (R120). -/
def rpp (m : Word) : Nat := ceilLog2 (m.toNat + 1)

/-- `R_key(M) = rpp(M) · PASS_MULT` (R121). -/
def keyRounds (m : Word) : Nat := rpp m * Config.passMult

/-- RPP, issue (R122). -/
def rppBody (s : State) : State := s.completeWith (BitVec.ofNat 64 (rpp s.maxmsg))

/-- `tsf.rpp` (R122). -/
def execRpp (s : State) : Outcome := .next (issueRequest rppBody s)

/-! ## KeySchedule -/

/-- `seed(K)` (R123). -/
def seedOf (P : Params) (k : Word) : List Byte := le64 k.toNat ++ List.replicate (P.seedBytes - 8) 0

/-- The key schedule of a key number for `r` rounds (R124). -/
def keySchedule (P : Params) (k : Word) (r : Nat) : List Byte := expand P (seedOf P k) (r * P.keySlotBytes)

/-! ## Configuration check -/

/-- The source's level check: L in [1, 7] and `L · 2^(L−1) ≤ 512` (R130). -/
def levelOk (l : Nat) : Bool := Config.lMin ≤ l && l ≤ Config.lMax && l * 2 ^ (l - 1) ≤ Config.hashMaxBits

/-- The PARTITION check: half is a multiple of `2^(L−1)` (R130, D17). -/
def partitionOk (m l : Nat) : Bool := (m / 2 + 1) % 2 ^ (l - 1) == 0

/-- `cfg_check(M, R, V, L, KL)`: the first error that applies (R130). -/
def cfgCheck (P : Params) (m r : Nat) (v : Bool) (l kl : Nat) : ErrCode :=
  if m % 2 = 0 then .domainEven
  else if v && !levelOk l then .optLevel
  else if v && !partitionOk m l then .partition
  else if kl < r * P.keySlotBytes then .keyShort
  else .noError

/-! ## CONFIG -/

/-- CONFIG, issue (R131). -/
def configBody (P : Params) (v : Bool) (l : Nat) (s : State) : State :=
  match cfgCheck P s.maxmsg.toNat s.rounds.toNat v l s.keylen.toNat with
  | .noError => (s.clearConfig.activate s.maxmsg s.rounds v (BitVec.ofNat 4 l)).complete
  | e => s.clearConfig.raiseError e

/-- `tsf.config` (R131): V = 0, L = 0. -/
def execConfig (s : State) : Outcome := .next (issueRequest (configBody Config.machine false 0) s)

/-- `tsf.config.o L` (R131): V = 1. -/
def execConfigO (level : Nat) (s : State) : Outcome := .next (issueRequest (configBody Config.machine true level) s)

/-! ## CONFIG_KEY -/

/-- CONFIG_KEY, issue (R136). -/
def ckeyBody (P : Params) (v : Bool) (s : State) : State :=
  let l := if v then Config.lKey else 0
  match cfgCheck P s.maxmsg.toNat (keyRounds s.maxmsg) v l P.keymemBytes with
  | .noError => s.clearConfig.latchKeygen s.maxmsg (keyRounds s.maxmsg) v (BitVec.ofNat 4 l) s.keynum
  | e => s.clearConfig.raiseError e

/-- `tsf.ckey` (R136): V = 0. -/
def execCkey (s : State) : Outcome := .next (issueRequest (ckeyBody Config.machine false) s)

/-- `tsf.ckey.o` (R136): V = 1. -/
def execCkeyO (s : State) : Outcome := .next (issueRequest (ckeyBody Config.machine true) s)

/-- The number of bytes a KEYGEN step writes (R137). -/
def keygenBytes (P : Params) (s : State) : Nat := s.kgR * P.keySlotBytes

/-- The KEYGEN step's writes (R137). -/
def keygenBody (P : Params) (s : State) : State :=
  (((memWrite P 0 (keySchedule P s.kgKey s.kgR) s).setKeylen (BitVec.ofNat 64 (keygenBytes P s))).activate
    s.kgM (BitVec.ofNat 64 s.kgR) s.kgV s.kgL).complete

/-- The KEYGEN step (R137). Its write must lie in KEYMEM (spec/00_scope.md R10); it does in every state a run reaches (log 10). -/
def keygenStep (P : Params) (s : State) : Outcome :=
  if P.keymemBytes < keygenBytes P s then .fault (.keymemBounds (keygenBytes P s)) else .next (keygenBody P s)

/-! ## UNCONFIG -/

/-- UNCONFIG, issue (R140). -/
def unconfigBody (s : State) : State := s.clearConfig.complete

/-- `tsf.unconfig` (R140). -/
def execUnconfig (s : State) : Outcome := .next (issueRequest unconfigBody s)

end Sys2Proof.Machine
end

