-- ==== Sys2Proof/Machine/Prf.lean ====
section
/-! DEFINITION. The round bit sources (spec/41_prf.md): RoundPRF and AmortizedRoundPRF with its HashCache. -/

namespace Sys2Proof.Machine

/-! ## RoundPRF -/

/-- One step of the fold of a byte to a bit: XOR with the byte shifted right. -/
def foldShift (k : Nat) (x : Byte) : Byte := x ^^^ (x >>> k)

/-- The fold of the hash bytes to one bit (R160): XOR of all bytes, then shifts 4, 2, 1, then bit 0 (D15). -/
def foldBit (h : List Byte) : Bool :=
  (foldShift 1 (foldShift 2 (foldShift 4 (h.foldl (· ^^^ ·) 0)))).getLsbD 0

/-- The hash of a basic round (R160). -/
def basicHash (P : Params) (s : State) (r i : Nat) : List Byte := hash P (keySlot P s i) (le64 r) P.hashOutBasic

/-- `prf_basic(r, i)`: the bit, and the state with the call counted (R160). -/
def prfBasic (P : Params) (r i : Nat) (s : State) : Bool × State := (foldBit (basicHash P s r i), s.countHash)

/-! ## AmortizedRoundPRF -/

/-- `P = HALF >> (L − 1)`, the projector (R163). -/
def projector (half l : Nat) : Nat := half / 2 ^ (l - 1)

/-- What bit partitioning gives: the super-round `s`, the hash input `hin` and the bit index `idx` (R164). -/
structure AmortIndex where
  superRound : Nat
  hashInput  : Nat
  bitIndex   : Nat
deriving DecidableEq, Repr

/-- `amort_index(r, i)` (R164). -/
def amortIndex (half l r i : Nat) : AmortIndex :=
  let p := i % l
  let q := r / 2 ^ p
  let hi := q / projector half l
  let lo := r % 2 ^ p
  { superRound := i / l, hashInput := q % projector half l, bitIndex := p * 2 ^ (l - 1) + (hi * 2 ^ p + lo) }

/-- The wide hash of a super-round (R166). -/
def wideHash (P : Params) (s : State) (a : AmortIndex) : List Byte :=
  hash P (keySlot P s a.superRound) (le64 a.hashInput) Config.hashOutAmort

/-- The HashCache after a look-up (R166): unchanged on a hit, filled and the call counted on a miss. -/
def cacheLookup (P : Params) (a : AmortIndex) (s : State) : State :=
  if s.cacheValid && s.cacheTag == a.superRound then s
  else (s.fillCache a.superRound (wideHash P s a)).countHash

/-- `prf_amort(r, i)` (R166). -/
def prfAmort (P : Params) (r i : Nat) (s : State) : Bool × State :=
  let a := amortIndex s.half s.actL.toNat r i
  (bitOf (cacheLookup P a s).cacheData a.bitIndex, cacheLookup P a s)

/-- `bitsrc(r, i)` (spec/42_shuffle.md R191). -/
def bitSource (P : Params) (r i : Nat) (s : State) : Bool × State :=
  if s.actV then prfAmort P r i s else prfBasic P r i s

/-- The KEYMEM slot that round `i` reads: slot i, or slot i div L (R160, R166). -/
def slotOfRound (s : State) (i : Nat) : Nat := if s.actV then i / s.actL.toNat else i

end Sys2Proof.Machine
end

