-- ==== Sys2Proof/Machine/Shuffle.lean ====
section
/-! DEFINITION. The permutation engine (spec/42_shuffle.md): ENCRYPT, DECRYPT and their ROUND steps. -/

namespace Sys2Proof.Machine

/-- `enc_round` for a given round bit (R191). -/
def encRoundWith (half m : Nat) (b : Bool) : Nat := m % half * 2 + (m / half ^^^ b.toNat)

/-- `dec_round` for a given round bit (R191). -/
def decRoundWith (half m : Nat) (b : Bool) : Nat := m / 2 + (m % 2 ^^^ b.toNat) * half

/-- The round remainder of `m`: `m mod half` in encrypt, `m div 2` in decrypt (R191). -/
def remainder (d : Dir) (half m : Nat) : Nat :=
  match d with
  | .enc => m % half
  | .dec => m / 2

/-- ENCRYPT and DECRYPT, issue (R190). -/
def encDecIssue (d : Dir) (s : State) : State :=
  if s.configured = false then s.raiseError .notConfigured
  else if s.actMaxmsg.toNat < s.dataIn.toNat then s.raiseError .domainInput
  else if s.actRounds.toNat = 0 then (s.startRun s.dataIn d).completeWith s.dataIn
  else (s.startRun s.dataIn d).enterRound (match d with | .enc => 0 | .dec => s.actRounds.toNat - 1)

/-- `tsf.enc` (R190). -/
def execEnc (s : State) : Outcome := .next (issueRequest (encDecIssue .enc) s)

/-- `tsf.dec` (R190). -/
def execDec (s : State) : Outcome := .next (issueRequest (encDecIssue .dec) s)

/-! ## ROUND steps -/

/-- What a ROUND step needs of its state, by R49, R50, R191, R168 and R10; it holds in every state a run reaches (log 10). -/
def roundFault (P : Params) (s : State) : Option Fault :=
  if s.actMaxmsg.toNat < s.msg.toNat ∨ s.actRounds.toNat ≤ s.iround then some .roundBounds
  else if s.actV && !(levelOk s.actL.toNat && partitionOk s.actMaxmsg.toNat s.actL.toNat) then some .noPartition
  else if P.keymemBytes < (slotOfRound s s.iround + 1) * P.keySlotBytes then
    some (.keymemBounds ((slotOfRound s s.iround + 1) * P.keySlotBytes))
  else none

/-- The round bit and the state with the bit source's writes, for the round that is due. -/
def roundBit (P : Params) (s : State) : Bool × State :=
  bitSource P (remainder s.dir s.half s.msg.toNat) s.iround s

/-- ENCRYPT round step (R192). -/
def encRoundBody (P : Params) (s : State) : State :=
  let m := BitVec.ofNat 64 (encRoundWith s.half s.msg.toNat (roundBit P s).1)
  let t := (roundBit P s).2.setMsg m
  if s.iround + 1 = s.actRounds.toNat then t.completeWith m else t.setIround (s.iround + 1)

/-- DECRYPT round step (R196). -/
def decRoundBody (P : Params) (s : State) : State :=
  let m := BitVec.ofNat 64 (decRoundWith s.half s.msg.toNat (roundBit P s).1)
  let t := (roundBit P s).2.setMsg m
  if s.iround = 0 then t.completeWith m else t.setIround (s.iround - 1)

/-- A ROUND step (R192, R196). -/
def roundStep (P : Params) (s : State) : Outcome :=
  match roundFault P s with
  | some f => .fault f
  | none =>
    match s.dir with
    | .enc => .next (encRoundBody P s)
    | .dec => .next (decRoundBody P s)

/-- One FSM step (spec/20_memory.md R60). In IDLE no step is enabled (spec/60_exceptions.md R245): the turn passes (log 7). -/
def fsmStep (P : Params) (s : State) : Outcome :=
  match s.fsm with
  | .idle => .next s
  | .keygen => keygenStep P s
  | .round => roundStep P s

end Sys2Proof.Machine
end

