-- ==== Sys2Proof/Machine/Dispatch.lean ====
section
/-! DEFINITION. The meaning of each command: the CMD write of its word (spec/60_exceptions.md R225). -/

namespace Sys2Proof.Machine

def exec (i : Instr) (s : State) : Host.Outcome State Fault Refusal :=
  match i with
  | .config => Sys2Proof.Machine.execConfig s
  | .configO level => Sys2Proof.Machine.execConfigO level s
  | .ckey => Sys2Proof.Machine.execCkey s
  | .ckeyO => Sys2Proof.Machine.execCkeyO s
  | .enc => Sys2Proof.Machine.execEnc s
  | .dec => Sys2Proof.Machine.execDec s
  | .rpp => Sys2Proof.Machine.execRpp s
  | .unconfig => Sys2Proof.Machine.execUnconfig s

end Sys2Proof.Machine
end

