-- ==== Sys2Proof/Machine/Bus.lean ====
section
/-! DEFINITION. The events (spec/20_memory.md R60, R72): host accesses, FSM steps and resets, and which comes next.
They are written for any parameters and any meaning of the commands, so that the test instrument of
spec/95_test_vectors.md can run them; Machine/Step.lean takes the machine's own. -/

namespace Sys2Proof.Machine

/-- A host write of the word `c` to CMD (spec/10_state.md R24): the command it decodes to, or, for an illegal word,
ILLEGAL_CMD at issue (spec/30_encoding.md R95, spec/60_exceptions.md R221). -/
def writeCmd (ex : Instr → State → Outcome) (c : Word) (s : State) : Outcome :=
  match decodeWord c with
  | .ok i => ex i s
  | .error _ => .next (issueRequest (State.raiseError .illegalCmd) s)

/-- A host read: the word, or `none` for an ERROR response (R61, R62). A read has no side effect (R63). -/
def busRead (P : Params) (width o : Nat) (s : State) : Option Word := (locate P width o).map (readTarget P s)

/-- A host write (R61 to R63). -/
def busWrite (P : Params) (ex : Instr → State → Outcome) (width o : Nat) (v : Word) (s : State) : Outcome :=
  match locate P width o with
  | none => .fault (.busError o)
  | some (.reg .cmd) => writeCmd ex v s
  | some t => .next (writeTarget P v s t)

/-- The host's next line (spec/30_encoding.md R98). With no line left there is no access, and all state persists
(spec/60_exceptions.md R245). A `poll` is one read of STATUS, and stays while BUSY read 1 (log 12). -/
def hostStep (P : Params) (ex : Instr → State → Outcome) (s : State) : Outcome :=
  match s.host with
  | [] => .next s
  | .read width o :: rest =>
    match busRead P width o s with
    | none => .fault (.busError o)
    | some v => .next (s.answer rest (.data v))
  | .write width o v :: rest => busWrite P ex width o v (s.answer rest .done)
  | .poll :: rest => .next (s.answer (if s.busy then .poll :: rest else rest) (.data (statusWord s)))

/-- A reset (spec/70_reset_and_hazards.md R260, R261): every piece of the block's state takes its reset value and
KEYMEM a new draw; the environment is not the block's and goes on (log 13). -/
def resetEvent (s : State) : State :=
  { State.reset with resets := s.resets + 1, host := s.host, sched := s.sched, resp := s.resp }

/-- Whose turn it is: what the schedule says; where it says nothing, the FSM's if one of its steps is enabled (so that
the FSM is served, R271) and else the host's (log 6). -/
def nextTurn (s : State) : Turn :=
  match s.sched with
  | t :: _ => t
  | [] => if s.busy then .fsm else .host

/-- One event. -/
def eventStep (P : Params) (ex : Instr → State → Outcome) (s : State) : Outcome :=
  match nextTurn s with
  | .host => hostStep P ex s.takeTurn
  | .fsm => fsmStep P s.takeTurn
  | .rst => .next (resetEvent s.takeTurn)

end Sys2Proof.Machine
end

