-- ==== Sys2Proof/Machine/Step.lean ====
section
/-! DEFINITION. The step of the machine, and how a command word comes to be its next event. -/

namespace Sys2Proof.Machine

/-- One event of the machine (spec/20_memory.md R60, R72). -/
def step (s : State) : Host.Outcome State Fault Refusal := eventStep Config.machine exec s

/-- The block fetches nothing (spec/10_state.md R21): a command arrives as a host write to CMD. This puts the write of
the word first among the host's lines and gives the host the next turn, so that the next step is that CMD write (log 9). -/
def State.withFetchWord (s : State) (nbits w : Nat) : State :=
  { s with
    host := .write 64 Reg.cmd.offset (BitVec.ofNat 64 (w % 2 ^ nbits)) :: s.host,
    sched := .host :: s.sched }

end Sys2Proof.Machine
end

