-- ==== Sys2Proof/Machine/HostProgram.lean ====
section
/-! DEFINITION. Host program syntax (spec/30_encoding.md R98, R99) as lists of host lines, and a host's accesses by system
address (spec/20_memory.md R70). -/

namespace Sys2Proof.Machine.HostProgram

/-- `wr REG, X`. -/
def wr (r : Reg) (x : Word) : HostLine := .write 64 r.offset x
/-- `wr KEYMEM[k], X`. -/
def wrKeymem (k : Nat) (x : Word) : HostLine := .write 64 (keymemBase + 8 * k) x
/-- `rd REG`. -/
def rd (r : Reg) : HostLine := .read 64 r.offset
/-- `rd KEYMEM[k]`. -/
def rdKeymem (k : Nat) : HostLine := .read 64 (keymemBase + 8 * k)
/-- `cmd M`. -/
def cmd (i : Instr) : HostLine := wr .cmd (encode i)
/-- `cmd tsf.word X`. -/
def cmdWord (x : Word) : HostLine := wr .cmd x

/-! ## Pseudo-instructions (R99) -/

def encrypt (x : Word) : List HostLine := [wr .dataIn x, cmd .enc, .poll, rd .dataOut]
def decrypt (x : Word) : List HostLine := [wr .dataIn x, cmd .dec, .poll, rd .dataOut]
def config (m r kl : Word) : List HostLine := [wr .maxmsg m, wr .rounds r, wr .keylen kl, cmd .config]
def configO (m r kl : Word) (level : Nat) : List HostLine :=
  [wr .maxmsg m, wr .rounds r, wr .keylen kl, cmd (.configO level)]
def ckey (m k : Word) : List HostLine := [wr .maxmsg m, wr .keynum k, cmd .ckey, .poll]
def ckeyO (m k : Word) : List HostLine := [wr .maxmsg m, wr .keynum k, cmd .ckeyO, .poll]
def rpp (m : Word) : List HostLine := [wr .maxmsg m, cmd .rpp, rd .dataOut]
def ackirq : List HostLine := [wr .irqPend 1]

/-! ## Accesses by system address (spec/20_memory.md R70) -/

/-- A host read of a system address, where the address is this block's. -/
def readAt (P : Params) (width a : Nat) : Option HostLine := (windowOffset P a).map (.read width)
/-- A host write of a system address, where the address is this block's. -/
def writeAt (P : Params) (width a : Nat) (x : Word) : Option HostLine := (windowOffset P a).map (.write width · x)

end Sys2Proof.Machine.HostProgram
end

