-- ==== Sys2Proof/Safety.lean ====
section
/-! DEFINITION. The terms claims are made in: the invariant of the machine, the permutation a configuration defines
(spec/42_shuffle.md R193, R197) as a function of the state with no cache in it, what a running ENCRYPT or DECRYPT holds
between its steps, and the part of the state that a later step can read. -/

namespace Sys2Proof.Machine

/-! ## Outcomes -/

/-- The next state satisfies `p`. -/
def nextHolds (o : Outcome) (p : State → Prop) : Prop := ∃ t, o = .next t ∧ p t

/-- The outcome with its next state passed through `f`. -/
def mapNext (f : State → State) : Outcome → Outcome
  | .next t => .next (f t)
  | .fault r => .fault r
  | .refused r => .refused r

/-- `k` steps, stopping at the first fault or refusal. -/
def runSteps : Nat → State → Outcome
  | 0, s => .next s
  | k + 1, s =>
    match step s with
    | .next t => runSteps k t
    | .fault r => .fault r
    | .refused r => .refused r

/-! ## The invariant -/

/-- What every state of a run satisfies. -/
structure Inv (P : Params) (s : State) : Prop where
  /-- KEYMEM is in canonical form. -/
  keymemWf : Memory.wf (drawOf P s) s.keymem = true
  /-- KEYMEM has `KEYMEM_BYTES` bytes (R45). -/
  keymemExtent : ∀ c ∈ s.keymem, c.1 < P.keymemBytes
  /-- KEYLEN never claims bytes that do not exist (R32). -/
  keylenBound : s.keylen.toNat ≤ P.keymemBytes
  /-- ERR says whether ERRCODE is an error (R27, R29). -/
  errMatches : s.err = true ↔ s.errcode ≠ .noError
  /-- An active configuration passed every check (R26, R36 to R38), and has L = 0 when V = 0. -/
  activeChecked : s.configured = true →
    cfgCheck P s.actMaxmsg.toNat s.actRounds.toNat s.actV s.actL.toNat s.keylen.toNat = .noError ∧
      (s.actV = false → s.actL = 0)
  /-- With no configuration the ACT registers read 0 (R36 to R38). -/
  inactiveZero : s.configured = false → s.actMaxmsg = 0 ∧ s.actRounds = 0 ∧ s.actV = false ∧ s.actL = 0
  /-- A running round is one of the configuration's and its message is in the domain (R49, R50). -/
  roundInBounds : s.fsm = .round →
    s.configured = true ∧ s.iround < s.actRounds.toNat ∧ s.msg.toNat ≤ s.actMaxmsg.toNat
  /-- A waiting CONFIG_KEY passed its checks (R136). -/
  keygenChecked : s.fsm = .keygen →
    s.configured = false ∧ s.kgR = keyRounds s.kgM ∧ s.kgL = (if s.kgV then 7 else 0) ∧
      cfgCheck P s.kgM.toNat s.kgR s.kgV s.kgL.toNat P.keymemBytes = .noError
  /-- A valid cache line has the width of the wide hash (R52). -/
  cacheWidth : s.cacheValid = true → s.cacheData.length = Config.hashOutAmort

/-! ## The permutation of a configuration -/

/-- The bit of round `i` for remainder `r` as a function of `(r, i)`, the configuration and KEYMEM alone (R160, R166
with a fresh hash call). -/
def freshBit (P : Params) (s : State) (r i : Nat) : Bool :=
  if s.actV then
    bitOf (wideHash P s (amortIndex s.half s.actL.toNat r i)) (amortIndex s.half s.actL.toNat r i).bitIndex
  else foldBit (basicHash P s r i)

/-- `enc_round(m, i)` (R191). -/
def encRound (P : Params) (s : State) (m i : Nat) : Nat := encRoundWith s.half m (freshBit P s (m % s.half) i)

/-- `dec_round(m, i)` (R191). -/
def decRound (P : Params) (s : State) (m i : Nat) : Nat := decRoundWith s.half m (freshBit P s (m / 2) i)

/-- `m_i` of R193: the message after rounds 0 to i − 1. -/
def encUpTo (P : Params) (s : State) (x : Nat) : Nat → Nat
  | 0 => x
  | i + 1 => encRound P s (encUpTo P s x i) i

/-- `ENC(x)` (R193). -/
def encOf (P : Params) (s : State) (x : Nat) : Nat := encUpTo P s x s.actRounds.toNat

/-- `y_{R−k}` of R197: the message after the `k` rounds R − 1 down to R − k. -/
def decDownFrom (P : Params) (s : State) (y : Nat) : Nat → Nat
  | 0 => y
  | k + 1 => decRound P s (decDownFrom P s y k) (s.actRounds.toNat - 1 - k)

/-- `DEC(y)` (R197). -/
def decOf (P : Params) (s : State) (y : Nat) : Nat := decDownFrom P s y s.actRounds.toNat

/-- The hash calls of one command: R, or `ceil(R / L)` (R169). -/
def hashCalls (s : State) : Nat :=
  if s.actV then (s.actRounds.toNat + (s.actL.toNat - 1)) / s.actL.toNat else s.actRounds.toNat

/-! ## A running command -/

/-- How many rounds of the running command are done. -/
def roundsDone (s : State) : Nat :=
  match s.dir with
  | .enc => s.iround
  | .dec => s.actRounds.toNat - 1 - s.iround

/-- The round done last, where one is. -/
def lastRound (s : State) : Nat :=
  match s.dir with
  | .enc => s.iround - 1
  | .dec => s.iround + 1

/-- The message an ENCRYPT or DECRYPT of `x` holds when its rounds so far are done (R193, R197). -/
def messageAt (P : Params) (s : State) (x : Nat) : Nat :=
  match s.dir with
  | .enc => encUpTo P s x (roundsDone s)
  | .dec => decDownFrom P s x (roundsDone s)

/-- The result of an ENCRYPT or DECRYPT of `x`. -/
def resultOf (P : Params) (s : State) (d : Dir) (x : Nat) : Nat :=
  match d with
  | .enc => encOf P s x
  | .dec => decOf P s x

/-- The super-rounds that the rounds done so far belong to (R169): each cost one hash call. -/
def superRoundsDone (s : State) : Nat :=
  if roundsDone s = 0 then 0
  else match s.dir with
    | .enc => lastRound s / s.actL.toNat + 1
    | .dec => (s.actRounds.toNat - 1) / s.actL.toNat - lastRound s / s.actL.toNat + 1

/-- An ENCRYPT or DECRYPT of `x` is between two of its steps: MSG is the message of R193 or R197; HASHCNT counts the calls
made (R240); the cache is empty before the first round and then holds the super-round of the last one, and where the round
due belongs to it, its data is the hash a fresh call would return (R167). -/
structure Running (P : Params) (s : State) (x : Nat) : Prop where
  inRound : s.fsm = .round
  message : s.msg.toNat = messageAt P s x
  counted : s.hashcnt.toNat = if s.actV then superRoundsDone s else roundsDone s
  cacheOff : s.actV = true → roundsDone s = 0 → s.cacheValid = false
  cacheTagged : s.actV = true → roundsDone s ≠ 0 → s.cacheValid = true ∧ s.cacheTag = lastRound s / s.actL.toNat
  cacheFresh : s.actV = true → roundsDone s ≠ 0 → s.iround / s.actL.toNat = lastRound s / s.actL.toNat →
    s.cacheData = wideHash P s (amortIndex s.half s.actL.toNat (remainder s.dir s.half s.msg.toNat) s.iround)

/-! ## What a later step can read -/

/-- The state with every element that no later event reads before it is written put to a fixed value: MSG and DIR
outside ROUND (R48, R50), KG_* outside KEYGEN (R51), the cache line while CACHE_VALID = 0 (R52). -/
def live (s : State) : State :=
  { s with
    dir := if s.fsm = .round then s.dir else .enc,
    msg := if s.fsm = .round then s.msg else 0,
    kgM := if s.fsm = .keygen then s.kgM else 0,
    kgR := if s.fsm = .keygen then s.kgR else 0,
    kgV := if s.fsm = .keygen then s.kgV else false,
    kgL := if s.fsm = .keygen then s.kgL else 0,
    kgKey := if s.fsm = .keygen then s.kgKey else 0,
    cacheTag := if s.cacheValid then s.cacheTag else 0,
    cacheData := if s.cacheValid then s.cacheData else [] }

/-! ## Events -/

/-- The next event is the host's line `l`, with `rest` to follow. -/
def HostDoes (s : State) (l : HostLine) (rest : List HostLine) : Prop := nextTurn s = .host ∧ s.host = l :: rest

/-- The next event is an FSM step. -/
def FsmDoes (s : State) : Prop := nextTurn s = .fsm

/-- The state with only the environment moved on: the turn taken, the host's line done with response `r`. -/
def afterLine (s : State) (rest : List HostLine) (r : Response) : State :=
  { s with sched := s.sched.tail, host := rest, resp := r }

/-- The host's next line writes CMD with a legal command. -/
def Issues (s : State) (i : Instr) : Prop :=
  ∃ c rest, HostDoes s (.write 64 0 c) rest ∧ decodeWord c = .ok i ∧ s.busy = false

/-! ## Frames -/

/-- The operand registers a host writes (R30 to R34) are the same. -/
structure SameOperands (s t : State) : Prop where
  maxmsg : t.maxmsg = s.maxmsg
  rounds : t.rounds = s.rounds
  keylen : t.keylen = s.keylen
  keynum : t.keynum = s.keynum
  dataIn : t.dataIn = s.dataIn

/-- The active configuration is the same (R36 to R38). -/
structure SameConfig (s t : State) : Prop where
  configured : t.configured = s.configured
  actMaxmsg : t.actMaxmsg = s.actMaxmsg
  actRounds : t.actRounds = s.actRounds
  actV : t.actV = s.actV
  actL : t.actL = s.actL

/-- Every KEYMEM byte reads the same (R45). -/
def SameKeymem (P : Params) (s t : State) : Prop := ∀ a, keyByte P t a = keyByte P s a

/-- The KEYGEN latch is the same (R51). -/
structure SameLatch (s t : State) : Prop where
  kgM : t.kgM = s.kgM
  kgR : t.kgR = s.kgR
  kgV : t.kgV = s.kgV
  kgL : t.kgL = s.kgL
  kgKey : t.kgKey = s.kgKey

/-- HASHCNT, the cache and the running command's MSG, DIR and IROUND are the same (R41, R48 to R50, R52). -/
structure SameEngine (s t : State) : Prop where
  hashcnt : t.hashcnt = s.hashcnt
  cacheValid : t.cacheValid = s.cacheValid
  cacheTag : t.cacheTag = s.cacheTag
  cacheData : t.cacheData = s.cacheData
  msg : t.msg = s.msg
  dir : t.dir = s.dir
  iround : t.iround = s.iround

/-- IRQ_EN and the environment are the same: the host's lines, the schedule, the last response, the count of resets. -/
structure SameOutside (s t : State) : Prop where
  irqEn : t.irqEn = s.irqEn
  resets : t.resets = s.resets
  host : t.host = s.host
  sched : t.sched = s.sched
  resp : t.resp = s.resp

end Sys2Proof.Machine
end

