-- ==== Sys2Proof/Certificates/Slice0/Obligations.lean ====
section
/-! DEFINITION. The statements of this slice, each one a proposition about `exec`, `step` or the functions they are made
of. OBLIGATIONS.json lists them with their rules. Where a statement is about a parameter set `P`, it holds of every legal
one; `exec` and `step` are at `Config.machine`. -/

open Sys2Proof Sys2Proof.Machine

/-! ## Encoding -/

/-- Every bit of an encoding is read back: the bytes of a well-formed command decode to it. -/
def Obligations.DecodeOfEncodeIsIdentity : Prop :=
  ∀ i : Instr, i.wellFormed = true → (encodeBytes i).length = 8 ∧ decodeBytes (encodeBytes i) = .ok i

/-- R93: which words are legal, in the fields of R91. -/
def Obligations.LegalWordsByFields : Prop :=
  ∀ c : Word,
    (∃ i, decodeWord c = .ok i) ↔
      (c.extractLsb' 5 3 = 0 ∧ c.extractLsb' 12 52 = 0) ∧
      (c.extractLsb' 0 4).toNat ∈ [1, 2, 3, 4, 5, 6] ∧
      ((c.extractLsb' 0 4).toNat ∈ [1, 2] ∨ c.getLsbD 4 = false) ∧
      ((c.extractLsb' 0 4).toNat = 1 ∧ c.getLsbD 4 = true ∨ c.extractLsb' 8 4 = 0)

/-- R94: the 23 legal words and the command of each. -/
def Obligations.LegalWordsAreTheTwentyThree : Prop :=
  ∀ (c : Word) (i : Instr),
    decodeWord c = .ok i ↔
      (c = 0x1 ∧ i = .config) ∨ (∃ level, level ≤ 15 ∧ c = 0x11 + BitVec.ofNat 64 (level * 256) ∧ i = .configO level) ∨
      (c = 0x2 ∧ i = .ckey) ∨ (c = 0x12 ∧ i = .ckeyO) ∨ (c = 0x3 ∧ i = .enc) ∨ (c = 0x4 ∧ i = .dec) ∨
      (c = 0x5 ∧ i = .rpp) ∨ (c = 0x6 ∧ i = .unconfig)

/-- Words written out bit by bit from R90, R97 and R100, with what each stands for. -/
def Obligations.SampleWordsDecode : Prop :=
  decodeTableWord 64 0b000000000001 = some .config ∧ decodeTableWord 64 0b001100010001 = some (.configO 3) ∧
  decodeTableWord 64 0b100000010001 = some (.configO 8) ∧ decodeTableWord 64 0b000000010010 = some .ckeyO ∧
  decodeTableWord 64 0b000000000100 = some .dec ∧ decodeTableWord 64 0b000000000110 = some .unconfig ∧
  decodeTableWord 64 0b000000010011 = none ∧ decodeTableWord 64 0b000100000010 = none ∧
  decodeTableWord 64 0b000000000111 = none ∧ decodeTableWord 64 0 = none

/-! ## Events -/

/-- A host write of a legal word to CMD, when it is the next event, is `exec` of the command; so is a word placed by
`withFetchWord` (log 9, the model's choice). -/
def Obligations.StepRunsTheDecodedCommand : Prop :=
  (∀ (s : State) (c : Word) (rest : List HostLine) (i : Instr),
    HostDoes s (.write 64 0 c) rest → decodeWord c = .ok i → step s = exec i (afterLine s rest .done)) ∧
  (∀ (s : State) (w : Nat) (i : Instr),
    decodeTableWord 64 w = some i → step (s.withFetchWord 64 w) = exec i (afterLine { s with sched := .host :: s.sched } s.host .done))

/-- R221: an illegal word ends with ILLEGAL_CMD, and nothing changes but DROP and the completion effects (and the host
has moved past its line). -/
def Obligations.IllegalWordIsReported : Prop :=
  ∀ (s : State) (c : Word) (rest : List HostLine),
    HostDoes s (.write 64 0 c) rest → (∀ i, decodeWord c ≠ .ok i) → s.fsm = .idle →
      step s = .next { afterLine s rest .done with drop := false, err := true, errcode := .illegalCmd, irqPend := true }

/-- A CMD write while BUSY is dropped, whatever its word, and only sets DROP; the same of `exec` of every command. -/
def Obligations.BusyCommandIsDropped : Prop :=
  (∀ (s : State) (c : Word) (rest : List HostLine),
    HostDoes s (.write 64 0 c) rest → s.fsm ≠ .idle → step s = .next { afterLine s rest .done with drop := true }) ∧
  (∀ (i : Instr) (s : State), s.fsm ≠ .idle → exec i s = .next { s with drop := true })

/-- DROP is set only by a dropped CMD write and cleared only by an issue or a reset. -/
def Obligations.DropChangesOnlyAtCmdWrites : Prop :=
  ∀ s t : State, step s = .next t → t.drop ≠ s.drop →
    (nextTurn s = .rst ∧ t.drop = false) ∨
    ∃ c rest, HostDoes s (.write 64 0 c) rest ∧ t.drop = s.busy

/-- Narrow, wide, misaligned and out-of-window accesses fault and every other access is answered (R61, R62). That an ERROR
response to a write stops the run as one to a read does is the model's inference (log 8). -/
def Obligations.BusAccessFaultsExactlyOutsideTheWindow : Prop :=
  ∀ (s : State) (l : HostLine) (rest : List HostLine) (w o : Nat) (v : Word),
    HostDoes s l rest → l = .read w o ∨ l = .write w o v →
      (w ≠ 64 ∨ o % 8 ≠ 0 ∨ 0x1000 + Config.machine.keymemBytes ≤ o → step s = .fault (.busError o)) ∧
      (w = 64 ∧ o % 8 = 0 ∧ o < 0x1000 + Config.machine.keymemBytes → ∃ t, step s = .next t)

/-- A read changes nothing of the block and answers the value of what it reaches (R63). A `poll` is a read of STATUS, after
which the host is past the line exactly when BUSY read 0 (R98; that it is one host line is the model's choice, log 12). -/
def Obligations.ReadHasNoSideEffect : Prop :=
  (∀ (s : State) (rest : List HostLine) (o : Nat),
    HostDoes s (.read 64 o) rest → o % 8 = 0 → o < 0x1000 + Config.machine.keymemBytes →
      ∃ v, busRead Config.machine 64 o s = some v ∧ step s = .next (afterLine s rest (.data v))) ∧
  ∀ (s : State) (rest : List HostLine), HostDoes s .poll rest →
    busRead Config.machine 64 0x008 s = some (statusWord s) ∧
    (s.fsm = .idle → step s = .next (afterLine s rest (.data (statusWord s)))) ∧
    (s.fsm ≠ .idle → step s = .next (afterLine s (.poll :: rest) (.data (statusWord s))))

/-- What each register offset reads (R22 to R44): stored registers, the words made of flags, CMD and reserved offsets 0. -/
def Obligations.RegisterOffsetsRead : Prop :=
  ∀ (P : Params) (s : State),
    busRead P 64 0x000 s = some 0 ∧ busRead P 64 0x008 s = some (statusWord s) ∧
    busRead P 64 0x010 s = some s.maxmsg ∧ busRead P 64 0x018 s = some s.rounds ∧
    busRead P 64 0x020 s = some s.keylen ∧ busRead P 64 0x028 s = some s.keynum ∧
    busRead P 64 0x030 s = some s.dataIn ∧ busRead P 64 0x038 s = some s.dataOut ∧
    busRead P 64 0x040 s = some s.actMaxmsg ∧ busRead P 64 0x048 s = some s.actRounds ∧
    busRead P 64 0x050 s = some (actCfgWord s) ∧ busRead P 64 0x058 s = some (if s.irqEn then 1 else 0) ∧
    busRead P 64 0x060 s = some (if s.irqPend then 1 else 0) ∧ busRead P 64 0x068 s = some s.hashcnt ∧
    busRead P 64 0x070 s = some (dbgWord s) ∧ busRead P 64 0x078 s = some 0x0000000154534631 ∧
    busRead P 64 0x080 s = some (paramWord P) ∧
    ∀ o, 0x088 ≤ o → o ≤ 0xFF8 → o % 8 = 0 → busRead P 64 o s = some 0

/-- The bits of STATUS (R25 to R29): BUSY 0, CONFIGURED 1, ERR 2, DROP 3, ERRCODE 11:8 with the numbers of R220, every
other bit 0. -/
def Obligations.StatusBits : Prop :=
  ∀ s : State,
    (∀ i, (statusWord s).getLsbD i =
      if i = 0 then s.fsm != .idle else if i = 1 then s.configured else if i = 2 then s.err else if i = 3 then s.drop
      else if 8 ≤ i ∧ i < 12 then s.errcode.code.testBit (i - 8) else false) ∧
    ((statusWord s).extractLsb' 8 4).toNat =
      match s.errcode with
      | .noError => 0
      | .illegalCmd => 1
      | .notConfigured => 2
      | .domainEven => 3
      | .optLevel => 4
      | .partition => 5
      | .keyShort => 6
      | .domainInput => 7

/-- R44: the fields of DBG. -/
def Obligations.DbgFields : Prop :=
  ∀ s : State, s.iround < 2 ^ 32 →
    ((dbgWord s).extractLsb' 0 2).toNat = (match s.fsm with | .idle => 0 | .keygen => 1 | .round => 2) ∧
    (dbgWord s).getLsbD 2 = (s.fsm == .round && s.dir == .dec) ∧ (dbgWord s).getLsbD 3 = s.cacheValid ∧
    (dbgWord s).extractLsb' 4 28 = 0 ∧
    ((dbgWord s).extractLsb' 32 32).toNat = if s.fsm = .round then s.iround else 0

/-- R38 and R43: the fields of ACT_CFG and of PARAM. -/
def Obligations.CfgAndParamFields : Prop :=
  (∀ s : State, (actCfgWord s).getLsbD 4 = s.actV ∧ (actCfgWord s).extractLsb' 8 4 = s.actL ∧
    (actCfgWord s).extractLsb' 0 4 = 0 ∧ (actCfgWord s).extractLsb' 5 3 = 0 ∧ (actCfgWord s).extractLsb' 12 52 = 0) ∧
  ∀ P : Params, P.Legal →
    ((paramWord P).extractLsb' 0 8).toNat = P.keySlotBytes ∧ ((paramWord P).extractLsb' 8 8).toNat = P.seedBytes ∧
    ((paramWord P).extractLsb' 16 8).toNat = P.hashOutBasic ∧ ((paramWord P).extractLsb' 24 8).toNat = 64 ∧
    ((paramWord P).extractLsb' 32 32).toNat = P.keySlotsMax

/-- R66: KEYMEM word k reads as the little-endian packing of its 8 bytes; a host write while unlocked stores the 8 bytes of
the word, and every other byte and every other part of the block is unchanged; a write while locked is ignored. -/
def Obligations.KeymemWordsPackTheirBytes : Prop :=
  (∀ (s : State) (k : Nat), 8 * k < Config.machine.keymemBytes →
    ∃ w : Word, busRead Config.machine 64 (0x1000 + 8 * k) s = some w ∧
      ∀ j, j < 8 → w.extractLsb' (8 * j) 8 = keyByte Config.machine s (8 * k + j)) ∧
  (∀ (s : State) (rest : List HostLine) (k : Nat) (v : Word),
    HostDoes s (.write 64 (0x1000 + 8 * k) v) rest → 8 * k < Config.machine.keymemBytes →
      (Memory.wf (drawOf Config.machine s) s.keymem = true → s.configured = false → s.fsm = .idle →
        ∃ t, step s = .next t ∧
          (∀ j, j < 8 → keyByte Config.machine t (8 * k + j) = v.extractLsb' (8 * j) 8) ∧
          (∀ a, a < 8 * k ∨ 8 * k + 8 ≤ a → keyByte Config.machine t a = keyByte Config.machine s a) ∧
          t = { afterLine s rest .done with keymem := t.keymem }) ∧
      (s.configured = true ∨ s.fsm ≠ .idle → step s = .next (afterLine s rest .done)))

/-- R46: while CONFIGURED or BUSY a host write to KEYMEM or KEYLEN does nothing, and only CONFIG_KEY's KEYGEN step and
reset change a KEYMEM byte. -/
def Obligations.KeyLock : Prop :=
  (∀ (s : State) (rest : List HostLine) (o : Nat) (v : Word),
    HostDoes s (.write 64 o v) rest → (o = 0x020 ∨ o % 8 = 0 ∧ 0x1000 ≤ o ∧ o < 0x1000 + Config.machine.keymemBytes) →
    s.configured = true ∨ s.fsm ≠ .idle → step s = .next (afterLine s rest .done)) ∧
  (∀ (s t : State) (a : Nat), step s = .next t → s.configured = true ∨ s.fsm ≠ .idle →
    keyByte Config.machine t a ≠ keyByte Config.machine s a →
      nextTurn s = .rst ∨ nextTurn s = .fsm ∧ s.fsm = .keygen)

/-- KEYMEM bytes change only by an unlocked host write of their own word, by a KEYGEN step over the bytes it expands, and by
reset (R45, R137, R261). -/
def Obligations.KeymemChangesOnlyBy : Prop :=
  ∀ (s t : State) (a : Nat), step s = .next t → keyByte Config.machine t a ≠ keyByte Config.machine s a →
    nextTurn s = .rst ∨
    (FsmDoes s ∧ s.fsm = .keygen ∧ a < s.kgR * Config.machine.keySlotBytes) ∨
    ∃ k v rest, HostDoes s (.write 64 (0x1000 + 8 * k) v) rest ∧ 8 * k ≤ a ∧ a < 8 * k + 8 ∧
      s.configured = false ∧ s.fsm = .idle

/-- What a host write of each read-write register stores (R30 to R34, R39): the word, for KEYLEN the lesser of the word and
KEYMEM_BYTES while unlocked (R32), for IRQ_EN bit 0; nothing else changes. -/
def Obligations.HostWritesOperandRegisters : Prop :=
  ∀ (s : State) (rest : List HostLine) (o : Nat) (v : Word), HostDoes s (.write 64 o v) rest →
    let u := afterLine s rest .done
    (o = 0x010 → step s = .next { u with maxmsg := v }) ∧ (o = 0x018 → step s = .next { u with rounds := v }) ∧
    (o = 0x028 → step s = .next { u with keynum := v }) ∧ (o = 0x030 → step s = .next { u with dataIn := v }) ∧
    (o = 0x058 → step s = .next { u with irqEn := v.getLsbD 0 }) ∧
    (o = 0x020 → s.configured = false → s.fsm = .idle →
      ∃ n : Word, n.toNat = min v.toNat Config.machine.keymemBytes ∧ step s = .next { u with keylen := n })

/-- R40's write side: writing 1 to bit 0 of IRQ_PEND clears DONE, writing 0 leaves it; nothing else changes. -/
def Obligations.IrqPendIsWriteOneToClear : Prop :=
  ∀ (s : State) (rest : List HostLine) (v : Word), HostDoes s (.write 64 0x060 v) rest →
    step s = .next { afterLine s rest .done with irqPend := s.irqPend && !v.getLsbD 0 }

/-- A write to a read-only register or a reserved offset is ignored (R23). -/
def Obligations.ReadOnlyWritesAreIgnored : Prop :=
  ∀ (s : State) (rest : List HostLine) (o : Nat) (v : Word), HostDoes s (.write 64 o v) rest →
    o ∈ [0x008, 0x038, 0x040, 0x048, 0x050, 0x068, 0x070, 0x078, 0x080] ∨ (0x088 ≤ o ∧ o ≤ 0xFF8 ∧ o % 8 = 0) →
      step s = .next (afterLine s rest .done)

/-- DONE rises only at a completion, with ERR and ERRCODE written, and falls only by a host's write of 1 or a reset; the
interrupt output follows it and the enable (R230). -/
def Obligations.DoneChangesOnlyAtCompletionsAndClears : Prop :=
  ∀ s t : State, step s = .next t →
    (s.irqPend = false → t.irqPend = true → t.fsm = .idle ∧ (s.fsm ≠ .idle ∧ FsmDoes s ∧ t.err = false ∨
      ∃ c rest, HostDoes s (.write 64 0 c) rest ∧ s.fsm = .idle)) ∧
    (s.irqPend = true → t.irqPend = false → nextTurn s = .rst ∨
      ∃ v rest, HostDoes s (.write 64 0x060 v) rest ∧ v.getLsbD 0 = true) ∧
    (irq t = true ↔ t.irqEn = true ∧ t.irqPend = true)

/-! ## Domain sizing and configuration -/

/-- R120: rpp is the least k with m + 1 ≤ 2^k, it is the bit length of m, and it is at most 64. -/
def Obligations.RppIsTheBitLength : Prop :=
  ∀ m : Word, rpp m ≤ 64 ∧ m.toNat + 1 ≤ 2 ^ rpp m ∧ (∀ k, m.toNat + 1 ≤ 2 ^ k → rpp m ≤ k) ∧
    rpp m = if m.toNat = 0 then 0 else Nat.log2 m.toNat + 1

/-- RPP writes rpp(MAXMSG) to DATA_OUT and completes; nothing else changes (R122). -/
def Obligations.RppCommand : Prop :=
  ∀ s : State, s.fsm = .idle →
    ∃ n : Word, n.toNat = rpp s.maxmsg ∧
      exec .rpp s =
        .next { s with dataOut := n, drop := false, err := false, errcode := .noError, irqPend := true }

/-- R130: the configuration check answers the first error that applies, with the product R · KEY_SLOT_BYTES exact. -/
def Obligations.ConfigurationCheckOrder : Prop :=
  ∀ (P : Params) (m r l kl : Nat) (v : Bool),
    let even := m % 2 = 0
    let level := v = true ∧ (l < 1 ∨ 7 < l ∨ 512 < l * 2 ^ (l - 1))
    let part := v = true ∧ (m / 2 + 1) % 2 ^ (l - 1) ≠ 0
    let short := kl < r * P.keySlotBytes
    (cfgCheck P m r v l kl = .domainEven ↔ even) ∧ (cfgCheck P m r v l kl = .optLevel ↔ ¬even ∧ level) ∧
    (cfgCheck P m r v l kl = .partition ↔ ¬even ∧ ¬level ∧ part) ∧
    (cfgCheck P m r v l kl = .keyShort ↔ ¬even ∧ ¬level ∧ ¬part ∧ short) ∧
    (cfgCheck P m r v l kl = .noError ↔ ¬even ∧ ¬level ∧ ¬part ∧ ¬short)

/-- CONFIG (R131), basic and, at every level, optimized: with the check passed the configuration is active and the command
completes; with an error the block is unconfigured and the error reported. Nothing else changes. -/
def Obligations.ConfigCommands : Prop :=
  ∀ (s : State) (i : Instr) (v : Bool) (l : Nat), s.fsm = .idle →
    (i = .config ∧ v = false ∧ l = 0 ∨ i = .configO l ∧ v = true) →
    let e := cfgCheck Config.machine s.maxmsg.toNat s.rounds.toNat v l s.keylen.toNat
    (e = .noError → exec i s = .next { s with
      configured := true, actMaxmsg := s.maxmsg, actRounds := s.rounds, actV := v, actL := BitVec.ofNat 4 l,
      drop := false, err := false, errcode := .noError, irqPend := true }) ∧
    (e ≠ .noError → exec i s = .next { s with
      configured := false, actMaxmsg := 0, actRounds := 0, actV := false, actL := 0,
      drop := false, err := true, errcode := e, irqPend := true })

/-- CONFIG_KEY's issue (R136), both variants: with the check passed the operands are latched and KEYGEN entered with no
completion; with an error the block is unconfigured and the error reported. Nothing else changes. The error can only be
DOMAIN_EVEN or, with V = 1, PARTITION, and with V = 1 the check passes exactly where M + 1 is a multiple of 128. -/
def Obligations.ConfigKeyCommands : Prop :=
  ∀ (s : State) (i : Instr) (v : Bool), s.fsm = .idle → (i = .ckey ∧ v = false ∨ i = .ckeyO ∧ v = true) →
    let l := if v then 7 else 0
    let e := cfgCheck Config.machine s.maxmsg.toNat (rpp s.maxmsg * 8) v l Config.machine.keymemBytes
    (e = .noError → exec i s = .next { s with
      configured := false, actMaxmsg := 0, actRounds := 0, actV := false, actL := 0, drop := false,
      kgM := s.maxmsg, kgR := rpp s.maxmsg * 8, kgV := v, kgL := BitVec.ofNat 4 l, kgKey := s.keynum, fsm := .keygen }) ∧
    (e ≠ .noError → exec i s = .next { s with
      configured := false, actMaxmsg := 0, actRounds := 0, actV := false, actL := 0,
      drop := false, err := true, errcode := e, irqPend := true }) ∧
    (e = .noError ∨ e = .domainEven ∨ v = true ∧ e = .partition) ∧
    (v = true → (e = .noError ↔ (s.maxmsg.toNat + 1) % 128 = 0))

/-- On the key-number path only DOMAIN_EVEN and, with V = 1, PARTITION can occur (R136), and the optimized form passes
exactly when M + 1 is a multiple of 128. -/
def Obligations.KeyNumberPathErrors : Prop :=
  ∀ (P : Params) (m : Word), P.Legal →
    (cfgCheck P m.toNat (keyRounds m) false 0 P.keymemBytes = if m.toNat % 2 = 0 then .domainEven else .noError) ∧
    (cfgCheck P m.toNat (keyRounds m) true 7 P.keymemBytes =
      if m.toNat % 2 = 0 then .domainEven else if (m.toNat + 1) % 128 = 0 then .noError else .partition) ∧
    (m.toNat % 2 = 1 → 8 ≤ keyRounds m ∧ keyRounds m ≤ 512)

/-- The KEYGEN step (R137): KEYMEM bytes below n are the expansion of the seed, where n is at least 8 slots and at most
KEYMEM_BYTES, bytes from n on are unchanged, KEYLEN is n, the latched configuration is active and the command completes;
HASHCNT and the operands but KEYLEN are unchanged. -/
def Obligations.KeygenStepLoadsTheSchedule : Prop :=
  ∀ s : State, Inv Config.machine s → FsmDoes s → s.fsm = .keygen →
    ∃ t, step s = .next t ∧
      t = { s with
        sched := s.sched.tail, keymem := t.keymem, keylen := t.keylen, configured := true, actMaxmsg := s.kgM,
        actRounds := t.actRounds, actV := s.kgV, actL := s.kgL, fsm := .idle, err := false, errcode := .noError,
        irqPend := true } ∧
      8 * Config.machine.keySlotBytes ≤ s.kgR * Config.machine.keySlotBytes ∧
      s.kgR * Config.machine.keySlotBytes ≤ Config.machine.keymemBytes ∧
      t.keylen.toNat = s.kgR * Config.machine.keySlotBytes ∧ t.actRounds.toNat = s.kgR ∧
      (∀ a, a < s.kgR * Config.machine.keySlotBytes → keyByte Config.machine t a =
        Config.expandByte (seedOf Config.machine s.kgKey) (s.kgR * Config.machine.keySlotBytes) a) ∧
      ∀ a, s.kgR * Config.machine.keySlotBytes ≤ a → keyByte Config.machine t a = keyByte Config.machine s a

/-- R123: the seed is the key number in its first 8 bytes, least significant first, and zeros. -/
def Obligations.SeedLayout : Prop :=
  ∀ (P : Params) (k : Word), P.Legal →
    (seedOf P k).length = P.seedBytes ∧ (∀ j, j < 8 → (seedOf P k)[j]? = some (k.extractLsb' (8 * j) 8)) ∧
    ∀ j, 8 ≤ j → j < P.seedBytes → (seedOf P k)[j]? = some 0

/-- R138: CONFIG_KEY with (M, K, V) and its KEYGEN step leave the same ACT registers and the same key bytes as CONFIG over a
KEYMEM the host loaded with `Expand(seed(K), R · KEY_SLOT_BYTES)`, KEYLEN and ROUNDS set to match. -/
def Obligations.TheTwoConstructorsAgree : Prop :=
  ∀ (s u : State) (v : Bool),
    let n := keyRounds s.maxmsg * Config.machine.keySlotBytes
    s.fsm = .idle → u.fsm = .idle → Memory.wf (drawOf Config.machine s) s.keymem = true →
    u.maxmsg = s.maxmsg → u.rounds.toNat = keyRounds s.maxmsg → u.keylen.toNat = n →
    (∀ a, a < n → keyByte Config.machine u a = Config.expandByte (seedOf Config.machine s.keynum) n a) →
    cfgCheck Config.machine s.maxmsg.toNat (keyRounds s.maxmsg) v (if v then 7 else 0) Config.machine.keymemBytes = .noError →
      ∃ s' t u', exec (if v then .ckeyO else .ckey) s = .next s' ∧ fsmStep Config.machine s' = .next t ∧
        exec (if v then .configO 7 else .config) u = .next u' ∧ t.configured = true ∧ SameConfig t u' ∧
        ∀ a, a < n → keyByte Config.machine t a = keyByte Config.machine u' a

/-- UNCONFIG discards the configuration and completes; KEYMEM, KEYLEN and everything else are unchanged (R140). -/
def Obligations.UnconfigCommand : Prop :=
  ∀ s : State, s.fsm = .idle →
    exec .unconfig s = .next { s with
      configured := false, actMaxmsg := 0, actRounds := 0, actV := false, actL := 0,
      drop := false, err := false, errcode := .noError, irqPend := true }

/-- CONFIGURED is set only by a CONFIG issue or a KEYGEN step, and cleared only by the issue of CONFIG, CONFIG_KEY or
UNCONFIG and by reset; while it is 1, ACT_* and KEYLEN pass every check (R26, R36 to R38). -/
def Obligations.ConfiguredChangesOnlyBy : Prop :=
  ∀ s t : State, Inv Config.machine s → step s = .next t →
    (s.configured = false → t.configured = true →
      (FsmDoes s ∧ s.fsm = .keygen) ∨ ∃ i, Issues s i ∧ (i = .config ∨ ∃ l, i = .configO l)) ∧
    (s.configured = true → t.configured = false →
      nextTurn s = .rst ∨ ∃ i, Issues s i ∧ i ≠ .enc ∧ i ≠ .dec ∧ i ≠ .rpp) ∧
    (t.configured = true →
      cfgCheck Config.machine t.actMaxmsg.toNat t.actRounds.toNat t.actV t.actL.toNat t.keylen.toNat = .noError)

/-! ## Bit sources -/

/-- R160, R161: `prf_basic(r, i)` asks for HASH_OUT_BASIC bytes of the hash of slot i over LE64(r), counts the call, writes
nothing else, and returns the parity of all bits of the hash; the fold is that parity for every byte string. -/
def Obligations.BasicBitIsTheParity : Prop :=
  (∀ (P : Params) (s : State) (r i : Nat),
    let h := basicHash P s r i
    h = hash P (keySlot P s i) (le64 r) P.hashOutBasic ∧ h.length = P.hashOutBasic ∧
    prfBasic P r i s = (((List.range (8 * P.hashOutBasic)).filter fun j => bitOf h j).length % 2 == 1,
      { s with hashcnt := s.hashcnt + 1 })) ∧
  ∀ h : List Byte,
    foldBit h = (((List.range (8 * h.length)).filter fun j => bitOf h j).length % 2 == 1)

/-- R163 to R165: the projector, the super-round, hash input and bit index of bit partitioning, and their ranges. -/
def Obligations.BitPartitioningRanges : Prop :=
  ∀ half l r i p : Nat, 1 ≤ l → l ≤ 7 → half % 2 ^ (l - 1) = 0 → r < half → half ≤ 2 ^ 63 → p = i % l →
    let proj := projector half l
    let a := amortIndex half l r i
    proj = half / 2 ^ (l - 1) ∧ a.superRound = i / l ∧ a.hashInput = r / 2 ^ p % proj ∧
    a.bitIndex = p * 2 ^ (l - 1) + (r / 2 ^ p / proj * 2 ^ p + r % 2 ^ p) ∧
    half = proj * 2 ^ (l - 1) ∧ 1 ≤ proj ∧ r / 2 ^ p < proj * 2 ^ (l - 1 - p) ∧
    r / 2 ^ p / proj < 2 ^ (l - 1 - p) ∧ r % 2 ^ p < 2 ^ p ∧
    r / 2 ^ p / proj * 2 ^ p + r % 2 ^ p ≤ 2 ^ (l - 1) - 1 ∧
    p * 2 ^ (l - 1) ≤ a.bitIndex ∧ a.bitIndex < (p + 1) * 2 ^ (l - 1) ∧ a.bitIndex < l * 2 ^ (l - 1) ∧
    l * 2 ^ (l - 1) ≤ 448 ∧ 448 ≤ 8 * Config.hashOutAmort ∧ a.hashInput < proj ∧ proj ≤ 2 ^ 63 ∧ a.superRound ≤ i

/-- The amortized generator (R166): a hit returns the stored hash's bit, whatever the hash input is, and writes nothing; a
miss calls the hash once, counts it, and replaces the line. -/
def Obligations.HashCacheHitAndMiss : Prop :=
  ∀ (P : Params) (s : State) (r i : Nat),
    let a := amortIndex s.half s.actL.toNat r i
    let h := hash P (keySlot P s a.superRound) (le64 a.hashInput) 64
    (s.cacheValid = true ∧ s.cacheTag = i / s.actL.toNat → prfAmort P r i s = (bitOf s.cacheData a.bitIndex, s)) ∧
    (¬(s.cacheValid = true ∧ s.cacheTag = i / s.actL.toNat) → prfAmort P r i s =
      (bitOf h a.bitIndex,
        { s with cacheValid := true, cacheTag := i / s.actL.toNat, cacheData := h, hashcnt := s.hashcnt + 1 }))

/-- R167's first half: the remainders of a run give every round of a super-round the same hash input. -/
def Obligations.HashInputIsConstantInASuperRound : Prop :=
  ∀ (half l : Nat) (r c : Nat → Nat), 1 ≤ l → l ≤ 7 → 1 ≤ half → half % 2 ^ (l - 1) = 0 → r 0 < half →
    (∀ k, c k ≤ 1 ∧ r (k + 1) = (2 * r k + c k) % half) →
      ∀ s p, p < l → (amortIndex half l (r (s * l + p)) (s * l + p)).hashInput = r (s * l) % projector half l

/-! ## ENCRYPT and DECRYPT -/

/-- The issue of ENCRYPT and DECRYPT (R190): NOT_CONFIGURED, then DOMAIN_INPUT, each with nothing else changed; R = 0 is the
identity and completes; otherwise the run begins. -/
def Obligations.EncryptAndDecryptIssue : Prop :=
  ∀ (s : State) (i : Instr) (d : Dir), s.fsm = .idle → (i = .enc ∧ d = .enc ∨ i = .dec ∧ d = .dec) →
    (s.configured = false → exec i s =
      .next { s with drop := false, err := true, errcode := .notConfigured, irqPend := true }) ∧
    (s.configured = true → s.actMaxmsg.toNat < s.dataIn.toNat → exec i s =
      .next { s with drop := false, err := true, errcode := .domainInput, irqPend := true }) ∧
    (s.configured = true → s.dataIn.toNat ≤ s.actMaxmsg.toNat → s.actRounds = 0 → exec i s =
      .next { s with
        hashcnt := 0, cacheValid := false, msg := s.dataIn, dir := d, dataOut := s.dataIn,
        drop := false, err := false, errcode := .noError, irqPend := true }) ∧
    (s.configured = true → s.dataIn.toNat ≤ s.actMaxmsg.toNat → s.actRounds ≠ 0 → exec i s =
      .next { s with
        hashcnt := 0, cacheValid := false, msg := s.dataIn, dir := d, drop := false,
        iround := (if d = .enc then 0 else s.actRounds.toNat - 1), fsm := .round })

/-- A basic ROUND step (R160, R192, R196): the new message from the parity of the keyed hash of the remainder, one hash call
counted, the next round or, after the last, the completion with the message in DATA_OUT. Nothing else changes. -/
def Obligations.BasicRoundStep : Prop :=
  ∀ s : State, Inv Config.machine s → FsmDoes s → s.fsm = .round → s.actV = false →
    let half := s.actMaxmsg.toNat / 2 + 1
    let r := if s.dir = .enc then s.msg.toNat % half else s.msg.toNat / 2
    let b := foldBit (hash Config.machine (keySlot Config.machine s s.iround) (le64 r) Config.machine.hashOutBasic)
    let last := if s.dir = .enc then s.iround = s.actRounds.toNat - 1 else s.iround = 0
    ∃ m : Word,
      m.toNat = (if s.dir = .enc then r * 2 + (s.msg.toNat / half ^^^ b.toNat)
        else r + (s.msg.toNat % 2 ^^^ b.toNat) * half) ∧
      (last → step s = .next { s with
        sched := s.sched.tail, msg := m, hashcnt := s.hashcnt + 1, dataOut := m, fsm := .idle,
        err := false, errcode := .noError, irqPend := true }) ∧
      (¬last → step s = .next { s with
        sched := s.sched.tail, msg := m, hashcnt := s.hashcnt + 1,
        iround := if s.dir = .enc then s.iround + 1 else s.iround - 1 })

/-- An optimized ROUND step (R166, R192, R196): the message from one bit of the wide hash of the super-round, taken from the
cache on a hit and called, counted and cached on a miss. Nothing else changes but the round or, at the last, the completion. -/
def Obligations.OptimizedRoundStep : Prop :=
  ∀ s : State, Inv Config.machine s → FsmDoes s → s.fsm = .round → s.actV = true →
    let half := s.actMaxmsg.toNat / 2 + 1
    let r := if s.dir = .enc then s.msg.toNat % half else s.msg.toNat / 2
    let a := amortIndex half s.actL.toNat r s.iround
    let hit := s.cacheValid = true ∧ s.cacheTag = a.superRound
    let last := if s.dir = .enc then s.iround = s.actRounds.toNat - 1 else s.iround = 0
    ∃ (m : Word) (line : List Byte) (calls : Word),
      (hit → line = s.cacheData ∧ calls = s.hashcnt) ∧
      (¬hit → line = hash Config.machine (keySlot Config.machine s a.superRound) (le64 a.hashInput) 64 ∧
        calls = s.hashcnt + 1) ∧
      m.toNat = (if s.dir = .enc then r * 2 + (s.msg.toNat / half ^^^ (bitOf line a.bitIndex).toNat)
        else r + (s.msg.toNat % 2 ^^^ (bitOf line a.bitIndex).toNat) * half) ∧
      (last → step s = .next { s with
        sched := s.sched.tail, msg := m, hashcnt := calls, cacheValid := true, cacheTag := a.superRound, cacheData := line,
        dataOut := m, fsm := .idle, err := false, errcode := .noError, irqPend := true }) ∧
      (¬last → step s = .next { s with
        sched := s.sched.tail, msg := m, hashcnt := calls, cacheValid := true, cacheTag := a.superRound, cacheData := line,
        iround := if s.dir = .enc then s.iround + 1 else s.iround - 1 })

/-- One round and its inverse (R198, R199): both keep the domain and undo each other, for every bit source that is a function
of the remainder and the round. -/
def Obligations.RoundsStayInTheDomainAndInvert : Prop :=
  ∀ (M m : Nat) (bit : Nat → Bool), M % 2 = 1 → m ≤ M →
    let half := M / 2 + 1
    let enc := fun x => encRoundWith half x (bit (x % half))
    let dec := fun x => decRoundWith half x (bit (x / 2))
    enc m ≤ M ∧ dec m ≤ M ∧ dec (enc m) = m ∧ enc (dec m) = m

/-- R198, R4: under one configuration ENC and DEC are inverse permutations of the domain [0, M]. -/
def Obligations.EncAndDecAreInversePermutations : Prop :=
  ∀ s : State, Inv Config.machine s → s.configured = true →
    (∀ x, x ≤ s.actMaxmsg.toNat →
      encOf Config.machine s x ≤ s.actMaxmsg.toNat ∧ decOf Config.machine s x ≤ s.actMaxmsg.toNat ∧
      decOf Config.machine s (encOf Config.machine s x) = x ∧ encOf Config.machine s (decOf Config.machine s x) = x) ∧
    ∀ x y, x ≤ s.actMaxmsg.toNat → y ≤ s.actMaxmsg.toNat → encOf Config.machine s x = encOf Config.machine s y → x = y

/-- R201: on the domain {0, 1} a round of either direction is the exclusive or with the round bit for remainder 0, so ENC and
DEC are the same exclusive or with the parity of those bits; and an optimized configuration of it has level 1. -/
def Obligations.TwoElementDomain : Prop :=
  ∀ s : State, s.actMaxmsg = 1 →
    (∀ m i, m ≤ 1 → encRound Config.machine s m i = m ^^^ (freshBit Config.machine s 0 i).toNat ∧
      decRound Config.machine s m i = m ^^^ (freshBit Config.machine s 0 i).toNat) ∧
    (∀ x, x ≤ 1 → encOf Config.machine s x = decOf Config.machine s x ∧
      encOf Config.machine s x =
        (x + ((List.range s.actRounds.toNat).filter fun i => freshBit Config.machine s 0 i).length) % 2) ∧
    (Inv Config.machine s → s.configured = true → s.actV = true → s.actL = 1)

/-- However host accesses interleave with the rounds (R72, R268), a running ENCRYPT or DECRYPT of x stays one of the same
result: a host's turn leaves its round, an FSM step does the next round or, at the last, completes with ENC(x) or DEC(x) in
DATA_OUT, no error, and exactly the hash calls of R169 counted. -/
def Obligations.RunningCommandKeepsItsResult : Prop :=
  ∀ (s t : State) (x : Nat), Inv Config.machine s → x ≤ s.actMaxmsg.toNat → Running Config.machine s x →
    nextTurn s ≠ .rst → step s = .next t →
      t.dir = s.dir ∧ SameConfig s t ∧ SameKeymem Config.machine s t ∧
      resultOf Config.machine t s.dir x = resultOf Config.machine s s.dir x ∧
      (nextTurn s = .host → Running Config.machine t x ∧ t.iround = s.iround ∧ t.dataOut = s.dataOut) ∧
      (nextTurn s = .fsm → roundsDone s + 1 < s.actRounds.toNat →
        Running Config.machine t x ∧ roundsDone t = roundsDone s + 1 ∧ t.dataOut = s.dataOut) ∧
      (nextTurn s = .fsm → roundsDone s + 1 = s.actRounds.toNat →
        t.fsm = .idle ∧ t.dataOut.toNat = resultOf Config.machine s s.dir x ∧ t.err = false ∧ t.errcode = .noError ∧
          t.irqPend = true ∧ t.hashcnt.toNat = hashCalls s)

/-- R193, R197, R200, R280: from any configured idle state, the CMD write of ENCRYPT or DECRYPT and exactly R FSM steps
complete the command, whatever the message, with its result in DATA_OUT. Nothing is scheduled, so the FSM moves while it can
(log 6, the model's choice), and the write is placed by `withFetchWord` (log 9, the model's choice). -/
def Obligations.CommandRunsToItsResult : Prop :=
  ∀ (s : State) (d : Dir), Inv Config.machine s → s.fsm = .idle → s.configured = true →
    s.dataIn.toNat ≤ s.actMaxmsg.toNat → s.sched = [] →
      ∃ t, runSteps (1 + s.actRounds.toNat)
          (s.withFetchWord 64 (match d with | .enc => 3 | .dec => 4)) = .next t ∧
        t.fsm = .idle ∧ t.err = false ∧ t.irqPend = true ∧ t.dataOut.toNat = resultOf Config.machine s d s.dataIn.toNat ∧
        t.hashcnt.toNat = hashCalls s ∧ SameConfig s t ∧ SameOperands s t ∧ SameKeymem Config.machine s t ∧
        t.host = s.host ∧
        ∀ k, 0 < k → k ≤ s.actRounds.toNat → ∃ u, runSteps k
          (s.withFetchWord 64 (match d with | .enc => 3 | .dec => 4)) = .next u ∧ u.fsm = .round ∧ u.dataOut = s.dataOut

/-- The block's purpose: encrypt a message, write the result back as the input, decrypt, and the message returns. Schedule and
placement as in the statement above (log 6 and 9, the model's choices). -/
def Obligations.EncryptThenDecryptReturnsTheMessage : Prop :=
  ∀ s : State, Inv Config.machine s → s.fsm = .idle → s.configured = true →
    s.dataIn.toNat ≤ s.actMaxmsg.toNat → s.sched = [] →
      ∃ t u, runSteps (1 + s.actRounds.toNat) (s.withFetchWord 64 3) = .next t ∧
        runSteps (1 + s.actRounds.toNat) (({ t with dataIn := t.dataOut } : State).withFetchWord 64 4)
          = .next u ∧
        u.dataOut = s.dataIn ∧ u.err = false

/-! ## The whole machine -/

/-- The reset state satisfies the invariant. -/
def Obligations.InvHoldsAtReset : Prop := Inv Config.machine State.reset

/-- Every step from a state with the invariant keeps it. -/
def Obligations.StepKeepsInv : Prop :=
  ∀ s t : State, Inv Config.machine s → step s = .next t → Inv Config.machine t

/-- From a state with the invariant nothing stops a step but a host access with an ERROR response (log 8), and nothing is
refused. -/
def Obligations.OnlyBusErrorsStop : Prop :=
  ∀ s : State, Inv Config.machine s →
    (∃ t, step s = .next t) ∨
    ∃ w o v rest, (HostDoes s (.read w o) rest ∨ HostDoes s (.write w o v) rest) ∧ step s = .fault (.busError o) ∧
      (w ≠ 64 ∨ o % 8 ≠ 0 ∨ 0x1000 + Config.machine.keymemBytes ≤ o)

/-- DATA_OUT changes only at a successful completion of ENCRYPT, DECRYPT or RPP, and at reset (R35). -/
def Obligations.DataOutChangesOnlyBy : Prop :=
  ∀ s t : State, step s = .next t → t.dataOut ≠ s.dataOut →
    nextTurn s = .rst ∨
    (t.fsm = .idle ∧ t.err = false ∧ t.errcode = .noError ∧ t.irqPend = true ∧
      ((FsmDoes s ∧ s.fsm = .round) ∨ ∃ i, Issues s i ∧ (i = .enc ∨ i = .dec ∨ i = .rpp)))

/-- HASHCNT changes only by a checked ENCRYPT or DECRYPT issue, which clears it, by a ROUND step, which adds at most 1, and by
reset (R41). -/
def Obligations.HashcntChangesOnlyBy : Prop :=
  ∀ s t : State, step s = .next t → t.hashcnt ≠ s.hashcnt →
    (nextTurn s = .rst ∧ t.hashcnt = 0) ∨ (FsmDoes s ∧ s.fsm = .round ∧ t.hashcnt = s.hashcnt + 1) ∨
    ∃ i, Issues s i ∧ (i = .enc ∨ i = .dec) ∧ s.configured = true ∧ s.dataIn.toNat ≤ s.actMaxmsg.toNat ∧ t.hashcnt = 0

/-- R222: errors arise only at issue. ERR is 1 after a step only where it was 1 with the same code, or where the step was a
CMD write of an idle block; an FSM step raises no error, and a command that reached BUSY = 1 completes with ERR = 0. -/
def Obligations.ErrorsOnlyAtIssue : Prop :=
  ∀ s t : State, step s = .next t →
    (t.err = true → (s.err = true ∧ t.errcode = s.errcode) ∨
      s.fsm = .idle ∧ ∃ c rest, HostDoes s (.write 64 0 c) rest) ∧
    (s.fsm ≠ .idle → nextTurn s ≠ .rst → t.fsm = .idle → t.err = false ∧ t.errcode = .noError) ∧
    (FsmDoes s → s.fsm ≠ .idle → t.err = true → s.err = true ∧ t.fsm ≠ .idle) ∧
    (s.fsm ≠ .idle → t.fsm ≠ .idle → t.err = s.err ∧ t.errcode = s.errcode)

/-- What no command's issue changes: the operand registers, every KEYMEM byte, IRQ_EN and the environment; and RPP, CONFIG
and UNCONFIG leave the engine and the latch, CONFIG_KEY the engine, ENCRYPT and DECRYPT the configuration and the latch. -/
def Obligations.IssueFrame : Prop :=
  ∀ (i : Instr) (s t : State), exec i s = .next t →
    SameOperands s t ∧ SameKeymem Config.machine s t ∧ SameOutside s t ∧
    (i ≠ .enc → i ≠ .dec → SameEngine s t) ∧ (i ≠ .ckey → i ≠ .ckeyO → SameLatch s t) ∧
    (i = .enc ∨ i = .dec ∨ i = .rpp → SameConfig s t) ∧
    (i ≠ .enc → i ≠ .dec → i ≠ .rpp → t.dataOut = s.dataOut)

/-- R268: a running command has read its operands. Whatever MAXMSG, ROUNDS, KEYNUM and DATA_IN hold while BUSY, an FSM step
does the same. -/
def Obligations.OperandsAreReadAtIssueOnly : Prop :=
  ∀ (s : State) (m r k x : Word), FsmDoes s → s.fsm ≠ .idle →
    step { s with maxmsg := m, rounds := r, keynum := k, dataIn := x } =
      mapNext (fun t => { t with maxmsg := m, rounds := r, keynum := k, dataIn := x }) (step s)

/-- The reset values the spec leaves open never matter (R48, R50 to R52): two states that differ only in elements that are to
be written before they are read step alike, and still differ only so. -/
def Obligations.UnspecifiedValuesAreNeverRead : Prop :=
  ∀ s t : State, live s = live t → mapNext live (step s) = mapNext live (step t)

/-- A reset (R54, R260, R261): every register its reset value, any command abandoned, KEYMEM a new draw, byte by byte the
free value of that draw; the environment goes on (log 13, the model's choice). -/
def Obligations.ResetEvent : Prop :=
  ∀ s : State, nextTurn s = .rst →
    ∃ t, step s = .next t ∧ statusWord t = 0 ∧ dbgWord t = 0 ∧ t.fsm = .idle ∧ t.iround = 0 ∧ t.cacheValid = false ∧
      t.maxmsg = 0 ∧ t.rounds = 0 ∧ t.keylen = 0 ∧ t.keynum = 0 ∧ t.dataIn = 0 ∧ t.dataOut = 0 ∧ t.actMaxmsg = 0 ∧
      t.actRounds = 0 ∧ actCfgWord t = 0 ∧ t.irqEn = false ∧ t.irqPend = false ∧ irq t = false ∧ t.hashcnt = 0 ∧
      (∀ a, keyByte Config.machine t a = Config.keymemDraw (s.resets + 1) a) ∧
      t.host = s.host ∧ t.sched = s.sched.tail ∧ t.resp = s.resp

/-- R264: what each command does straight after reset. -/
def Obligations.CommandsStraightAfterReset : Prop :=
  (∃ t, exec .rpp State.reset = .next t ∧ t.dataOut = 0 ∧ t.err = false) ∧
  (∃ t, exec .unconfig State.reset = .next t ∧ t = { State.reset with irqPend := true }) ∧
  (∀ i, i = .enc ∨ i = .dec → ∃ t, exec i State.reset = .next t ∧ t.errcode = .notConfigured ∧ t.err = true) ∧
  (∀ i, (i = .config ∨ i = .ckey ∨ i = .ckeyO ∨ ∃ l, i = .configO l) →
    ∃ t, exec i State.reset = .next t ∧ t.errcode = .domainEven ∧ t.err = true ∧ t.configured = false)

/-! ## Bytes and the platform -/

/-- The byte layouts the bit sources are made of: slot i is KEYMEM bytes i · KEY_SLOT_BYTES and on (R45), LE64 is 8 bytes, the
least significant first (R68), the ports answer exactly the bytes of the oracles (R75, R76), which at the machine are the
free values of log 2, and bit j of an output is bit j mod 8 of byte j div 8 (R69). -/
def Obligations.SlotsAndOraclePortsByteByByte : Prop :=
  (∀ (P : Params) (s : State) (i : Nat), (keySlot P s i).length = P.keySlotBytes ∧
    ∀ j, j < P.keySlotBytes → (keySlot P s i)[j]? = some (keyByte P s (i * P.keySlotBytes + j))) ∧
  (∀ v : Nat, v < 2 ^ 64 → (le64 v).length = 8 ∧
    ∀ j, j < 8 → ∃ b : Byte, (le64 v)[j]? = some b ∧ b.toNat = v / 2 ^ (8 * j) % 256) ∧
  (∀ (P : Params) (key msg : List Byte) (n : Nat), (hash P key msg n).length = n ∧
    ∀ j, j < n → (hash P key msg n)[j]? = some (P.hashByte key msg n j)) ∧
  (∀ (P : Params) (seed : List Byte) (n : Nat), (expand P seed n).length = n ∧
    ∀ j, j < n → (expand P seed n)[j]? = some (P.expandByte seed n j)) ∧
  Config.machine.hashByte = Config.hashByte ∧ Config.machine.expandByte = Config.expandByte ∧
  ∀ (h : List Byte) (j : Nat) (b : Byte), h[j / 8]? = some b → bitOf h j = b.getLsbD (j % 8)

/-- The model's inference from R70, R230, D5 and D26 (log 15, DEDUCED), which only name TSF_BASE and TSF_IRQ_LINE and leave
them open: the window stands at TSF_BASE, so a system address has an offset in it exactly from TSF_BASE up to the window's size,
with no wrap; a host access of such an address is an access of its offset; and the interrupt output, which is R230's, drives
line TSF_IRQ_LINE of the platform and no other. -/
def Obligations.WindowStandsAtTheBase : Prop :=
  (∀ (P : Params) (a o : Nat), windowOffset P a = some o ↔ a = P.tsfBase + o ∧ o < 0x1000 + P.keymemBytes) ∧
  (∀ (s : State) (rest : List HostLine) (l : HostLine) (o : Nat),
    HostProgram.readAt Config.machine 64 (Config.machine.tsfBase + o) = some l → HostDoes s l rest → o % 8 = 0 →
      ∃ v, busRead Config.machine 64 o s = some v ∧ step s = .next (afterLine s rest (.data v))) ∧
  (∀ (s : State) (rest : List HostLine) (l : HostLine) (o : Nat) (x : Word),
    HostProgram.writeAt Config.machine 64 (Config.machine.tsfBase + o) x = some l → HostDoes s l rest →
      step s = busWrite Config.machine exec 64 o x (afterLine s rest .done)) ∧
  ∀ (P : Params) (s : State) (n : Nat),
    irqOnLine P s n = true ↔ n = P.tsfIrqLine ∧ s.irqEn = true ∧ s.irqPend = true
end

