-- ==== Sys2Proof/Laws/State.lean ====
section
/-! SUPPORT. One lemma per field per update of State, each true by rfl and a simp lemma, so that no later proof unfolds
a record update; and what each update leaves of the values computed from the state. -/

namespace Sys2Proof.Machine.State

/-! ## `raiseError`: error completion -/

@[simp] theorem raiseError_configured (c : ErrCode) (s : State) : (s.raiseError c).configured = s.configured := rfl
@[simp] theorem raiseError_err (c : ErrCode) (s : State) : (s.raiseError c).err = true := rfl
@[simp] theorem raiseError_drop (c : ErrCode) (s : State) : (s.raiseError c).drop = s.drop := rfl
@[simp] theorem raiseError_errcode (c : ErrCode) (s : State) : (s.raiseError c).errcode = c := rfl
@[simp] theorem raiseError_maxmsg (c : ErrCode) (s : State) : (s.raiseError c).maxmsg = s.maxmsg := rfl
@[simp] theorem raiseError_rounds (c : ErrCode) (s : State) : (s.raiseError c).rounds = s.rounds := rfl
@[simp] theorem raiseError_keylen (c : ErrCode) (s : State) : (s.raiseError c).keylen = s.keylen := rfl
@[simp] theorem raiseError_keynum (c : ErrCode) (s : State) : (s.raiseError c).keynum = s.keynum := rfl
@[simp] theorem raiseError_dataIn (c : ErrCode) (s : State) : (s.raiseError c).dataIn = s.dataIn := rfl
@[simp] theorem raiseError_dataOut (c : ErrCode) (s : State) : (s.raiseError c).dataOut = s.dataOut := rfl
@[simp] theorem raiseError_actMaxmsg (c : ErrCode) (s : State) : (s.raiseError c).actMaxmsg = s.actMaxmsg := rfl
@[simp] theorem raiseError_actRounds (c : ErrCode) (s : State) : (s.raiseError c).actRounds = s.actRounds := rfl
@[simp] theorem raiseError_actV (c : ErrCode) (s : State) : (s.raiseError c).actV = s.actV := rfl
@[simp] theorem raiseError_actL (c : ErrCode) (s : State) : (s.raiseError c).actL = s.actL := rfl
@[simp] theorem raiseError_irqEn (c : ErrCode) (s : State) : (s.raiseError c).irqEn = s.irqEn := rfl
@[simp] theorem raiseError_irqPend (c : ErrCode) (s : State) : (s.raiseError c).irqPend = true := rfl
@[simp] theorem raiseError_hashcnt (c : ErrCode) (s : State) : (s.raiseError c).hashcnt = s.hashcnt := rfl
@[simp] theorem raiseError_keymem (c : ErrCode) (s : State) : (s.raiseError c).keymem = s.keymem := rfl
@[simp] theorem raiseError_fsm (c : ErrCode) (s : State) : (s.raiseError c).fsm = .idle := rfl
@[simp] theorem raiseError_dir (c : ErrCode) (s : State) : (s.raiseError c).dir = s.dir := rfl
@[simp] theorem raiseError_iround (c : ErrCode) (s : State) : (s.raiseError c).iround = s.iround := rfl
@[simp] theorem raiseError_msg (c : ErrCode) (s : State) : (s.raiseError c).msg = s.msg := rfl
@[simp] theorem raiseError_kgM (c : ErrCode) (s : State) : (s.raiseError c).kgM = s.kgM := rfl
@[simp] theorem raiseError_kgR (c : ErrCode) (s : State) : (s.raiseError c).kgR = s.kgR := rfl
@[simp] theorem raiseError_kgV (c : ErrCode) (s : State) : (s.raiseError c).kgV = s.kgV := rfl
@[simp] theorem raiseError_kgL (c : ErrCode) (s : State) : (s.raiseError c).kgL = s.kgL := rfl
@[simp] theorem raiseError_kgKey (c : ErrCode) (s : State) : (s.raiseError c).kgKey = s.kgKey := rfl
@[simp] theorem raiseError_cacheValid (c : ErrCode) (s : State) : (s.raiseError c).cacheValid = s.cacheValid := rfl
@[simp] theorem raiseError_cacheTag (c : ErrCode) (s : State) : (s.raiseError c).cacheTag = s.cacheTag := rfl
@[simp] theorem raiseError_cacheData (c : ErrCode) (s : State) : (s.raiseError c).cacheData = s.cacheData := rfl
@[simp] theorem raiseError_resets (c : ErrCode) (s : State) : (s.raiseError c).resets = s.resets := rfl
@[simp] theorem raiseError_host (c : ErrCode) (s : State) : (s.raiseError c).host = s.host := rfl
@[simp] theorem raiseError_sched (c : ErrCode) (s : State) : (s.raiseError c).sched = s.sched := rfl
@[simp] theorem raiseError_resp (c : ErrCode) (s : State) : (s.raiseError c).resp = s.resp := rfl
@[simp] theorem raiseError_keyByte (P : Params) (c : ErrCode) (s : State) : keyByte P (s.raiseError c) = keyByte P s := rfl
@[simp] theorem raiseError_half (c : ErrCode) (s : State) : (s.raiseError c).half = s.half := rfl

/-! ## `complete`: normal completion -/

@[simp] theorem complete_configured (s : State) : (s.complete).configured = s.configured := rfl
@[simp] theorem complete_err (s : State) : (s.complete).err = false := rfl
@[simp] theorem complete_drop (s : State) : (s.complete).drop = s.drop := rfl
@[simp] theorem complete_errcode (s : State) : (s.complete).errcode = .noError := rfl
@[simp] theorem complete_maxmsg (s : State) : (s.complete).maxmsg = s.maxmsg := rfl
@[simp] theorem complete_rounds (s : State) : (s.complete).rounds = s.rounds := rfl
@[simp] theorem complete_keylen (s : State) : (s.complete).keylen = s.keylen := rfl
@[simp] theorem complete_keynum (s : State) : (s.complete).keynum = s.keynum := rfl
@[simp] theorem complete_dataIn (s : State) : (s.complete).dataIn = s.dataIn := rfl
@[simp] theorem complete_dataOut (s : State) : (s.complete).dataOut = s.dataOut := rfl
@[simp] theorem complete_actMaxmsg (s : State) : (s.complete).actMaxmsg = s.actMaxmsg := rfl
@[simp] theorem complete_actRounds (s : State) : (s.complete).actRounds = s.actRounds := rfl
@[simp] theorem complete_actV (s : State) : (s.complete).actV = s.actV := rfl
@[simp] theorem complete_actL (s : State) : (s.complete).actL = s.actL := rfl
@[simp] theorem complete_irqEn (s : State) : (s.complete).irqEn = s.irqEn := rfl
@[simp] theorem complete_irqPend (s : State) : (s.complete).irqPend = true := rfl
@[simp] theorem complete_hashcnt (s : State) : (s.complete).hashcnt = s.hashcnt := rfl
@[simp] theorem complete_keymem (s : State) : (s.complete).keymem = s.keymem := rfl
@[simp] theorem complete_fsm (s : State) : (s.complete).fsm = .idle := rfl
@[simp] theorem complete_dir (s : State) : (s.complete).dir = s.dir := rfl
@[simp] theorem complete_iround (s : State) : (s.complete).iround = s.iround := rfl
@[simp] theorem complete_msg (s : State) : (s.complete).msg = s.msg := rfl
@[simp] theorem complete_kgM (s : State) : (s.complete).kgM = s.kgM := rfl
@[simp] theorem complete_kgR (s : State) : (s.complete).kgR = s.kgR := rfl
@[simp] theorem complete_kgV (s : State) : (s.complete).kgV = s.kgV := rfl
@[simp] theorem complete_kgL (s : State) : (s.complete).kgL = s.kgL := rfl
@[simp] theorem complete_kgKey (s : State) : (s.complete).kgKey = s.kgKey := rfl
@[simp] theorem complete_cacheValid (s : State) : (s.complete).cacheValid = s.cacheValid := rfl
@[simp] theorem complete_cacheTag (s : State) : (s.complete).cacheTag = s.cacheTag := rfl
@[simp] theorem complete_cacheData (s : State) : (s.complete).cacheData = s.cacheData := rfl
@[simp] theorem complete_resets (s : State) : (s.complete).resets = s.resets := rfl
@[simp] theorem complete_host (s : State) : (s.complete).host = s.host := rfl
@[simp] theorem complete_sched (s : State) : (s.complete).sched = s.sched := rfl
@[simp] theorem complete_resp (s : State) : (s.complete).resp = s.resp := rfl
@[simp] theorem complete_keyByte (P : Params) (s : State) : keyByte P (s.complete) = keyByte P s := rfl
@[simp] theorem complete_half (s : State) : (s.complete).half = s.half := rfl

/-! ## `completeWith`: normal completion with a result -/

@[simp] theorem completeWith_configured (w : Word) (s : State) : (s.completeWith w).configured = s.configured := rfl
@[simp] theorem completeWith_err (w : Word) (s : State) : (s.completeWith w).err = false := rfl
@[simp] theorem completeWith_drop (w : Word) (s : State) : (s.completeWith w).drop = s.drop := rfl
@[simp] theorem completeWith_errcode (w : Word) (s : State) : (s.completeWith w).errcode = .noError := rfl
@[simp] theorem completeWith_maxmsg (w : Word) (s : State) : (s.completeWith w).maxmsg = s.maxmsg := rfl
@[simp] theorem completeWith_rounds (w : Word) (s : State) : (s.completeWith w).rounds = s.rounds := rfl
@[simp] theorem completeWith_keylen (w : Word) (s : State) : (s.completeWith w).keylen = s.keylen := rfl
@[simp] theorem completeWith_keynum (w : Word) (s : State) : (s.completeWith w).keynum = s.keynum := rfl
@[simp] theorem completeWith_dataIn (w : Word) (s : State) : (s.completeWith w).dataIn = s.dataIn := rfl
@[simp] theorem completeWith_dataOut (w : Word) (s : State) : (s.completeWith w).dataOut = w := rfl
@[simp] theorem completeWith_actMaxmsg (w : Word) (s : State) : (s.completeWith w).actMaxmsg = s.actMaxmsg := rfl
@[simp] theorem completeWith_actRounds (w : Word) (s : State) : (s.completeWith w).actRounds = s.actRounds := rfl
@[simp] theorem completeWith_actV (w : Word) (s : State) : (s.completeWith w).actV = s.actV := rfl
@[simp] theorem completeWith_actL (w : Word) (s : State) : (s.completeWith w).actL = s.actL := rfl
@[simp] theorem completeWith_irqEn (w : Word) (s : State) : (s.completeWith w).irqEn = s.irqEn := rfl
@[simp] theorem completeWith_irqPend (w : Word) (s : State) : (s.completeWith w).irqPend = true := rfl
@[simp] theorem completeWith_hashcnt (w : Word) (s : State) : (s.completeWith w).hashcnt = s.hashcnt := rfl
@[simp] theorem completeWith_keymem (w : Word) (s : State) : (s.completeWith w).keymem = s.keymem := rfl
@[simp] theorem completeWith_fsm (w : Word) (s : State) : (s.completeWith w).fsm = .idle := rfl
@[simp] theorem completeWith_dir (w : Word) (s : State) : (s.completeWith w).dir = s.dir := rfl
@[simp] theorem completeWith_iround (w : Word) (s : State) : (s.completeWith w).iround = s.iround := rfl
@[simp] theorem completeWith_msg (w : Word) (s : State) : (s.completeWith w).msg = s.msg := rfl
@[simp] theorem completeWith_kgM (w : Word) (s : State) : (s.completeWith w).kgM = s.kgM := rfl
@[simp] theorem completeWith_kgR (w : Word) (s : State) : (s.completeWith w).kgR = s.kgR := rfl
@[simp] theorem completeWith_kgV (w : Word) (s : State) : (s.completeWith w).kgV = s.kgV := rfl
@[simp] theorem completeWith_kgL (w : Word) (s : State) : (s.completeWith w).kgL = s.kgL := rfl
@[simp] theorem completeWith_kgKey (w : Word) (s : State) : (s.completeWith w).kgKey = s.kgKey := rfl
@[simp] theorem completeWith_cacheValid (w : Word) (s : State) : (s.completeWith w).cacheValid = s.cacheValid := rfl
@[simp] theorem completeWith_cacheTag (w : Word) (s : State) : (s.completeWith w).cacheTag = s.cacheTag := rfl
@[simp] theorem completeWith_cacheData (w : Word) (s : State) : (s.completeWith w).cacheData = s.cacheData := rfl
@[simp] theorem completeWith_resets (w : Word) (s : State) : (s.completeWith w).resets = s.resets := rfl
@[simp] theorem completeWith_host (w : Word) (s : State) : (s.completeWith w).host = s.host := rfl
@[simp] theorem completeWith_sched (w : Word) (s : State) : (s.completeWith w).sched = s.sched := rfl
@[simp] theorem completeWith_resp (w : Word) (s : State) : (s.completeWith w).resp = s.resp := rfl
@[simp] theorem completeWith_keyByte (P : Params) (w : Word) (s : State) : keyByte P (s.completeWith w) = keyByte P s := rfl
@[simp] theorem completeWith_half (w : Word) (s : State) : (s.completeWith w).half = s.half := rfl

/-! ## `setDrop`: STATUS.DROP -/

@[simp] theorem setDrop_configured (b : Bool) (s : State) : (s.setDrop b).configured = s.configured := rfl
@[simp] theorem setDrop_err (b : Bool) (s : State) : (s.setDrop b).err = s.err := rfl
@[simp] theorem setDrop_drop (b : Bool) (s : State) : (s.setDrop b).drop = b := rfl
@[simp] theorem setDrop_errcode (b : Bool) (s : State) : (s.setDrop b).errcode = s.errcode := rfl
@[simp] theorem setDrop_maxmsg (b : Bool) (s : State) : (s.setDrop b).maxmsg = s.maxmsg := rfl
@[simp] theorem setDrop_rounds (b : Bool) (s : State) : (s.setDrop b).rounds = s.rounds := rfl
@[simp] theorem setDrop_keylen (b : Bool) (s : State) : (s.setDrop b).keylen = s.keylen := rfl
@[simp] theorem setDrop_keynum (b : Bool) (s : State) : (s.setDrop b).keynum = s.keynum := rfl
@[simp] theorem setDrop_dataIn (b : Bool) (s : State) : (s.setDrop b).dataIn = s.dataIn := rfl
@[simp] theorem setDrop_dataOut (b : Bool) (s : State) : (s.setDrop b).dataOut = s.dataOut := rfl
@[simp] theorem setDrop_actMaxmsg (b : Bool) (s : State) : (s.setDrop b).actMaxmsg = s.actMaxmsg := rfl
@[simp] theorem setDrop_actRounds (b : Bool) (s : State) : (s.setDrop b).actRounds = s.actRounds := rfl
@[simp] theorem setDrop_actV (b : Bool) (s : State) : (s.setDrop b).actV = s.actV := rfl
@[simp] theorem setDrop_actL (b : Bool) (s : State) : (s.setDrop b).actL = s.actL := rfl
@[simp] theorem setDrop_irqEn (b : Bool) (s : State) : (s.setDrop b).irqEn = s.irqEn := rfl
@[simp] theorem setDrop_irqPend (b : Bool) (s : State) : (s.setDrop b).irqPend = s.irqPend := rfl
@[simp] theorem setDrop_hashcnt (b : Bool) (s : State) : (s.setDrop b).hashcnt = s.hashcnt := rfl
@[simp] theorem setDrop_keymem (b : Bool) (s : State) : (s.setDrop b).keymem = s.keymem := rfl
@[simp] theorem setDrop_fsm (b : Bool) (s : State) : (s.setDrop b).fsm = s.fsm := rfl
@[simp] theorem setDrop_dir (b : Bool) (s : State) : (s.setDrop b).dir = s.dir := rfl
@[simp] theorem setDrop_iround (b : Bool) (s : State) : (s.setDrop b).iround = s.iround := rfl
@[simp] theorem setDrop_msg (b : Bool) (s : State) : (s.setDrop b).msg = s.msg := rfl
@[simp] theorem setDrop_kgM (b : Bool) (s : State) : (s.setDrop b).kgM = s.kgM := rfl
@[simp] theorem setDrop_kgR (b : Bool) (s : State) : (s.setDrop b).kgR = s.kgR := rfl
@[simp] theorem setDrop_kgV (b : Bool) (s : State) : (s.setDrop b).kgV = s.kgV := rfl
@[simp] theorem setDrop_kgL (b : Bool) (s : State) : (s.setDrop b).kgL = s.kgL := rfl
@[simp] theorem setDrop_kgKey (b : Bool) (s : State) : (s.setDrop b).kgKey = s.kgKey := rfl
@[simp] theorem setDrop_cacheValid (b : Bool) (s : State) : (s.setDrop b).cacheValid = s.cacheValid := rfl
@[simp] theorem setDrop_cacheTag (b : Bool) (s : State) : (s.setDrop b).cacheTag = s.cacheTag := rfl
@[simp] theorem setDrop_cacheData (b : Bool) (s : State) : (s.setDrop b).cacheData = s.cacheData := rfl
@[simp] theorem setDrop_resets (b : Bool) (s : State) : (s.setDrop b).resets = s.resets := rfl
@[simp] theorem setDrop_host (b : Bool) (s : State) : (s.setDrop b).host = s.host := rfl
@[simp] theorem setDrop_sched (b : Bool) (s : State) : (s.setDrop b).sched = s.sched := rfl
@[simp] theorem setDrop_resp (b : Bool) (s : State) : (s.setDrop b).resp = s.resp := rfl
@[simp] theorem setDrop_keyByte (P : Params) (b : Bool) (s : State) : keyByte P (s.setDrop b) = keyByte P s := rfl
@[simp] theorem setDrop_half (b : Bool) (s : State) : (s.setDrop b).half = s.half := rfl
@[simp] theorem setDrop_busy (b : Bool) (s : State) : (s.setDrop b).busy = s.busy := rfl

/-! ## `clearConfig`: the configuration discarded -/

@[simp] theorem clearConfig_configured (s : State) : (s.clearConfig).configured = false := rfl
@[simp] theorem clearConfig_err (s : State) : (s.clearConfig).err = s.err := rfl
@[simp] theorem clearConfig_drop (s : State) : (s.clearConfig).drop = s.drop := rfl
@[simp] theorem clearConfig_errcode (s : State) : (s.clearConfig).errcode = s.errcode := rfl
@[simp] theorem clearConfig_maxmsg (s : State) : (s.clearConfig).maxmsg = s.maxmsg := rfl
@[simp] theorem clearConfig_rounds (s : State) : (s.clearConfig).rounds = s.rounds := rfl
@[simp] theorem clearConfig_keylen (s : State) : (s.clearConfig).keylen = s.keylen := rfl
@[simp] theorem clearConfig_keynum (s : State) : (s.clearConfig).keynum = s.keynum := rfl
@[simp] theorem clearConfig_dataIn (s : State) : (s.clearConfig).dataIn = s.dataIn := rfl
@[simp] theorem clearConfig_dataOut (s : State) : (s.clearConfig).dataOut = s.dataOut := rfl
@[simp] theorem clearConfig_actMaxmsg (s : State) : (s.clearConfig).actMaxmsg = 0 := rfl
@[simp] theorem clearConfig_actRounds (s : State) : (s.clearConfig).actRounds = 0 := rfl
@[simp] theorem clearConfig_actV (s : State) : (s.clearConfig).actV = false := rfl
@[simp] theorem clearConfig_actL (s : State) : (s.clearConfig).actL = 0 := rfl
@[simp] theorem clearConfig_irqEn (s : State) : (s.clearConfig).irqEn = s.irqEn := rfl
@[simp] theorem clearConfig_irqPend (s : State) : (s.clearConfig).irqPend = s.irqPend := rfl
@[simp] theorem clearConfig_hashcnt (s : State) : (s.clearConfig).hashcnt = s.hashcnt := rfl
@[simp] theorem clearConfig_keymem (s : State) : (s.clearConfig).keymem = s.keymem := rfl
@[simp] theorem clearConfig_fsm (s : State) : (s.clearConfig).fsm = s.fsm := rfl
@[simp] theorem clearConfig_dir (s : State) : (s.clearConfig).dir = s.dir := rfl
@[simp] theorem clearConfig_iround (s : State) : (s.clearConfig).iround = s.iround := rfl
@[simp] theorem clearConfig_msg (s : State) : (s.clearConfig).msg = s.msg := rfl
@[simp] theorem clearConfig_kgM (s : State) : (s.clearConfig).kgM = s.kgM := rfl
@[simp] theorem clearConfig_kgR (s : State) : (s.clearConfig).kgR = s.kgR := rfl
@[simp] theorem clearConfig_kgV (s : State) : (s.clearConfig).kgV = s.kgV := rfl
@[simp] theorem clearConfig_kgL (s : State) : (s.clearConfig).kgL = s.kgL := rfl
@[simp] theorem clearConfig_kgKey (s : State) : (s.clearConfig).kgKey = s.kgKey := rfl
@[simp] theorem clearConfig_cacheValid (s : State) : (s.clearConfig).cacheValid = s.cacheValid := rfl
@[simp] theorem clearConfig_cacheTag (s : State) : (s.clearConfig).cacheTag = s.cacheTag := rfl
@[simp] theorem clearConfig_cacheData (s : State) : (s.clearConfig).cacheData = s.cacheData := rfl
@[simp] theorem clearConfig_resets (s : State) : (s.clearConfig).resets = s.resets := rfl
@[simp] theorem clearConfig_host (s : State) : (s.clearConfig).host = s.host := rfl
@[simp] theorem clearConfig_sched (s : State) : (s.clearConfig).sched = s.sched := rfl
@[simp] theorem clearConfig_resp (s : State) : (s.clearConfig).resp = s.resp := rfl
@[simp] theorem clearConfig_keyByte (P : Params) (s : State) : keyByte P (s.clearConfig) = keyByte P s := rfl
@[simp] theorem clearConfig_busy (s : State) : (s.clearConfig).busy = s.busy := rfl

/-! ## `activate`: a configuration made active -/

@[simp] theorem activate_configured (m r : Word) (v : Bool) (l : BitVec 4) (s : State) : (s.activate m r v l).configured = true := rfl
@[simp] theorem activate_err (m r : Word) (v : Bool) (l : BitVec 4) (s : State) : (s.activate m r v l).err = s.err := rfl
@[simp] theorem activate_drop (m r : Word) (v : Bool) (l : BitVec 4) (s : State) : (s.activate m r v l).drop = s.drop := rfl
@[simp] theorem activate_errcode (m r : Word) (v : Bool) (l : BitVec 4) (s : State) : (s.activate m r v l).errcode = s.errcode := rfl
@[simp] theorem activate_maxmsg (m r : Word) (v : Bool) (l : BitVec 4) (s : State) : (s.activate m r v l).maxmsg = s.maxmsg := rfl
@[simp] theorem activate_rounds (m r : Word) (v : Bool) (l : BitVec 4) (s : State) : (s.activate m r v l).rounds = s.rounds := rfl
@[simp] theorem activate_keylen (m r : Word) (v : Bool) (l : BitVec 4) (s : State) : (s.activate m r v l).keylen = s.keylen := rfl
@[simp] theorem activate_keynum (m r : Word) (v : Bool) (l : BitVec 4) (s : State) : (s.activate m r v l).keynum = s.keynum := rfl
@[simp] theorem activate_dataIn (m r : Word) (v : Bool) (l : BitVec 4) (s : State) : (s.activate m r v l).dataIn = s.dataIn := rfl
@[simp] theorem activate_dataOut (m r : Word) (v : Bool) (l : BitVec 4) (s : State) : (s.activate m r v l).dataOut = s.dataOut := rfl
@[simp] theorem activate_actMaxmsg (m r : Word) (v : Bool) (l : BitVec 4) (s : State) : (s.activate m r v l).actMaxmsg = m := rfl
@[simp] theorem activate_actRounds (m r : Word) (v : Bool) (l : BitVec 4) (s : State) : (s.activate m r v l).actRounds = r := rfl
@[simp] theorem activate_actV (m r : Word) (v : Bool) (l : BitVec 4) (s : State) : (s.activate m r v l).actV = v := rfl
@[simp] theorem activate_actL (m r : Word) (v : Bool) (l : BitVec 4) (s : State) : (s.activate m r v l).actL = l := rfl
@[simp] theorem activate_irqEn (m r : Word) (v : Bool) (l : BitVec 4) (s : State) : (s.activate m r v l).irqEn = s.irqEn := rfl
@[simp] theorem activate_irqPend (m r : Word) (v : Bool) (l : BitVec 4) (s : State) : (s.activate m r v l).irqPend = s.irqPend := rfl
@[simp] theorem activate_hashcnt (m r : Word) (v : Bool) (l : BitVec 4) (s : State) : (s.activate m r v l).hashcnt = s.hashcnt := rfl
@[simp] theorem activate_keymem (m r : Word) (v : Bool) (l : BitVec 4) (s : State) : (s.activate m r v l).keymem = s.keymem := rfl
@[simp] theorem activate_fsm (m r : Word) (v : Bool) (l : BitVec 4) (s : State) : (s.activate m r v l).fsm = s.fsm := rfl
@[simp] theorem activate_dir (m r : Word) (v : Bool) (l : BitVec 4) (s : State) : (s.activate m r v l).dir = s.dir := rfl
@[simp] theorem activate_iround (m r : Word) (v : Bool) (l : BitVec 4) (s : State) : (s.activate m r v l).iround = s.iround := rfl
@[simp] theorem activate_msg (m r : Word) (v : Bool) (l : BitVec 4) (s : State) : (s.activate m r v l).msg = s.msg := rfl
@[simp] theorem activate_kgM (m r : Word) (v : Bool) (l : BitVec 4) (s : State) : (s.activate m r v l).kgM = s.kgM := rfl
@[simp] theorem activate_kgR (m r : Word) (v : Bool) (l : BitVec 4) (s : State) : (s.activate m r v l).kgR = s.kgR := rfl
@[simp] theorem activate_kgV (m r : Word) (v : Bool) (l : BitVec 4) (s : State) : (s.activate m r v l).kgV = s.kgV := rfl
@[simp] theorem activate_kgL (m r : Word) (v : Bool) (l : BitVec 4) (s : State) : (s.activate m r v l).kgL = s.kgL := rfl
@[simp] theorem activate_kgKey (m r : Word) (v : Bool) (l : BitVec 4) (s : State) : (s.activate m r v l).kgKey = s.kgKey := rfl
@[simp] theorem activate_cacheValid (m r : Word) (v : Bool) (l : BitVec 4) (s : State) : (s.activate m r v l).cacheValid = s.cacheValid := rfl
@[simp] theorem activate_cacheTag (m r : Word) (v : Bool) (l : BitVec 4) (s : State) : (s.activate m r v l).cacheTag = s.cacheTag := rfl
@[simp] theorem activate_cacheData (m r : Word) (v : Bool) (l : BitVec 4) (s : State) : (s.activate m r v l).cacheData = s.cacheData := rfl
@[simp] theorem activate_resets (m r : Word) (v : Bool) (l : BitVec 4) (s : State) : (s.activate m r v l).resets = s.resets := rfl
@[simp] theorem activate_host (m r : Word) (v : Bool) (l : BitVec 4) (s : State) : (s.activate m r v l).host = s.host := rfl
@[simp] theorem activate_sched (m r : Word) (v : Bool) (l : BitVec 4) (s : State) : (s.activate m r v l).sched = s.sched := rfl
@[simp] theorem activate_resp (m r : Word) (v : Bool) (l : BitVec 4) (s : State) : (s.activate m r v l).resp = s.resp := rfl
@[simp] theorem activate_keyByte (P : Params) (m r : Word) (v : Bool) (l : BitVec 4) (s : State) : keyByte P (s.activate m r v l) = keyByte P s := rfl
@[simp] theorem activate_busy (m r : Word) (v : Bool) (l : BitVec 4) (s : State) : (s.activate m r v l).busy = s.busy := rfl

/-! ## `latchKeygen`: CONFIG_KEY latched -/

@[simp] theorem latchKeygen_configured (m : Word) (r : Nat) (v : Bool) (l : BitVec 4) (k : Word) (s : State) : (s.latchKeygen m r v l k).configured = s.configured := rfl
@[simp] theorem latchKeygen_err (m : Word) (r : Nat) (v : Bool) (l : BitVec 4) (k : Word) (s : State) : (s.latchKeygen m r v l k).err = s.err := rfl
@[simp] theorem latchKeygen_drop (m : Word) (r : Nat) (v : Bool) (l : BitVec 4) (k : Word) (s : State) : (s.latchKeygen m r v l k).drop = s.drop := rfl
@[simp] theorem latchKeygen_errcode (m : Word) (r : Nat) (v : Bool) (l : BitVec 4) (k : Word) (s : State) : (s.latchKeygen m r v l k).errcode = s.errcode := rfl
@[simp] theorem latchKeygen_maxmsg (m : Word) (r : Nat) (v : Bool) (l : BitVec 4) (k : Word) (s : State) : (s.latchKeygen m r v l k).maxmsg = s.maxmsg := rfl
@[simp] theorem latchKeygen_rounds (m : Word) (r : Nat) (v : Bool) (l : BitVec 4) (k : Word) (s : State) : (s.latchKeygen m r v l k).rounds = s.rounds := rfl
@[simp] theorem latchKeygen_keylen (m : Word) (r : Nat) (v : Bool) (l : BitVec 4) (k : Word) (s : State) : (s.latchKeygen m r v l k).keylen = s.keylen := rfl
@[simp] theorem latchKeygen_keynum (m : Word) (r : Nat) (v : Bool) (l : BitVec 4) (k : Word) (s : State) : (s.latchKeygen m r v l k).keynum = s.keynum := rfl
@[simp] theorem latchKeygen_dataIn (m : Word) (r : Nat) (v : Bool) (l : BitVec 4) (k : Word) (s : State) : (s.latchKeygen m r v l k).dataIn = s.dataIn := rfl
@[simp] theorem latchKeygen_dataOut (m : Word) (r : Nat) (v : Bool) (l : BitVec 4) (k : Word) (s : State) : (s.latchKeygen m r v l k).dataOut = s.dataOut := rfl
@[simp] theorem latchKeygen_actMaxmsg (m : Word) (r : Nat) (v : Bool) (l : BitVec 4) (k : Word) (s : State) : (s.latchKeygen m r v l k).actMaxmsg = s.actMaxmsg := rfl
@[simp] theorem latchKeygen_actRounds (m : Word) (r : Nat) (v : Bool) (l : BitVec 4) (k : Word) (s : State) : (s.latchKeygen m r v l k).actRounds = s.actRounds := rfl
@[simp] theorem latchKeygen_actV (m : Word) (r : Nat) (v : Bool) (l : BitVec 4) (k : Word) (s : State) : (s.latchKeygen m r v l k).actV = s.actV := rfl
@[simp] theorem latchKeygen_actL (m : Word) (r : Nat) (v : Bool) (l : BitVec 4) (k : Word) (s : State) : (s.latchKeygen m r v l k).actL = s.actL := rfl
@[simp] theorem latchKeygen_irqEn (m : Word) (r : Nat) (v : Bool) (l : BitVec 4) (k : Word) (s : State) : (s.latchKeygen m r v l k).irqEn = s.irqEn := rfl
@[simp] theorem latchKeygen_irqPend (m : Word) (r : Nat) (v : Bool) (l : BitVec 4) (k : Word) (s : State) : (s.latchKeygen m r v l k).irqPend = s.irqPend := rfl
@[simp] theorem latchKeygen_hashcnt (m : Word) (r : Nat) (v : Bool) (l : BitVec 4) (k : Word) (s : State) : (s.latchKeygen m r v l k).hashcnt = s.hashcnt := rfl
@[simp] theorem latchKeygen_keymem (m : Word) (r : Nat) (v : Bool) (l : BitVec 4) (k : Word) (s : State) : (s.latchKeygen m r v l k).keymem = s.keymem := rfl
@[simp] theorem latchKeygen_fsm (m : Word) (r : Nat) (v : Bool) (l : BitVec 4) (k : Word) (s : State) : (s.latchKeygen m r v l k).fsm = .keygen := rfl
@[simp] theorem latchKeygen_dir (m : Word) (r : Nat) (v : Bool) (l : BitVec 4) (k : Word) (s : State) : (s.latchKeygen m r v l k).dir = s.dir := rfl
@[simp] theorem latchKeygen_iround (m : Word) (r : Nat) (v : Bool) (l : BitVec 4) (k : Word) (s : State) : (s.latchKeygen m r v l k).iround = s.iround := rfl
@[simp] theorem latchKeygen_msg (m : Word) (r : Nat) (v : Bool) (l : BitVec 4) (k : Word) (s : State) : (s.latchKeygen m r v l k).msg = s.msg := rfl
@[simp] theorem latchKeygen_kgM (m : Word) (r : Nat) (v : Bool) (l : BitVec 4) (k : Word) (s : State) : (s.latchKeygen m r v l k).kgM = m := rfl
@[simp] theorem latchKeygen_kgR (m : Word) (r : Nat) (v : Bool) (l : BitVec 4) (k : Word) (s : State) : (s.latchKeygen m r v l k).kgR = r := rfl
@[simp] theorem latchKeygen_kgV (m : Word) (r : Nat) (v : Bool) (l : BitVec 4) (k : Word) (s : State) : (s.latchKeygen m r v l k).kgV = v := rfl
@[simp] theorem latchKeygen_kgL (m : Word) (r : Nat) (v : Bool) (l : BitVec 4) (k : Word) (s : State) : (s.latchKeygen m r v l k).kgL = l := rfl
@[simp] theorem latchKeygen_kgKey (m : Word) (r : Nat) (v : Bool) (l : BitVec 4) (k : Word) (s : State) : (s.latchKeygen m r v l k).kgKey = k := rfl
@[simp] theorem latchKeygen_cacheValid (m : Word) (r : Nat) (v : Bool) (l : BitVec 4) (k : Word) (s : State) : (s.latchKeygen m r v l k).cacheValid = s.cacheValid := rfl
@[simp] theorem latchKeygen_cacheTag (m : Word) (r : Nat) (v : Bool) (l : BitVec 4) (k : Word) (s : State) : (s.latchKeygen m r v l k).cacheTag = s.cacheTag := rfl
@[simp] theorem latchKeygen_cacheData (m : Word) (r : Nat) (v : Bool) (l : BitVec 4) (k : Word) (s : State) : (s.latchKeygen m r v l k).cacheData = s.cacheData := rfl
@[simp] theorem latchKeygen_resets (m : Word) (r : Nat) (v : Bool) (l : BitVec 4) (k : Word) (s : State) : (s.latchKeygen m r v l k).resets = s.resets := rfl
@[simp] theorem latchKeygen_host (m : Word) (r : Nat) (v : Bool) (l : BitVec 4) (k : Word) (s : State) : (s.latchKeygen m r v l k).host = s.host := rfl
@[simp] theorem latchKeygen_sched (m : Word) (r : Nat) (v : Bool) (l : BitVec 4) (k : Word) (s : State) : (s.latchKeygen m r v l k).sched = s.sched := rfl
@[simp] theorem latchKeygen_resp (m : Word) (r : Nat) (v : Bool) (l : BitVec 4) (k : Word) (s : State) : (s.latchKeygen m r v l k).resp = s.resp := rfl
@[simp] theorem latchKeygen_keyByte (P : Params) (m : Word) (r : Nat) (v : Bool) (l : BitVec 4) (k : Word) (s : State) : keyByte P (s.latchKeygen m r v l k) = keyByte P s := rfl
@[simp] theorem latchKeygen_half (m : Word) (r : Nat) (v : Bool) (l : BitVec 4) (k : Word) (s : State) : (s.latchKeygen m r v l k).half = s.half := rfl

/-! ## `startRun`: a checked ENCRYPT or DECRYPT issue -/

@[simp] theorem startRun_configured (x : Word) (d : Dir) (s : State) : (s.startRun x d).configured = s.configured := rfl
@[simp] theorem startRun_err (x : Word) (d : Dir) (s : State) : (s.startRun x d).err = s.err := rfl
@[simp] theorem startRun_drop (x : Word) (d : Dir) (s : State) : (s.startRun x d).drop = s.drop := rfl
@[simp] theorem startRun_errcode (x : Word) (d : Dir) (s : State) : (s.startRun x d).errcode = s.errcode := rfl
@[simp] theorem startRun_maxmsg (x : Word) (d : Dir) (s : State) : (s.startRun x d).maxmsg = s.maxmsg := rfl
@[simp] theorem startRun_rounds (x : Word) (d : Dir) (s : State) : (s.startRun x d).rounds = s.rounds := rfl
@[simp] theorem startRun_keylen (x : Word) (d : Dir) (s : State) : (s.startRun x d).keylen = s.keylen := rfl
@[simp] theorem startRun_keynum (x : Word) (d : Dir) (s : State) : (s.startRun x d).keynum = s.keynum := rfl
@[simp] theorem startRun_dataIn (x : Word) (d : Dir) (s : State) : (s.startRun x d).dataIn = s.dataIn := rfl
@[simp] theorem startRun_dataOut (x : Word) (d : Dir) (s : State) : (s.startRun x d).dataOut = s.dataOut := rfl
@[simp] theorem startRun_actMaxmsg (x : Word) (d : Dir) (s : State) : (s.startRun x d).actMaxmsg = s.actMaxmsg := rfl
@[simp] theorem startRun_actRounds (x : Word) (d : Dir) (s : State) : (s.startRun x d).actRounds = s.actRounds := rfl
@[simp] theorem startRun_actV (x : Word) (d : Dir) (s : State) : (s.startRun x d).actV = s.actV := rfl
@[simp] theorem startRun_actL (x : Word) (d : Dir) (s : State) : (s.startRun x d).actL = s.actL := rfl
@[simp] theorem startRun_irqEn (x : Word) (d : Dir) (s : State) : (s.startRun x d).irqEn = s.irqEn := rfl
@[simp] theorem startRun_irqPend (x : Word) (d : Dir) (s : State) : (s.startRun x d).irqPend = s.irqPend := rfl
@[simp] theorem startRun_hashcnt (x : Word) (d : Dir) (s : State) : (s.startRun x d).hashcnt = 0 := rfl
@[simp] theorem startRun_keymem (x : Word) (d : Dir) (s : State) : (s.startRun x d).keymem = s.keymem := rfl
@[simp] theorem startRun_fsm (x : Word) (d : Dir) (s : State) : (s.startRun x d).fsm = s.fsm := rfl
@[simp] theorem startRun_dir (x : Word) (d : Dir) (s : State) : (s.startRun x d).dir = d := rfl
@[simp] theorem startRun_iround (x : Word) (d : Dir) (s : State) : (s.startRun x d).iround = s.iround := rfl
@[simp] theorem startRun_msg (x : Word) (d : Dir) (s : State) : (s.startRun x d).msg = x := rfl
@[simp] theorem startRun_kgM (x : Word) (d : Dir) (s : State) : (s.startRun x d).kgM = s.kgM := rfl
@[simp] theorem startRun_kgR (x : Word) (d : Dir) (s : State) : (s.startRun x d).kgR = s.kgR := rfl
@[simp] theorem startRun_kgV (x : Word) (d : Dir) (s : State) : (s.startRun x d).kgV = s.kgV := rfl
@[simp] theorem startRun_kgL (x : Word) (d : Dir) (s : State) : (s.startRun x d).kgL = s.kgL := rfl
@[simp] theorem startRun_kgKey (x : Word) (d : Dir) (s : State) : (s.startRun x d).kgKey = s.kgKey := rfl
@[simp] theorem startRun_cacheValid (x : Word) (d : Dir) (s : State) : (s.startRun x d).cacheValid = false := rfl
@[simp] theorem startRun_cacheTag (x : Word) (d : Dir) (s : State) : (s.startRun x d).cacheTag = s.cacheTag := rfl
@[simp] theorem startRun_cacheData (x : Word) (d : Dir) (s : State) : (s.startRun x d).cacheData = s.cacheData := rfl
@[simp] theorem startRun_resets (x : Word) (d : Dir) (s : State) : (s.startRun x d).resets = s.resets := rfl
@[simp] theorem startRun_host (x : Word) (d : Dir) (s : State) : (s.startRun x d).host = s.host := rfl
@[simp] theorem startRun_sched (x : Word) (d : Dir) (s : State) : (s.startRun x d).sched = s.sched := rfl
@[simp] theorem startRun_resp (x : Word) (d : Dir) (s : State) : (s.startRun x d).resp = s.resp := rfl
@[simp] theorem startRun_keyByte (P : Params) (x : Word) (d : Dir) (s : State) : keyByte P (s.startRun x d) = keyByte P s := rfl
@[simp] theorem startRun_half (x : Word) (d : Dir) (s : State) : (s.startRun x d).half = s.half := rfl
@[simp] theorem startRun_busy (x : Word) (d : Dir) (s : State) : (s.startRun x d).busy = s.busy := rfl

/-! ## `enterRound`: ROUND entered -/

@[simp] theorem enterRound_configured (i : Nat) (s : State) : (s.enterRound i).configured = s.configured := rfl
@[simp] theorem enterRound_err (i : Nat) (s : State) : (s.enterRound i).err = s.err := rfl
@[simp] theorem enterRound_drop (i : Nat) (s : State) : (s.enterRound i).drop = s.drop := rfl
@[simp] theorem enterRound_errcode (i : Nat) (s : State) : (s.enterRound i).errcode = s.errcode := rfl
@[simp] theorem enterRound_maxmsg (i : Nat) (s : State) : (s.enterRound i).maxmsg = s.maxmsg := rfl
@[simp] theorem enterRound_rounds (i : Nat) (s : State) : (s.enterRound i).rounds = s.rounds := rfl
@[simp] theorem enterRound_keylen (i : Nat) (s : State) : (s.enterRound i).keylen = s.keylen := rfl
@[simp] theorem enterRound_keynum (i : Nat) (s : State) : (s.enterRound i).keynum = s.keynum := rfl
@[simp] theorem enterRound_dataIn (i : Nat) (s : State) : (s.enterRound i).dataIn = s.dataIn := rfl
@[simp] theorem enterRound_dataOut (i : Nat) (s : State) : (s.enterRound i).dataOut = s.dataOut := rfl
@[simp] theorem enterRound_actMaxmsg (i : Nat) (s : State) : (s.enterRound i).actMaxmsg = s.actMaxmsg := rfl
@[simp] theorem enterRound_actRounds (i : Nat) (s : State) : (s.enterRound i).actRounds = s.actRounds := rfl
@[simp] theorem enterRound_actV (i : Nat) (s : State) : (s.enterRound i).actV = s.actV := rfl
@[simp] theorem enterRound_actL (i : Nat) (s : State) : (s.enterRound i).actL = s.actL := rfl
@[simp] theorem enterRound_irqEn (i : Nat) (s : State) : (s.enterRound i).irqEn = s.irqEn := rfl
@[simp] theorem enterRound_irqPend (i : Nat) (s : State) : (s.enterRound i).irqPend = s.irqPend := rfl
@[simp] theorem enterRound_hashcnt (i : Nat) (s : State) : (s.enterRound i).hashcnt = s.hashcnt := rfl
@[simp] theorem enterRound_keymem (i : Nat) (s : State) : (s.enterRound i).keymem = s.keymem := rfl
@[simp] theorem enterRound_fsm (i : Nat) (s : State) : (s.enterRound i).fsm = .round := rfl
@[simp] theorem enterRound_dir (i : Nat) (s : State) : (s.enterRound i).dir = s.dir := rfl
@[simp] theorem enterRound_iround (i : Nat) (s : State) : (s.enterRound i).iround = i := rfl
@[simp] theorem enterRound_msg (i : Nat) (s : State) : (s.enterRound i).msg = s.msg := rfl
@[simp] theorem enterRound_kgM (i : Nat) (s : State) : (s.enterRound i).kgM = s.kgM := rfl
@[simp] theorem enterRound_kgR (i : Nat) (s : State) : (s.enterRound i).kgR = s.kgR := rfl
@[simp] theorem enterRound_kgV (i : Nat) (s : State) : (s.enterRound i).kgV = s.kgV := rfl
@[simp] theorem enterRound_kgL (i : Nat) (s : State) : (s.enterRound i).kgL = s.kgL := rfl
@[simp] theorem enterRound_kgKey (i : Nat) (s : State) : (s.enterRound i).kgKey = s.kgKey := rfl
@[simp] theorem enterRound_cacheValid (i : Nat) (s : State) : (s.enterRound i).cacheValid = s.cacheValid := rfl
@[simp] theorem enterRound_cacheTag (i : Nat) (s : State) : (s.enterRound i).cacheTag = s.cacheTag := rfl
@[simp] theorem enterRound_cacheData (i : Nat) (s : State) : (s.enterRound i).cacheData = s.cacheData := rfl
@[simp] theorem enterRound_resets (i : Nat) (s : State) : (s.enterRound i).resets = s.resets := rfl
@[simp] theorem enterRound_host (i : Nat) (s : State) : (s.enterRound i).host = s.host := rfl
@[simp] theorem enterRound_sched (i : Nat) (s : State) : (s.enterRound i).sched = s.sched := rfl
@[simp] theorem enterRound_resp (i : Nat) (s : State) : (s.enterRound i).resp = s.resp := rfl
@[simp] theorem enterRound_keyByte (P : Params) (i : Nat) (s : State) : keyByte P (s.enterRound i) = keyByte P s := rfl
@[simp] theorem enterRound_half (i : Nat) (s : State) : (s.enterRound i).half = s.half := rfl

/-! ## `setMsg`: MSG -/

@[simp] theorem setMsg_configured (m : Word) (s : State) : (s.setMsg m).configured = s.configured := rfl
@[simp] theorem setMsg_err (m : Word) (s : State) : (s.setMsg m).err = s.err := rfl
@[simp] theorem setMsg_drop (m : Word) (s : State) : (s.setMsg m).drop = s.drop := rfl
@[simp] theorem setMsg_errcode (m : Word) (s : State) : (s.setMsg m).errcode = s.errcode := rfl
@[simp] theorem setMsg_maxmsg (m : Word) (s : State) : (s.setMsg m).maxmsg = s.maxmsg := rfl
@[simp] theorem setMsg_rounds (m : Word) (s : State) : (s.setMsg m).rounds = s.rounds := rfl
@[simp] theorem setMsg_keylen (m : Word) (s : State) : (s.setMsg m).keylen = s.keylen := rfl
@[simp] theorem setMsg_keynum (m : Word) (s : State) : (s.setMsg m).keynum = s.keynum := rfl
@[simp] theorem setMsg_dataIn (m : Word) (s : State) : (s.setMsg m).dataIn = s.dataIn := rfl
@[simp] theorem setMsg_dataOut (m : Word) (s : State) : (s.setMsg m).dataOut = s.dataOut := rfl
@[simp] theorem setMsg_actMaxmsg (m : Word) (s : State) : (s.setMsg m).actMaxmsg = s.actMaxmsg := rfl
@[simp] theorem setMsg_actRounds (m : Word) (s : State) : (s.setMsg m).actRounds = s.actRounds := rfl
@[simp] theorem setMsg_actV (m : Word) (s : State) : (s.setMsg m).actV = s.actV := rfl
@[simp] theorem setMsg_actL (m : Word) (s : State) : (s.setMsg m).actL = s.actL := rfl
@[simp] theorem setMsg_irqEn (m : Word) (s : State) : (s.setMsg m).irqEn = s.irqEn := rfl
@[simp] theorem setMsg_irqPend (m : Word) (s : State) : (s.setMsg m).irqPend = s.irqPend := rfl
@[simp] theorem setMsg_hashcnt (m : Word) (s : State) : (s.setMsg m).hashcnt = s.hashcnt := rfl
@[simp] theorem setMsg_keymem (m : Word) (s : State) : (s.setMsg m).keymem = s.keymem := rfl
@[simp] theorem setMsg_fsm (m : Word) (s : State) : (s.setMsg m).fsm = s.fsm := rfl
@[simp] theorem setMsg_dir (m : Word) (s : State) : (s.setMsg m).dir = s.dir := rfl
@[simp] theorem setMsg_iround (m : Word) (s : State) : (s.setMsg m).iround = s.iround := rfl
@[simp] theorem setMsg_msg (m : Word) (s : State) : (s.setMsg m).msg = m := rfl
@[simp] theorem setMsg_kgM (m : Word) (s : State) : (s.setMsg m).kgM = s.kgM := rfl
@[simp] theorem setMsg_kgR (m : Word) (s : State) : (s.setMsg m).kgR = s.kgR := rfl
@[simp] theorem setMsg_kgV (m : Word) (s : State) : (s.setMsg m).kgV = s.kgV := rfl
@[simp] theorem setMsg_kgL (m : Word) (s : State) : (s.setMsg m).kgL = s.kgL := rfl
@[simp] theorem setMsg_kgKey (m : Word) (s : State) : (s.setMsg m).kgKey = s.kgKey := rfl
@[simp] theorem setMsg_cacheValid (m : Word) (s : State) : (s.setMsg m).cacheValid = s.cacheValid := rfl
@[simp] theorem setMsg_cacheTag (m : Word) (s : State) : (s.setMsg m).cacheTag = s.cacheTag := rfl
@[simp] theorem setMsg_cacheData (m : Word) (s : State) : (s.setMsg m).cacheData = s.cacheData := rfl
@[simp] theorem setMsg_resets (m : Word) (s : State) : (s.setMsg m).resets = s.resets := rfl
@[simp] theorem setMsg_host (m : Word) (s : State) : (s.setMsg m).host = s.host := rfl
@[simp] theorem setMsg_sched (m : Word) (s : State) : (s.setMsg m).sched = s.sched := rfl
@[simp] theorem setMsg_resp (m : Word) (s : State) : (s.setMsg m).resp = s.resp := rfl
@[simp] theorem setMsg_keyByte (P : Params) (m : Word) (s : State) : keyByte P (s.setMsg m) = keyByte P s := rfl
@[simp] theorem setMsg_half (m : Word) (s : State) : (s.setMsg m).half = s.half := rfl
@[simp] theorem setMsg_busy (m : Word) (s : State) : (s.setMsg m).busy = s.busy := rfl

/-! ## `setIround`: IROUND -/

@[simp] theorem setIround_configured (i : Nat) (s : State) : (s.setIround i).configured = s.configured := rfl
@[simp] theorem setIround_err (i : Nat) (s : State) : (s.setIround i).err = s.err := rfl
@[simp] theorem setIround_drop (i : Nat) (s : State) : (s.setIround i).drop = s.drop := rfl
@[simp] theorem setIround_errcode (i : Nat) (s : State) : (s.setIround i).errcode = s.errcode := rfl
@[simp] theorem setIround_maxmsg (i : Nat) (s : State) : (s.setIround i).maxmsg = s.maxmsg := rfl
@[simp] theorem setIround_rounds (i : Nat) (s : State) : (s.setIround i).rounds = s.rounds := rfl
@[simp] theorem setIround_keylen (i : Nat) (s : State) : (s.setIround i).keylen = s.keylen := rfl
@[simp] theorem setIround_keynum (i : Nat) (s : State) : (s.setIround i).keynum = s.keynum := rfl
@[simp] theorem setIround_dataIn (i : Nat) (s : State) : (s.setIround i).dataIn = s.dataIn := rfl
@[simp] theorem setIround_dataOut (i : Nat) (s : State) : (s.setIround i).dataOut = s.dataOut := rfl
@[simp] theorem setIround_actMaxmsg (i : Nat) (s : State) : (s.setIround i).actMaxmsg = s.actMaxmsg := rfl
@[simp] theorem setIround_actRounds (i : Nat) (s : State) : (s.setIround i).actRounds = s.actRounds := rfl
@[simp] theorem setIround_actV (i : Nat) (s : State) : (s.setIround i).actV = s.actV := rfl
@[simp] theorem setIround_actL (i : Nat) (s : State) : (s.setIround i).actL = s.actL := rfl
@[simp] theorem setIround_irqEn (i : Nat) (s : State) : (s.setIround i).irqEn = s.irqEn := rfl
@[simp] theorem setIround_irqPend (i : Nat) (s : State) : (s.setIround i).irqPend = s.irqPend := rfl
@[simp] theorem setIround_hashcnt (i : Nat) (s : State) : (s.setIround i).hashcnt = s.hashcnt := rfl
@[simp] theorem setIround_keymem (i : Nat) (s : State) : (s.setIround i).keymem = s.keymem := rfl
@[simp] theorem setIround_fsm (i : Nat) (s : State) : (s.setIround i).fsm = s.fsm := rfl
@[simp] theorem setIround_dir (i : Nat) (s : State) : (s.setIround i).dir = s.dir := rfl
@[simp] theorem setIround_iround (i : Nat) (s : State) : (s.setIround i).iround = i := rfl
@[simp] theorem setIround_msg (i : Nat) (s : State) : (s.setIround i).msg = s.msg := rfl
@[simp] theorem setIround_kgM (i : Nat) (s : State) : (s.setIround i).kgM = s.kgM := rfl
@[simp] theorem setIround_kgR (i : Nat) (s : State) : (s.setIround i).kgR = s.kgR := rfl
@[simp] theorem setIround_kgV (i : Nat) (s : State) : (s.setIround i).kgV = s.kgV := rfl
@[simp] theorem setIround_kgL (i : Nat) (s : State) : (s.setIround i).kgL = s.kgL := rfl
@[simp] theorem setIround_kgKey (i : Nat) (s : State) : (s.setIround i).kgKey = s.kgKey := rfl
@[simp] theorem setIround_cacheValid (i : Nat) (s : State) : (s.setIround i).cacheValid = s.cacheValid := rfl
@[simp] theorem setIround_cacheTag (i : Nat) (s : State) : (s.setIround i).cacheTag = s.cacheTag := rfl
@[simp] theorem setIround_cacheData (i : Nat) (s : State) : (s.setIround i).cacheData = s.cacheData := rfl
@[simp] theorem setIround_resets (i : Nat) (s : State) : (s.setIround i).resets = s.resets := rfl
@[simp] theorem setIround_host (i : Nat) (s : State) : (s.setIround i).host = s.host := rfl
@[simp] theorem setIround_sched (i : Nat) (s : State) : (s.setIround i).sched = s.sched := rfl
@[simp] theorem setIround_resp (i : Nat) (s : State) : (s.setIround i).resp = s.resp := rfl
@[simp] theorem setIround_keyByte (P : Params) (i : Nat) (s : State) : keyByte P (s.setIround i) = keyByte P s := rfl
@[simp] theorem setIround_half (i : Nat) (s : State) : (s.setIround i).half = s.half := rfl
@[simp] theorem setIround_busy (i : Nat) (s : State) : (s.setIround i).busy = s.busy := rfl

/-! ## `setKeylen`: KEYLEN -/

@[simp] theorem setKeylen_configured (n : Word) (s : State) : (s.setKeylen n).configured = s.configured := rfl
@[simp] theorem setKeylen_err (n : Word) (s : State) : (s.setKeylen n).err = s.err := rfl
@[simp] theorem setKeylen_drop (n : Word) (s : State) : (s.setKeylen n).drop = s.drop := rfl
@[simp] theorem setKeylen_errcode (n : Word) (s : State) : (s.setKeylen n).errcode = s.errcode := rfl
@[simp] theorem setKeylen_maxmsg (n : Word) (s : State) : (s.setKeylen n).maxmsg = s.maxmsg := rfl
@[simp] theorem setKeylen_rounds (n : Word) (s : State) : (s.setKeylen n).rounds = s.rounds := rfl
@[simp] theorem setKeylen_keylen (n : Word) (s : State) : (s.setKeylen n).keylen = n := rfl
@[simp] theorem setKeylen_keynum (n : Word) (s : State) : (s.setKeylen n).keynum = s.keynum := rfl
@[simp] theorem setKeylen_dataIn (n : Word) (s : State) : (s.setKeylen n).dataIn = s.dataIn := rfl
@[simp] theorem setKeylen_dataOut (n : Word) (s : State) : (s.setKeylen n).dataOut = s.dataOut := rfl
@[simp] theorem setKeylen_actMaxmsg (n : Word) (s : State) : (s.setKeylen n).actMaxmsg = s.actMaxmsg := rfl
@[simp] theorem setKeylen_actRounds (n : Word) (s : State) : (s.setKeylen n).actRounds = s.actRounds := rfl
@[simp] theorem setKeylen_actV (n : Word) (s : State) : (s.setKeylen n).actV = s.actV := rfl
@[simp] theorem setKeylen_actL (n : Word) (s : State) : (s.setKeylen n).actL = s.actL := rfl
@[simp] theorem setKeylen_irqEn (n : Word) (s : State) : (s.setKeylen n).irqEn = s.irqEn := rfl
@[simp] theorem setKeylen_irqPend (n : Word) (s : State) : (s.setKeylen n).irqPend = s.irqPend := rfl
@[simp] theorem setKeylen_hashcnt (n : Word) (s : State) : (s.setKeylen n).hashcnt = s.hashcnt := rfl
@[simp] theorem setKeylen_keymem (n : Word) (s : State) : (s.setKeylen n).keymem = s.keymem := rfl
@[simp] theorem setKeylen_fsm (n : Word) (s : State) : (s.setKeylen n).fsm = s.fsm := rfl
@[simp] theorem setKeylen_dir (n : Word) (s : State) : (s.setKeylen n).dir = s.dir := rfl
@[simp] theorem setKeylen_iround (n : Word) (s : State) : (s.setKeylen n).iround = s.iround := rfl
@[simp] theorem setKeylen_msg (n : Word) (s : State) : (s.setKeylen n).msg = s.msg := rfl
@[simp] theorem setKeylen_kgM (n : Word) (s : State) : (s.setKeylen n).kgM = s.kgM := rfl
@[simp] theorem setKeylen_kgR (n : Word) (s : State) : (s.setKeylen n).kgR = s.kgR := rfl
@[simp] theorem setKeylen_kgV (n : Word) (s : State) : (s.setKeylen n).kgV = s.kgV := rfl
@[simp] theorem setKeylen_kgL (n : Word) (s : State) : (s.setKeylen n).kgL = s.kgL := rfl
@[simp] theorem setKeylen_kgKey (n : Word) (s : State) : (s.setKeylen n).kgKey = s.kgKey := rfl
@[simp] theorem setKeylen_cacheValid (n : Word) (s : State) : (s.setKeylen n).cacheValid = s.cacheValid := rfl
@[simp] theorem setKeylen_cacheTag (n : Word) (s : State) : (s.setKeylen n).cacheTag = s.cacheTag := rfl
@[simp] theorem setKeylen_cacheData (n : Word) (s : State) : (s.setKeylen n).cacheData = s.cacheData := rfl
@[simp] theorem setKeylen_resets (n : Word) (s : State) : (s.setKeylen n).resets = s.resets := rfl
@[simp] theorem setKeylen_host (n : Word) (s : State) : (s.setKeylen n).host = s.host := rfl
@[simp] theorem setKeylen_sched (n : Word) (s : State) : (s.setKeylen n).sched = s.sched := rfl
@[simp] theorem setKeylen_resp (n : Word) (s : State) : (s.setKeylen n).resp = s.resp := rfl
@[simp] theorem setKeylen_keyByte (P : Params) (n : Word) (s : State) : keyByte P (s.setKeylen n) = keyByte P s := rfl
@[simp] theorem setKeylen_half (n : Word) (s : State) : (s.setKeylen n).half = s.half := rfl
@[simp] theorem setKeylen_busy (n : Word) (s : State) : (s.setKeylen n).busy = s.busy := rfl

/-! ## `fillCache`: the HashCache filled -/

@[simp] theorem fillCache_configured (g : Nat) (d : List Byte) (s : State) : (s.fillCache g d).configured = s.configured := rfl
@[simp] theorem fillCache_err (g : Nat) (d : List Byte) (s : State) : (s.fillCache g d).err = s.err := rfl
@[simp] theorem fillCache_drop (g : Nat) (d : List Byte) (s : State) : (s.fillCache g d).drop = s.drop := rfl
@[simp] theorem fillCache_errcode (g : Nat) (d : List Byte) (s : State) : (s.fillCache g d).errcode = s.errcode := rfl
@[simp] theorem fillCache_maxmsg (g : Nat) (d : List Byte) (s : State) : (s.fillCache g d).maxmsg = s.maxmsg := rfl
@[simp] theorem fillCache_rounds (g : Nat) (d : List Byte) (s : State) : (s.fillCache g d).rounds = s.rounds := rfl
@[simp] theorem fillCache_keylen (g : Nat) (d : List Byte) (s : State) : (s.fillCache g d).keylen = s.keylen := rfl
@[simp] theorem fillCache_keynum (g : Nat) (d : List Byte) (s : State) : (s.fillCache g d).keynum = s.keynum := rfl
@[simp] theorem fillCache_dataIn (g : Nat) (d : List Byte) (s : State) : (s.fillCache g d).dataIn = s.dataIn := rfl
@[simp] theorem fillCache_dataOut (g : Nat) (d : List Byte) (s : State) : (s.fillCache g d).dataOut = s.dataOut := rfl
@[simp] theorem fillCache_actMaxmsg (g : Nat) (d : List Byte) (s : State) : (s.fillCache g d).actMaxmsg = s.actMaxmsg := rfl
@[simp] theorem fillCache_actRounds (g : Nat) (d : List Byte) (s : State) : (s.fillCache g d).actRounds = s.actRounds := rfl
@[simp] theorem fillCache_actV (g : Nat) (d : List Byte) (s : State) : (s.fillCache g d).actV = s.actV := rfl
@[simp] theorem fillCache_actL (g : Nat) (d : List Byte) (s : State) : (s.fillCache g d).actL = s.actL := rfl
@[simp] theorem fillCache_irqEn (g : Nat) (d : List Byte) (s : State) : (s.fillCache g d).irqEn = s.irqEn := rfl
@[simp] theorem fillCache_irqPend (g : Nat) (d : List Byte) (s : State) : (s.fillCache g d).irqPend = s.irqPend := rfl
@[simp] theorem fillCache_hashcnt (g : Nat) (d : List Byte) (s : State) : (s.fillCache g d).hashcnt = s.hashcnt := rfl
@[simp] theorem fillCache_keymem (g : Nat) (d : List Byte) (s : State) : (s.fillCache g d).keymem = s.keymem := rfl
@[simp] theorem fillCache_fsm (g : Nat) (d : List Byte) (s : State) : (s.fillCache g d).fsm = s.fsm := rfl
@[simp] theorem fillCache_dir (g : Nat) (d : List Byte) (s : State) : (s.fillCache g d).dir = s.dir := rfl
@[simp] theorem fillCache_iround (g : Nat) (d : List Byte) (s : State) : (s.fillCache g d).iround = s.iround := rfl
@[simp] theorem fillCache_msg (g : Nat) (d : List Byte) (s : State) : (s.fillCache g d).msg = s.msg := rfl
@[simp] theorem fillCache_kgM (g : Nat) (d : List Byte) (s : State) : (s.fillCache g d).kgM = s.kgM := rfl
@[simp] theorem fillCache_kgR (g : Nat) (d : List Byte) (s : State) : (s.fillCache g d).kgR = s.kgR := rfl
@[simp] theorem fillCache_kgV (g : Nat) (d : List Byte) (s : State) : (s.fillCache g d).kgV = s.kgV := rfl
@[simp] theorem fillCache_kgL (g : Nat) (d : List Byte) (s : State) : (s.fillCache g d).kgL = s.kgL := rfl
@[simp] theorem fillCache_kgKey (g : Nat) (d : List Byte) (s : State) : (s.fillCache g d).kgKey = s.kgKey := rfl
@[simp] theorem fillCache_cacheValid (g : Nat) (d : List Byte) (s : State) : (s.fillCache g d).cacheValid = true := rfl
@[simp] theorem fillCache_cacheTag (g : Nat) (d : List Byte) (s : State) : (s.fillCache g d).cacheTag = g := rfl
@[simp] theorem fillCache_cacheData (g : Nat) (d : List Byte) (s : State) : (s.fillCache g d).cacheData = d := rfl
@[simp] theorem fillCache_resets (g : Nat) (d : List Byte) (s : State) : (s.fillCache g d).resets = s.resets := rfl
@[simp] theorem fillCache_host (g : Nat) (d : List Byte) (s : State) : (s.fillCache g d).host = s.host := rfl
@[simp] theorem fillCache_sched (g : Nat) (d : List Byte) (s : State) : (s.fillCache g d).sched = s.sched := rfl
@[simp] theorem fillCache_resp (g : Nat) (d : List Byte) (s : State) : (s.fillCache g d).resp = s.resp := rfl
@[simp] theorem fillCache_keyByte (P : Params) (g : Nat) (d : List Byte) (s : State) : keyByte P (s.fillCache g d) = keyByte P s := rfl
@[simp] theorem fillCache_half (g : Nat) (d : List Byte) (s : State) : (s.fillCache g d).half = s.half := rfl
@[simp] theorem fillCache_busy (g : Nat) (d : List Byte) (s : State) : (s.fillCache g d).busy = s.busy := rfl

/-! ## `countHash`: a hash call counted -/

@[simp] theorem countHash_configured (s : State) : (s.countHash).configured = s.configured := rfl
@[simp] theorem countHash_err (s : State) : (s.countHash).err = s.err := rfl
@[simp] theorem countHash_drop (s : State) : (s.countHash).drop = s.drop := rfl
@[simp] theorem countHash_errcode (s : State) : (s.countHash).errcode = s.errcode := rfl
@[simp] theorem countHash_maxmsg (s : State) : (s.countHash).maxmsg = s.maxmsg := rfl
@[simp] theorem countHash_rounds (s : State) : (s.countHash).rounds = s.rounds := rfl
@[simp] theorem countHash_keylen (s : State) : (s.countHash).keylen = s.keylen := rfl
@[simp] theorem countHash_keynum (s : State) : (s.countHash).keynum = s.keynum := rfl
@[simp] theorem countHash_dataIn (s : State) : (s.countHash).dataIn = s.dataIn := rfl
@[simp] theorem countHash_dataOut (s : State) : (s.countHash).dataOut = s.dataOut := rfl
@[simp] theorem countHash_actMaxmsg (s : State) : (s.countHash).actMaxmsg = s.actMaxmsg := rfl
@[simp] theorem countHash_actRounds (s : State) : (s.countHash).actRounds = s.actRounds := rfl
@[simp] theorem countHash_actV (s : State) : (s.countHash).actV = s.actV := rfl
@[simp] theorem countHash_actL (s : State) : (s.countHash).actL = s.actL := rfl
@[simp] theorem countHash_irqEn (s : State) : (s.countHash).irqEn = s.irqEn := rfl
@[simp] theorem countHash_irqPend (s : State) : (s.countHash).irqPend = s.irqPend := rfl
@[simp] theorem countHash_hashcnt (s : State) : (s.countHash).hashcnt = s.hashcnt + 1 := rfl
@[simp] theorem countHash_keymem (s : State) : (s.countHash).keymem = s.keymem := rfl
@[simp] theorem countHash_fsm (s : State) : (s.countHash).fsm = s.fsm := rfl
@[simp] theorem countHash_dir (s : State) : (s.countHash).dir = s.dir := rfl
@[simp] theorem countHash_iround (s : State) : (s.countHash).iround = s.iround := rfl
@[simp] theorem countHash_msg (s : State) : (s.countHash).msg = s.msg := rfl
@[simp] theorem countHash_kgM (s : State) : (s.countHash).kgM = s.kgM := rfl
@[simp] theorem countHash_kgR (s : State) : (s.countHash).kgR = s.kgR := rfl
@[simp] theorem countHash_kgV (s : State) : (s.countHash).kgV = s.kgV := rfl
@[simp] theorem countHash_kgL (s : State) : (s.countHash).kgL = s.kgL := rfl
@[simp] theorem countHash_kgKey (s : State) : (s.countHash).kgKey = s.kgKey := rfl
@[simp] theorem countHash_cacheValid (s : State) : (s.countHash).cacheValid = s.cacheValid := rfl
@[simp] theorem countHash_cacheTag (s : State) : (s.countHash).cacheTag = s.cacheTag := rfl
@[simp] theorem countHash_cacheData (s : State) : (s.countHash).cacheData = s.cacheData := rfl
@[simp] theorem countHash_resets (s : State) : (s.countHash).resets = s.resets := rfl
@[simp] theorem countHash_host (s : State) : (s.countHash).host = s.host := rfl
@[simp] theorem countHash_sched (s : State) : (s.countHash).sched = s.sched := rfl
@[simp] theorem countHash_resp (s : State) : (s.countHash).resp = s.resp := rfl
@[simp] theorem countHash_keyByte (P : Params) (s : State) : keyByte P (s.countHash) = keyByte P s := rfl
@[simp] theorem countHash_half (s : State) : (s.countHash).half = s.half := rfl
@[simp] theorem countHash_busy (s : State) : (s.countHash).busy = s.busy := rfl

/-! ## `takeTurn`: a turn taken -/

@[simp] theorem takeTurn_configured (s : State) : (s.takeTurn).configured = s.configured := rfl
@[simp] theorem takeTurn_err (s : State) : (s.takeTurn).err = s.err := rfl
@[simp] theorem takeTurn_drop (s : State) : (s.takeTurn).drop = s.drop := rfl
@[simp] theorem takeTurn_errcode (s : State) : (s.takeTurn).errcode = s.errcode := rfl
@[simp] theorem takeTurn_maxmsg (s : State) : (s.takeTurn).maxmsg = s.maxmsg := rfl
@[simp] theorem takeTurn_rounds (s : State) : (s.takeTurn).rounds = s.rounds := rfl
@[simp] theorem takeTurn_keylen (s : State) : (s.takeTurn).keylen = s.keylen := rfl
@[simp] theorem takeTurn_keynum (s : State) : (s.takeTurn).keynum = s.keynum := rfl
@[simp] theorem takeTurn_dataIn (s : State) : (s.takeTurn).dataIn = s.dataIn := rfl
@[simp] theorem takeTurn_dataOut (s : State) : (s.takeTurn).dataOut = s.dataOut := rfl
@[simp] theorem takeTurn_actMaxmsg (s : State) : (s.takeTurn).actMaxmsg = s.actMaxmsg := rfl
@[simp] theorem takeTurn_actRounds (s : State) : (s.takeTurn).actRounds = s.actRounds := rfl
@[simp] theorem takeTurn_actV (s : State) : (s.takeTurn).actV = s.actV := rfl
@[simp] theorem takeTurn_actL (s : State) : (s.takeTurn).actL = s.actL := rfl
@[simp] theorem takeTurn_irqEn (s : State) : (s.takeTurn).irqEn = s.irqEn := rfl
@[simp] theorem takeTurn_irqPend (s : State) : (s.takeTurn).irqPend = s.irqPend := rfl
@[simp] theorem takeTurn_hashcnt (s : State) : (s.takeTurn).hashcnt = s.hashcnt := rfl
@[simp] theorem takeTurn_keymem (s : State) : (s.takeTurn).keymem = s.keymem := rfl
@[simp] theorem takeTurn_fsm (s : State) : (s.takeTurn).fsm = s.fsm := rfl
@[simp] theorem takeTurn_dir (s : State) : (s.takeTurn).dir = s.dir := rfl
@[simp] theorem takeTurn_iround (s : State) : (s.takeTurn).iround = s.iround := rfl
@[simp] theorem takeTurn_msg (s : State) : (s.takeTurn).msg = s.msg := rfl
@[simp] theorem takeTurn_kgM (s : State) : (s.takeTurn).kgM = s.kgM := rfl
@[simp] theorem takeTurn_kgR (s : State) : (s.takeTurn).kgR = s.kgR := rfl
@[simp] theorem takeTurn_kgV (s : State) : (s.takeTurn).kgV = s.kgV := rfl
@[simp] theorem takeTurn_kgL (s : State) : (s.takeTurn).kgL = s.kgL := rfl
@[simp] theorem takeTurn_kgKey (s : State) : (s.takeTurn).kgKey = s.kgKey := rfl
@[simp] theorem takeTurn_cacheValid (s : State) : (s.takeTurn).cacheValid = s.cacheValid := rfl
@[simp] theorem takeTurn_cacheTag (s : State) : (s.takeTurn).cacheTag = s.cacheTag := rfl
@[simp] theorem takeTurn_cacheData (s : State) : (s.takeTurn).cacheData = s.cacheData := rfl
@[simp] theorem takeTurn_resets (s : State) : (s.takeTurn).resets = s.resets := rfl
@[simp] theorem takeTurn_host (s : State) : (s.takeTurn).host = s.host := rfl
@[simp] theorem takeTurn_sched (s : State) : (s.takeTurn).sched = s.sched.tail := rfl
@[simp] theorem takeTurn_resp (s : State) : (s.takeTurn).resp = s.resp := rfl
@[simp] theorem takeTurn_keyByte (P : Params) (s : State) : keyByte P (s.takeTurn) = keyByte P s := rfl
@[simp] theorem takeTurn_half (s : State) : (s.takeTurn).half = s.half := rfl
@[simp] theorem takeTurn_busy (s : State) : (s.takeTurn).busy = s.busy := rfl

/-! ## `answer`: a host line done -/

@[simp] theorem answer_configured (rest : List HostLine) (r : Response) (s : State) : (s.answer rest r).configured = s.configured := rfl
@[simp] theorem answer_err (rest : List HostLine) (r : Response) (s : State) : (s.answer rest r).err = s.err := rfl
@[simp] theorem answer_drop (rest : List HostLine) (r : Response) (s : State) : (s.answer rest r).drop = s.drop := rfl
@[simp] theorem answer_errcode (rest : List HostLine) (r : Response) (s : State) : (s.answer rest r).errcode = s.errcode := rfl
@[simp] theorem answer_maxmsg (rest : List HostLine) (r : Response) (s : State) : (s.answer rest r).maxmsg = s.maxmsg := rfl
@[simp] theorem answer_rounds (rest : List HostLine) (r : Response) (s : State) : (s.answer rest r).rounds = s.rounds := rfl
@[simp] theorem answer_keylen (rest : List HostLine) (r : Response) (s : State) : (s.answer rest r).keylen = s.keylen := rfl
@[simp] theorem answer_keynum (rest : List HostLine) (r : Response) (s : State) : (s.answer rest r).keynum = s.keynum := rfl
@[simp] theorem answer_dataIn (rest : List HostLine) (r : Response) (s : State) : (s.answer rest r).dataIn = s.dataIn := rfl
@[simp] theorem answer_dataOut (rest : List HostLine) (r : Response) (s : State) : (s.answer rest r).dataOut = s.dataOut := rfl
@[simp] theorem answer_actMaxmsg (rest : List HostLine) (r : Response) (s : State) : (s.answer rest r).actMaxmsg = s.actMaxmsg := rfl
@[simp] theorem answer_actRounds (rest : List HostLine) (r : Response) (s : State) : (s.answer rest r).actRounds = s.actRounds := rfl
@[simp] theorem answer_actV (rest : List HostLine) (r : Response) (s : State) : (s.answer rest r).actV = s.actV := rfl
@[simp] theorem answer_actL (rest : List HostLine) (r : Response) (s : State) : (s.answer rest r).actL = s.actL := rfl
@[simp] theorem answer_irqEn (rest : List HostLine) (r : Response) (s : State) : (s.answer rest r).irqEn = s.irqEn := rfl
@[simp] theorem answer_irqPend (rest : List HostLine) (r : Response) (s : State) : (s.answer rest r).irqPend = s.irqPend := rfl
@[simp] theorem answer_hashcnt (rest : List HostLine) (r : Response) (s : State) : (s.answer rest r).hashcnt = s.hashcnt := rfl
@[simp] theorem answer_keymem (rest : List HostLine) (r : Response) (s : State) : (s.answer rest r).keymem = s.keymem := rfl
@[simp] theorem answer_fsm (rest : List HostLine) (r : Response) (s : State) : (s.answer rest r).fsm = s.fsm := rfl
@[simp] theorem answer_dir (rest : List HostLine) (r : Response) (s : State) : (s.answer rest r).dir = s.dir := rfl
@[simp] theorem answer_iround (rest : List HostLine) (r : Response) (s : State) : (s.answer rest r).iround = s.iround := rfl
@[simp] theorem answer_msg (rest : List HostLine) (r : Response) (s : State) : (s.answer rest r).msg = s.msg := rfl
@[simp] theorem answer_kgM (rest : List HostLine) (r : Response) (s : State) : (s.answer rest r).kgM = s.kgM := rfl
@[simp] theorem answer_kgR (rest : List HostLine) (r : Response) (s : State) : (s.answer rest r).kgR = s.kgR := rfl
@[simp] theorem answer_kgV (rest : List HostLine) (r : Response) (s : State) : (s.answer rest r).kgV = s.kgV := rfl
@[simp] theorem answer_kgL (rest : List HostLine) (r : Response) (s : State) : (s.answer rest r).kgL = s.kgL := rfl
@[simp] theorem answer_kgKey (rest : List HostLine) (r : Response) (s : State) : (s.answer rest r).kgKey = s.kgKey := rfl
@[simp] theorem answer_cacheValid (rest : List HostLine) (r : Response) (s : State) : (s.answer rest r).cacheValid = s.cacheValid := rfl
@[simp] theorem answer_cacheTag (rest : List HostLine) (r : Response) (s : State) : (s.answer rest r).cacheTag = s.cacheTag := rfl
@[simp] theorem answer_cacheData (rest : List HostLine) (r : Response) (s : State) : (s.answer rest r).cacheData = s.cacheData := rfl
@[simp] theorem answer_resets (rest : List HostLine) (r : Response) (s : State) : (s.answer rest r).resets = s.resets := rfl
@[simp] theorem answer_host (rest : List HostLine) (r : Response) (s : State) : (s.answer rest r).host = rest := rfl
@[simp] theorem answer_sched (rest : List HostLine) (r : Response) (s : State) : (s.answer rest r).sched = s.sched := rfl
@[simp] theorem answer_resp (rest : List HostLine) (r : Response) (s : State) : (s.answer rest r).resp = r := rfl
@[simp] theorem answer_keyByte (P : Params) (rest : List HostLine) (r : Response) (s : State) : keyByte P (s.answer rest r) = keyByte P s := rfl
@[simp] theorem answer_half (rest : List HostLine) (r : Response) (s : State) : (s.answer rest r).half = s.half := rfl
@[simp] theorem answer_busy (rest : List HostLine) (r : Response) (s : State) : (s.answer rest r).busy = s.busy := rfl

/-! ## `memWrite`: KEYMEM bytes stored -/

@[simp] theorem memWrite_configured (P : Params) (a : Nat) (bs : List Byte) (s : State) : (memWrite P a bs s).configured = s.configured := rfl
@[simp] theorem memWrite_err (P : Params) (a : Nat) (bs : List Byte) (s : State) : (memWrite P a bs s).err = s.err := rfl
@[simp] theorem memWrite_drop (P : Params) (a : Nat) (bs : List Byte) (s : State) : (memWrite P a bs s).drop = s.drop := rfl
@[simp] theorem memWrite_errcode (P : Params) (a : Nat) (bs : List Byte) (s : State) : (memWrite P a bs s).errcode = s.errcode := rfl
@[simp] theorem memWrite_maxmsg (P : Params) (a : Nat) (bs : List Byte) (s : State) : (memWrite P a bs s).maxmsg = s.maxmsg := rfl
@[simp] theorem memWrite_rounds (P : Params) (a : Nat) (bs : List Byte) (s : State) : (memWrite P a bs s).rounds = s.rounds := rfl
@[simp] theorem memWrite_keylen (P : Params) (a : Nat) (bs : List Byte) (s : State) : (memWrite P a bs s).keylen = s.keylen := rfl
@[simp] theorem memWrite_keynum (P : Params) (a : Nat) (bs : List Byte) (s : State) : (memWrite P a bs s).keynum = s.keynum := rfl
@[simp] theorem memWrite_dataIn (P : Params) (a : Nat) (bs : List Byte) (s : State) : (memWrite P a bs s).dataIn = s.dataIn := rfl
@[simp] theorem memWrite_dataOut (P : Params) (a : Nat) (bs : List Byte) (s : State) : (memWrite P a bs s).dataOut = s.dataOut := rfl
@[simp] theorem memWrite_actMaxmsg (P : Params) (a : Nat) (bs : List Byte) (s : State) : (memWrite P a bs s).actMaxmsg = s.actMaxmsg := rfl
@[simp] theorem memWrite_actRounds (P : Params) (a : Nat) (bs : List Byte) (s : State) : (memWrite P a bs s).actRounds = s.actRounds := rfl
@[simp] theorem memWrite_actV (P : Params) (a : Nat) (bs : List Byte) (s : State) : (memWrite P a bs s).actV = s.actV := rfl
@[simp] theorem memWrite_actL (P : Params) (a : Nat) (bs : List Byte) (s : State) : (memWrite P a bs s).actL = s.actL := rfl
@[simp] theorem memWrite_irqEn (P : Params) (a : Nat) (bs : List Byte) (s : State) : (memWrite P a bs s).irqEn = s.irqEn := rfl
@[simp] theorem memWrite_irqPend (P : Params) (a : Nat) (bs : List Byte) (s : State) : (memWrite P a bs s).irqPend = s.irqPend := rfl
@[simp] theorem memWrite_hashcnt (P : Params) (a : Nat) (bs : List Byte) (s : State) : (memWrite P a bs s).hashcnt = s.hashcnt := rfl
@[simp] theorem memWrite_keymem (P : Params) (a : Nat) (bs : List Byte) (s : State) :
    (memWrite P a bs s).keymem = Memory.writeBytes (drawOf P s) a bs s.keymem := rfl
@[simp] theorem memWrite_fsm (P : Params) (a : Nat) (bs : List Byte) (s : State) : (memWrite P a bs s).fsm = s.fsm := rfl
@[simp] theorem memWrite_dir (P : Params) (a : Nat) (bs : List Byte) (s : State) : (memWrite P a bs s).dir = s.dir := rfl
@[simp] theorem memWrite_iround (P : Params) (a : Nat) (bs : List Byte) (s : State) : (memWrite P a bs s).iround = s.iround := rfl
@[simp] theorem memWrite_msg (P : Params) (a : Nat) (bs : List Byte) (s : State) : (memWrite P a bs s).msg = s.msg := rfl
@[simp] theorem memWrite_kgM (P : Params) (a : Nat) (bs : List Byte) (s : State) : (memWrite P a bs s).kgM = s.kgM := rfl
@[simp] theorem memWrite_kgR (P : Params) (a : Nat) (bs : List Byte) (s : State) : (memWrite P a bs s).kgR = s.kgR := rfl
@[simp] theorem memWrite_kgV (P : Params) (a : Nat) (bs : List Byte) (s : State) : (memWrite P a bs s).kgV = s.kgV := rfl
@[simp] theorem memWrite_kgL (P : Params) (a : Nat) (bs : List Byte) (s : State) : (memWrite P a bs s).kgL = s.kgL := rfl
@[simp] theorem memWrite_kgKey (P : Params) (a : Nat) (bs : List Byte) (s : State) : (memWrite P a bs s).kgKey = s.kgKey := rfl
@[simp] theorem memWrite_cacheValid (P : Params) (a : Nat) (bs : List Byte) (s : State) : (memWrite P a bs s).cacheValid = s.cacheValid := rfl
@[simp] theorem memWrite_cacheTag (P : Params) (a : Nat) (bs : List Byte) (s : State) : (memWrite P a bs s).cacheTag = s.cacheTag := rfl
@[simp] theorem memWrite_cacheData (P : Params) (a : Nat) (bs : List Byte) (s : State) : (memWrite P a bs s).cacheData = s.cacheData := rfl
@[simp] theorem memWrite_resets (P : Params) (a : Nat) (bs : List Byte) (s : State) : (memWrite P a bs s).resets = s.resets := rfl
@[simp] theorem memWrite_host (P : Params) (a : Nat) (bs : List Byte) (s : State) : (memWrite P a bs s).host = s.host := rfl
@[simp] theorem memWrite_sched (P : Params) (a : Nat) (bs : List Byte) (s : State) : (memWrite P a bs s).sched = s.sched := rfl
@[simp] theorem memWrite_resp (P : Params) (a : Nat) (bs : List Byte) (s : State) : (memWrite P a bs s).resp = s.resp := rfl
@[simp] theorem memWrite_half (P : Params) (a : Nat) (bs : List Byte) (s : State) : (memWrite P a bs s).half = s.half := rfl
@[simp] theorem memWrite_busy (P : Params) (a : Nat) (bs : List Byte) (s : State) : (memWrite P a bs s).busy = s.busy := rfl

end Sys2Proof.Machine.State
end

