-- ==== Sys2Proof/Laws/Memory.lean ====
section
/-! SUPPORT. Key memory: read after write, what a write leaves, and that every operation keeps the canonical form. -/

namespace Sys2Proof.Machine.Memory

variable (draw : Nat → Byte)

theorem wfFrom_mono {lo lo' : Nat} (h : lo' ≤ lo) : ∀ {m : Memory}, wfFrom draw lo m = true → wfFrom draw lo' m = true
  | [], _ => rfl
  | (a, v) :: m, hm => by
    simp only [wfFrom, Bool.and_eq_true, decide_eq_true_eq] at hm ⊢
    exact ⟨⟨le_trans h hm.1.1, hm.1.2⟩, hm.2⟩

/-- Below the first listed address everything reads as the draw. -/
theorem read_below : ∀ {m : Memory} {lo a : Nat}, wfFrom draw lo m = true → a < lo → read draw m a = draw a
  | [], _, _, _, _ => rfl
  | (b, v) :: m, lo, a, hm, ha => by
    simp only [wfFrom, Bool.and_eq_true, decide_eq_true_eq] at hm
    rw [read, if_neg (by omega)]
    exact read_below hm.2 (by omega)

theorem read_write_same : ∀ {m : Memory} {lo : Nat} (a : Nat) (v : Byte), wfFrom draw lo m = true →
    read draw (write draw a v m) a = v
  | [], _, a, v, _ => by
    by_cases h : v = draw a <;> simp [write, read, h]
  | (b, w) :: m, lo, a, v, hm => by
    simp only [wfFrom, Bool.and_eq_true, decide_eq_true_eq] at hm
    rcases lt_trichotomy a b with h | h | h
    · by_cases hv : v = draw a
      · rw [write, if_pos h, if_pos hv, read, if_neg (by omega), read_below draw hm.2 (by omega), hv]
      · simp [write, h, hv, read]
    · subst h
      by_cases hv : v = draw a
      · rw [write, if_neg (lt_irrefl a), if_pos rfl, if_pos hv, read_below draw hm.2 (by omega), hv]
      · simp [write, hv, read]
    · rw [write, if_neg (by omega), if_neg (by omega), read, if_neg (by omega)]
      exact read_write_same a v hm.2

theorem read_write_other : ∀ (m : Memory) {a b : Nat} (v : Byte), b ≠ a →
    read draw (write draw a v m) b = read draw m b
  | [], a, b, v, h => by
    by_cases hv : v = draw a <;> simp [write, read, hv, h]
  | (c, w) :: m, a, b, v, h => by
    rcases lt_trichotomy a c with hc | hc | hc
    · by_cases hv : v = draw a
      · rw [write, if_pos hc, if_pos hv]
      · rw [write, if_pos hc, if_neg hv, read, if_neg h]
    · subst hc
      by_cases hv : v = draw a
      · rw [write, if_neg (lt_irrefl a), if_pos rfl, if_pos hv, read, if_neg h]
      · rw [write, if_neg (lt_irrefl a), if_pos rfl, if_neg hv, read, if_neg h, read, if_neg h]
    · rw [write, if_neg (by omega), if_neg (by omega), read, read, read_write_other m v h]

/-- A write keeps the canonical form. -/
theorem wfFrom_write : ∀ {m : Memory} {lo : Nat} (a : Nat) (v : Byte), lo ≤ a → wfFrom draw lo m = true →
    wfFrom draw lo (write draw a v m) = true
  | [], lo, a, v, hlo, _ => by
    by_cases hv : v = draw a <;> simp [write, wfFrom, hv, hlo]
  | (b, w) :: m, lo, a, v, hlo, hm => by
    have hm' := hm
    simp only [wfFrom, Bool.and_eq_true, decide_eq_true_eq] at hm
    rcases lt_trichotomy a b with h | h | h
    · by_cases hv : v = draw a
      · rw [write, if_pos h, if_pos hv]; exact hm'
      · rw [write, if_pos h, if_neg hv]
        simp only [wfFrom, Bool.and_eq_true, decide_eq_true_eq]
        exact ⟨⟨hlo, hv⟩, ⟨by omega, hm.1.2⟩, hm.2⟩
    · subst h
      by_cases hv : v = draw a
      · rw [write, if_neg (lt_irrefl a), if_pos rfl, if_pos hv]
        exact wfFrom_mono draw (by omega) hm.2
      · rw [write, if_neg (lt_irrefl a), if_pos rfl, if_neg hv]
        simp only [wfFrom, Bool.and_eq_true, decide_eq_true_eq]
        exact ⟨⟨hlo, hv⟩, hm.2⟩
    · rw [write, if_neg (by omega), if_neg (by omega)]
      simp only [wfFrom, Bool.and_eq_true, decide_eq_true_eq]
      exact ⟨hm.1, wfFrom_write a v (by omega) hm.2⟩

theorem wf_write {m : Memory} (a : Nat) (v : Byte) (h : wf draw m = true) : wf draw (write draw a v m) = true :=
  wfFrom_write draw a v (Nat.zero_le a) h

theorem wf_writeBytes : ∀ (bs : List Byte) {m : Memory} (a : Nat), wf draw m = true → wf draw (writeBytes draw a bs m) = true
  | [], _, _, h => h
  | v :: vs, _, a, h => wf_writeBytes vs (a + 1) (wf_write draw a v h)

/-- Outside the stored bytes nothing changes. -/
theorem read_writeBytes_outside : ∀ (bs : List Byte) (m : Memory) (a : Nat) {b : Nat}, b < a ∨ a + bs.length ≤ b →
    read draw (writeBytes draw a bs m) b = read draw m b
  | [], _, _, _, _ => rfl
  | v :: vs, m, a, b, h => by
    simp only [List.length_cons] at h
    rw [writeBytes, read_writeBytes_outside vs _ (a + 1) (by omega), read_write_other draw m v (by omega)]

/-- Each stored byte reads back. -/
theorem read_writeBytes_inside : ∀ (bs : List Byte) {m : Memory} (a : Nat) {j : Nat} (hj : j < bs.length),
    wf draw m = true → read draw (writeBytes draw a bs m) (a + j) = bs[j]
  | v :: vs, m, a, 0, _, h => by
    rw [writeBytes, read_writeBytes_outside draw vs _ (a + 1) (by omega)]
    exact read_write_same draw a v h
  | v :: vs, m, a, j + 1, hj, h => by
    rw [writeBytes, show a + (j + 1) = a + 1 + j by omega]
    exact read_writeBytes_inside vs (a + 1) (by simpa using hj) (wf_write draw a v h)

theorem mem_write : ∀ {m : Memory} {a : Nat} {v : Byte} {c : Host.Cell}, c ∈ write draw a v m → c ∈ m ∨ c = (a, v)
  | [], a, v, c, h => by
    by_cases hv : v = draw a
    · simp [write, hv] at h
    · simp [write, hv] at h; exact .inr h
  | (b, w) :: m, a, v, c, h => by
    rw [write] at h
    split at h
    · split at h
      · exact .inl h
      · exact (List.mem_cons.1 h).elim .inr .inl
    · split at h
      · split at h
        · exact .inl (List.mem_cons_of_mem _ h)
        · exact (List.mem_cons.1 h).elim .inr fun h => .inl (List.mem_cons_of_mem _ h)
      · rcases List.mem_cons.1 h with h | h
        · exact .inl (h ▸ List.mem_cons_self)
        · exact (mem_write h).imp_left (List.mem_cons_of_mem _)

/-- A write lists no address but the old ones and its own. -/
theorem extent_writeBytes {bound : Nat} : ∀ (bs : List Byte) {m : Memory} {a : Nat}, a + bs.length ≤ bound →
    (∀ c ∈ m, c.1 < bound) → ∀ c ∈ writeBytes draw a bs m, c.1 < bound
  | [], _, _, _, hm => hm
  | v :: vs, m, a, h, hm => by
    simp only [List.length_cons] at h
    refine extent_writeBytes vs (by omega) fun c hc => ?_
    rcases mem_write draw hc with hc | hc
    · exact hm c hc
    · subst hc; simp only; omega

end Sys2Proof.Machine.Memory
end

