-- ==== Sys2Proof/Laws/Ops.lean ====
section
/-! SUPPORT. What each shared operation can do, said once: the parameters of the machine, bytes and words, the issue request,
the commands as one body each, the FSM step, the host's turn and the step, each as a rewriting or an inversion lemma that
later proofs cite instead of unfolding the operation. -/

namespace Sys2Proof

/-! ## The machine's parameters -/

theorem Config.machine_legal : Config.machine.Legal where
  slotBytes := by simp only [Config.machine, Config.keySlotBytes]; omega
  seedBytes := by simp only [Config.machine, Config.seedBytes]; omega
  hashOut := by simp only [Config.machine, Config.hashOutBasic]; omega
  slotsMax := by simp only [Config.machine, Config.keySlotsMax]; split <;> omega
  wholeWords := by
    simp only [Params.keymemBytes, Config.machine, Config.keySlotsMax]
    split
    · rename_i h; exact h.2.2
    · omega

/-- KEYMEM holds at least the largest key-number schedule. -/
theorem Params.Legal.slots_le {P : Params} (h : P.Legal) {r : Nat} (hr : r ≤ 512) :
    r * P.keySlotBytes ≤ P.keymemBytes :=
  Nat.mul_le_mul_right _ (le_trans hr h.slotsMax.1)

/-- Every count of KEYMEM bytes fits a register. -/
theorem Params.Legal.keymemBytes_lt {P : Params} (h : P.Legal) : P.keymemBytes < 2 ^ 40 := by
  have h1 := h.slotsMax.2
  have h2 := h.slotBytes.2
  calc P.keymemBytes ≤ P.keySlotsMax * 255 := Nat.mul_le_mul_left _ h2
    _ < 2 ^ 40 := by omega

/-- A schedule that fits KEYMEM has fewer than 2^32 rounds (R7). -/
theorem Params.Legal.rounds_lt {P : Params} (h : P.Legal) {r : Nat} (hr : r * P.keySlotBytes ≤ P.keymemBytes) :
    r < 2 ^ 32 :=
  lt_of_le_of_lt (Nat.le_of_mul_le_mul_right hr (by have := h.slotBytes.1; omega)) h.slotsMax.2

/-! ## Bytes and words -/

@[simp] theorem le64_length (v : Nat) : (le64 v).length = 8 := by simp [le64]

theorem le64_getElem (v j : Nat) (hj : j < (le64 v).length) : (le64 v)[j] = BitVec.ofNat 8 (v / 2 ^ (8 * j)) := by
  simp [le64]

theorem ofLE_le64 (v : Nat) (hv : v < 2 ^ 64) : ofLE (le64 v) = v := by
  simp only [le64, List.range, List.range.loop, List.map_cons, List.map_nil, ofLE, BitVec.toNat_ofNat]
  omega

/-- The decoder on the bytes of a word is the decoder on the word. -/
@[simp] theorem decodeBytes_le64 (c : Word) : decodeBytes (le64 c.toNat) = decodeWord c := by
  rw [decodeBytes, if_pos (le64_length _), ofLE_le64 _ c.isLt, BitVec.ofNat_toNat, BitVec.setWidth_eq]

/-! ## The fields of a command word -/

/-- Every field of the one format reads back (R90, R91). -/
theorem commandWord_fields {op v level : Nat} (h1 : op < 16) (h2 : v < 2) (h3 : level < 16) :
    opOf (commandWord op v level) = op ∧ variantOf (commandWord op v level) = (v == 1) ∧
      levelOf (commandWord op v level) = level ∧ reservedOf (commandWord op v level) = 0 := by
  have e : (op + v * 16 + level * 256) % 2 ^ 64 = op + v * 16 + level * 256 := by omega
  simp only [opOf, variantOf, levelOf, reservedOf, commandWord, BitVec.toNat_ofNat, e]
  refine ⟨by omega, ?_, by omega, by omega⟩
  rw [show (op + v * 16 + level * 256) / 16 % 2 = v by omega]

namespace Machine

/-! ## Key memory through the state -/

theorem keyByte_memWrite_outside (P : Params) (s : State) (bs : List Byte) {a b : Nat}
    (h : b < a ∨ a + bs.length ≤ b) : keyByte P (memWrite P a bs s) b = keyByte P s b :=
  Memory.read_writeBytes_outside _ bs _ a h

theorem keyByte_memWrite_inside (P : Params) (s : State) (bs : List Byte) (a : Nat) {j : Nat} (hj : j < bs.length)
    (h : Memory.wf (drawOf P s) s.keymem = true) : keyByte P (memWrite P a bs s) (a + j) = bs[j] :=
  Memory.read_writeBytes_inside _ bs a hj h

@[simp] theorem memRead_length (P : Params) (s : State) (a n : Nat) : (memRead P s a n).length = n := by simp [memRead]

/-- Reads see KEYMEM only. -/
theorem memRead_congr {P : Params} {s t : State} (h : keyByte P t = keyByte P s) (a n : Nat) :
    memRead P t a n = memRead P s a n := by simp [memRead, h]

theorem keySlot_congr {P : Params} {s t : State} (h : keyByte P t = keyByte P s) (i : Nat) :
    keySlot P t i = keySlot P s i := memRead_congr h _ _

theorem basicHash_congr {P : Params} {s t : State} (h : keyByte P t = keyByte P s) (r i : Nat) :
    basicHash P t r i = basicHash P s r i := by simp [basicHash, keySlot_congr h]

theorem wideHash_congr {P : Params} {s t : State} (h : keyByte P t = keyByte P s) (a : AmortIndex) :
    wideHash P t a = wideHash P s a := by simp [wideHash, keySlot_congr h]

@[simp] theorem hash_length (P : Params) (key msg : List Byte) (n : Nat) : (hash P key msg n).length = n := by simp [hash]

@[simp] theorem expand_length (P : Params) (seed : List Byte) (n : Nat) : (expand P seed n).length = n := by simp [expand]

/-! ## Busy and locked -/

theorem State.busy_eq_false {s : State} : s.busy = false ↔ s.fsm = .idle := by simp [State.busy]

theorem State.busy_eq_true {s : State} : s.busy = true ↔ s.fsm ≠ .idle := by simp [State.busy]

theorem State.locked_eq_false {s : State} : s.locked = false ↔ s.configured = false ∧ s.fsm = .idle := by
  simp [State.locked, State.busy]

/-! ## Issue -/

theorem issueRequest_idle {body : State → State} {s : State} (h : s.fsm = .idle) :
    issueRequest body s = body (s.setDrop false) := by
  rw [issueRequest, State.busy_eq_false.2 h]; rfl

theorem issueRequest_busy {body : State → State} {s : State} (h : s.fsm ≠ .idle) :
    issueRequest body s = s.setDrop true := by
  rw [issueRequest, State.busy_eq_true.2 h]; rfl

/-- What a command does at issue, as one function; the meanings are `issueRequest` of it. -/
def commandBody : Instr → State → State
  | .config => configBody Config.machine false 0
  | .configO level => configBody Config.machine true level
  | .ckey => ckeyBody Config.machine false
  | .ckeyO => ckeyBody Config.machine true
  | .enc => encDecIssue .enc
  | .dec => encDecIssue .dec
  | .rpp => rppBody
  | .unconfig => unconfigBody

/-- Every command answers a next state: its issue request. -/
theorem exec_eq (i : Instr) (s : State) : exec i s = .next (issueRequest (commandBody i) s) := by
  cases i <;> rfl

/-- CONFIG's two ends. -/
theorem configBody_eq (P : Params) (v : Bool) (l : Nat) (s : State) :
    configBody P v l s =
      if cfgCheck P s.maxmsg.toNat s.rounds.toNat v l s.keylen.toNat = .noError then
        (s.clearConfig.activate s.maxmsg s.rounds v (BitVec.ofNat 4 l)).complete
      else s.clearConfig.raiseError (cfgCheck P s.maxmsg.toNat s.rounds.toNat v l s.keylen.toNat) := by
  unfold configBody
  cases cfgCheck P s.maxmsg.toNat s.rounds.toNat v l s.keylen.toNat <;> rfl

/-- CONFIG_KEY's two ends. -/
theorem ckeyBody_eq (P : Params) (v : Bool) (s : State) :
    ckeyBody P v s =
      if cfgCheck P s.maxmsg.toNat (keyRounds s.maxmsg) v (if v then 7 else 0) P.keymemBytes = .noError then
        s.clearConfig.latchKeygen s.maxmsg (keyRounds s.maxmsg) v (BitVec.ofNat 4 (if v then 7 else 0)) s.keynum
      else s.clearConfig.raiseError
        (cfgCheck P s.maxmsg.toNat (keyRounds s.maxmsg) v (if v then 7 else 0) P.keymemBytes) := by
  unfold ckeyBody
  simp only [Config.lKey]
  cases cfgCheck P s.maxmsg.toNat (keyRounds s.maxmsg) v (if v then 7 else 0) P.keymemBytes <;> rfl

/-! ## Domain sizing -/

/-- The search answers at most its last candidate. -/
theorem ceilLog2From_le (n : Nat) : ∀ fuel k, ceilLog2From n fuel k ≤ k + fuel
  | 0, k => le_refl k
  | fuel + 1, k => by
    rw [ceilLog2From]
    split
    · omega
    · have := ceilLog2From_le n fuel (k + 1); omega

/-- The key-number path asks for at most 512 rounds. -/
theorem keyRounds_le (m : Word) : keyRounds m ≤ 512 := by
  have := ceilLog2From_le (m.toNat + 1) 64 0
  simp only [keyRounds, rpp, ceilLog2, Config.passMult]
  omega

/-! ## The FSM step -/

/-- What a bit source does to the state: nothing but HASHCNT and the cache line. -/
theorem bitSource_state (P : Params) (r i : Nat) (s : State) :
    (bitSource P r i s).2 = s ∨ (bitSource P r i s).2 = s.countHash ∨
      ∃ g d, d.length = Config.hashOutAmort ∧ (bitSource P r i s).2 = (s.fillCache g d).countHash := by
  unfold bitSource
  split
  · unfold prfAmort cacheLookup
    dsimp only
    split
    · exact .inl rfl
    · exact .inr (.inr ⟨_, _, hash_length _ _ _ _, rfl⟩)
  · exact .inr (.inl rfl)

/-- What an FSM step can do. -/
theorem fsmStep_cases {P : Params} {s t : State} (h : fsmStep P s = .next t) :
    (s.fsm = .idle ∧ t = s) ∨
    (s.fsm = .keygen ∧ keygenBytes P s ≤ P.keymemBytes ∧ t = keygenBody P s) ∨
    (s.fsm = .round ∧ roundFault P s = none ∧ s.dir = .enc ∧ t = encRoundBody P s) ∨
    (s.fsm = .round ∧ roundFault P s = none ∧ s.dir = .dec ∧ t = decRoundBody P s) := by
  unfold fsmStep at h
  split at h
  · exact .inl ⟨‹_›, (Host.Outcome.next.inj h).symm⟩
  · unfold keygenStep at h
    split at h
    · cases h
    · exact .inr (.inl ⟨‹_›, by omega, (Host.Outcome.next.inj h).symm⟩)
  · unfold roundStep at h
    split at h
    · cases h
    · split at h
      · exact .inr (.inr (.inl ⟨‹_›, ‹_›, ‹_›, (Host.Outcome.next.inj h).symm⟩))
      · exact .inr (.inr (.inr ⟨‹_›, ‹_›, ‹_›, (Host.Outcome.next.inj h).symm⟩))

/-- The state a ROUND step leaves: the bit source's writes, MSG, and the next round or the completion. -/
theorem encRoundBody_eq (P : Params) (s : State) :
    encRoundBody P s =
      if s.iround + 1 = s.actRounds.toNat then
        ((roundBit P s).2.setMsg (BitVec.ofNat 64 (encRoundWith s.half s.msg.toNat (roundBit P s).1))).completeWith
          (BitVec.ofNat 64 (encRoundWith s.half s.msg.toNat (roundBit P s).1))
      else ((roundBit P s).2.setMsg (BitVec.ofNat 64 (encRoundWith s.half s.msg.toNat (roundBit P s).1))).setIround
        (s.iround + 1) := rfl

theorem decRoundBody_eq (P : Params) (s : State) :
    decRoundBody P s =
      if s.iround = 0 then
        ((roundBit P s).2.setMsg (BitVec.ofNat 64 (decRoundWith s.half s.msg.toNat (roundBit P s).1))).completeWith
          (BitVec.ofNat 64 (decRoundWith s.half s.msg.toNat (roundBit P s).1))
      else ((roundBit P s).2.setMsg (BitVec.ofNat 64 (decRoundWith s.half s.msg.toNat (roundBit P s).1))).setIround
        (s.iround - 1) := rfl

/-! ## The host's turn -/

/-- A write to CMD: the command's issue request, or the report of an illegal word. -/
theorem writeCmd_eq (c : Word) (s : State) :
    writeCmd exec c s = .next (issueRequest
      (match decodeWord c with | .ok i => commandBody i | .error _ => State.raiseError .illegalCmd) s) := by
  unfold writeCmd
  cases decodeWord c with
  | ok i => exact exec_eq i s
  | error e => rfl

/-- What the host's turn can do when it does not fault. -/
theorem hostStep_cases {P : Params} {s t : State} (h : hostStep P exec s = .next t) :
    (s.host = [] ∧ t = s) ∨
    (∃ w o rest v, s.host = .read w o :: rest ∧ busRead P w o s = some v ∧ t = s.answer rest (.data v)) ∨
    (∃ w o v rest, s.host = .write w o v :: rest ∧ locate P w o = some (.reg .cmd) ∧
      t = issueRequest (match decodeWord v with | .ok i => commandBody i | .error _ => State.raiseError .illegalCmd)
        (s.answer rest .done)) ∨
    (∃ w o v rest g, s.host = .write w o v :: rest ∧ locate P w o = some g ∧ g ≠ .reg .cmd ∧
      t = writeTarget P v (s.answer rest .done) g) ∨
    (∃ rest, s.host = .poll :: rest ∧ t = s.answer (if s.busy then .poll :: rest else rest) (.data (statusWord s))) := by
  unfold hostStep at h
  split at h
  · exact .inl ⟨‹_›, (Host.Outcome.next.inj h).symm⟩
  · split at h
    · cases h
    · exact .inr (.inl ⟨_, _, _, _, ‹_›, ‹_›, (Host.Outcome.next.inj h).symm⟩)
  · unfold busWrite at h
    split at h
    · cases h
    · rw [writeCmd_eq] at h
      exact .inr (.inr (.inl ⟨_, _, _, _, ‹_›, ‹_›, (Host.Outcome.next.inj h).symm⟩))
    · rename_i hne hg
      exact .inr (.inr (.inr (.inl ⟨_, _, _, _, _, ‹_›, hg, hne, (Host.Outcome.next.inj h).symm⟩)))
  · exact .inr (.inr (.inr (.inr ⟨_, ‹_›, (Host.Outcome.next.inj h).symm⟩)))

/-! ## The bus map -/

/-- An access is answered exactly when it is 64 bits wide, aligned and inside the window. -/
theorem locate_eq_none {P : Params} {w o : Nat} :
    locate P w o = none ↔ (w ≠ 64 ∨ o % 8 ≠ 0) ∨ keymemBase + P.keymemBytes ≤ o := by
  unfold locate
  split
  · simp_all
  · split
    · simp_all; omega
    · split <;> simp_all

/-- The system addresses of the window are its offsets from the base. -/
theorem windowOffset_eq_some {P : Params} {a o : Nat} :
    windowOffset P a = some o ↔ a = P.tsfBase + o ∧ o < windowBytes P := by
  unfold windowOffset
  split <;> simp <;> omega

/-- An offset of KEYMEM reaches its word. -/
theorem locate_keyWord (P : Params) {k : Nat} (h : 8 * k < P.keymemBytes) :
    locate P 64 (keymemBase + 8 * k) = some (.keyWord k) := by
  unfold locate keymemBase
  rw [if_neg (by omega), if_neg (by omega), if_pos (by omega)]
  congr 2
  omega

/-- Only a KEYMEM word's offset reaches it. -/
theorem locate_eq_keyWord {P : Params} {w o k : Nat} (h : locate P w o = some (.keyWord k)) :
    w = 64 ∧ o = keymemBase + 8 * k ∧ 8 * k < P.keymemBytes := by
  unfold locate keymemBase at h
  split at h
  · cases h
  · split at h
    · unfold registerAt at h
      split at h <;> cases h
    · split at h
      · simp only [Option.some.injEq, Target.keyWord.injEq] at h
        unfold keymemBase
        omega
      · cases h

/-- A register is reached at its own offset only. -/
theorem locate_eq_reg {P : Params} {w o : Nat} {r : Reg} (h : locate P w o = some (.reg r)) : w = 64 ∧ o = r.offset := by
  unfold locate at h
  split at h
  · cases h
  · split at h
    · unfold registerAt at h
      split at h
      · rename_i h1 _ r' hf
        have := List.find?_some hf
        simp only [Option.some.injEq, Target.reg.injEq] at h
        subst h
        exact ⟨by omega, (eq_of_beq this).symm⟩
      · cases h
    · split at h <;> cases h

/-- Every register is reached at its offset. -/
theorem locate_reg (P : Params) (r : Reg) : locate P 64 r.offset = some (.reg r) := by
  cases r <;> rfl

/-! ## The step -/

theorem step_host {s : State} (h : nextTurn s = .host) : step s = hostStep Config.machine exec s.takeTurn := by
  rw [step, eventStep, h]

theorem step_fsm {s : State} (h : nextTurn s = .fsm) : step s = fsmStep Config.machine s.takeTurn := by
  rw [step, eventStep, h]

theorem step_rst {s : State} (h : nextTurn s = .rst) : step s = .next (resetEvent s.takeTurn) := by
  rw [step, eventStep, h]

/-- The turn after a command is placed by `withFetchWord` is the host's. -/
theorem nextTurn_withFetchWord (s : State) (nbits w : Nat) : nextTurn (s.withFetchWord nbits w) = .host := rfl

end Machine

end Sys2Proof
end

