-- ==== Sys2Proof/Laws/PerInstr.lean ====
section
/-! SUPPORT. Statements about every instruction, one lemma per constructor: the family EncodeLegal. -/

namespace Sys2Proof.Laws.EncodeLegal

/-- The word of a well-formed instruction meets the legality predicate of spec/30_encoding.md R93, taken as the rule
writes it. -/
def Statement (i : Instr) : Prop := i.wellFormed = true → legal (encode i) = true

theorem config : Statement .config := fun _ => by decide

theorem configO (level : Nat) : Statement (.configO level) := by
  intro h
  have hl : level < 16 := by simpa [Instr.wellFormed, Nat.lt_succ_iff] using h
  obtain ⟨h1, h2, -, h4⟩ := commandWord_fields (op := 1) (v := 1) (level := level) (by omega) (by omega) hl
  simp [legal, encode, h1, h2, h4]

theorem ckey : Statement .ckey := fun _ => by decide

theorem ckeyO : Statement .ckeyO := fun _ => by decide

theorem enc : Statement .enc := fun _ => by decide

theorem dec : Statement .dec := fun _ => by decide

theorem rpp : Statement .rpp := fun _ => by decide

theorem unconfig : Statement .unconfig := fun _ => by decide

end Sys2Proof.Laws.EncodeLegal
end

