-- ==== Sys2Proof/Tests/Slice0.lean ====
section
/-! SUPPORT. Tests of single words, single steps and single functions, their expected values taken from
spec/30_encoding.md and spec/95_test_vectors.md (the section stands at each test), and for every obligation with
hypotheses a witness that meets them. The test parameters and oracles are those of spec/95_test_vectors.md §2. -/

namespace Sys2Proof.Tests

open Sys2Proof Sys2Proof.Machine

/-! ## Well-formedness -/

/-- Smoke test: the one check refuses a level that the 4-bit field cannot hold. -/
theorem test_wellFormed_refuses : Instr.wellFormed (.configO 16) = false := by decide
theorem test_wellFormed_bounds : Instr.wellFormed (.configO 0) = true ∧ Instr.wellFormed (.configO 15) = true := by decide

/-! ## Decoding: words written out from R90 and R97, bits 11:8 L, 7:5 zero, 4 V, 3:0 OP -/

theorem test_decode_config : decodeWord 0b0000_000_0_0001 = .ok .config := by decide
theorem test_decode_configO : decodeWord 0b0101_000_1_0001 = .ok (.configO 5) := by decide
theorem test_decode_configO_top : decodeWord 0b1111_000_1_0001 = .ok (.configO 15) := by decide
theorem test_decode_ckey : decodeWord 0b0000_000_0_0010 = .ok .ckey := by decide
theorem test_decode_ckeyO : decodeWord 0b0000_000_1_0010 = .ok .ckeyO := by decide
theorem test_decode_enc : decodeWord 0b0000_000_0_0011 = .ok .enc := by decide
theorem test_decode_dec : decodeWord 0b0000_000_0_0100 = .ok .dec := by decide
theorem test_decode_rpp : decodeWord 0b0000_000_0_0101 = .ok .rpp := by decide
theorem test_decode_unconfig : decodeWord 0b0000_000_0_0110 = .ok .unconfig := by decide
/-- Each reason for rejection (§3.1). -/
theorem test_decode_rejects :
    decodeWord 0x21 = .error .reservedBits ∧ decodeWord 0x1001 = .error .reservedBits ∧
    decodeWord 0x8000000000000000 = .error .reservedBits ∧ decodeWord 0x0 = .error (.reservedOpcode 0) ∧
    decodeWord 0x7 = .error (.reservedOpcode 7) ∧ decodeWord 0xF = .error (.reservedOpcode 15) ∧
    decodeWord 0x13 = .error .variantBit ∧ decodeWord 0x103 = .error .levelField ∧
    decodeWord 0x101 = .error .levelField ∧ decodeWord 0x112 = .error .levelField ∧
    decodeWord 0x102 = .error .levelField ∧ decodeBytes [3, 0, 0, 0] = .error .notOneWord := by decide
/-- The bytes of a command, least significant first (spec/20_memory.md R64). -/
theorem test_encode_bytes : encodeBytes (.configO 7) = [0x11, 0x07, 0, 0, 0, 0, 0, 0] := by decide

/-! ## The test instrument (§2) -/

/-- The linear congruence of `H_T`. -/
def lcg (x : Nat) : Nat := (1103515245 * x + 12345) % 2 ^ 31

/-- The weighted byte sum of `H_T`, weights counted from `t`. -/
def weighted : Nat → List Byte → Nat
  | _, [] => 0
  | t, b :: bs => t * b.toNat + weighted (t + 1) bs

/-- The seed of `H_T`. -/
def testSeed (key msg : List Byte) : Nat := (weighted 1 key + 257 * weighted 1 msg) % 2 ^ 31

/-- `H_T`. -/
def testHash (key msg : List Byte) (_ j : Nat) : Byte := BitVec.ofNat 8 (Nat.repeat lcg (j + 1) (testSeed key msg) / 65536)

/-- `E_T`. -/
def testExpand (seed : List Byte) (_ k : Nat) : Byte := BitVec.ofNat 8 ((seed.getD 0 0).toNat + 7 * k)

/-- The parameters of §2.1. -/
def T : Params where
  keySlotBytes := 16
  seedBytes    := 32
  hashOutBasic := 32
  keySlotsMax  := 512
  hashByte     := testHash
  expandByte   := testExpand
  keymemDraw   := fun _ _ => 0
  tsfBase      := 0x40000000
  tsfIrqLine   := 17

theorem T_legal : T.Legal := ⟨by decide, by decide, by decide, by decide, by decide⟩

/-- Slots 0 and 1 of `pattern`. -/
def patternSlots : List Byte := (List.range 32).map fun k => BitVec.ofNat 8 (13 * k + 1)

/-- A configuration with `pattern` in KEYMEM, before round `i` of a command that holds `m`. -/
def inPattern (mx r : Word) (v : Bool) (l : BitVec 4) (d : Dir) (i : Nat) (m : Word) : State :=
  memWrite T 0 patternSlots { State.reset with
    configured := true, actMaxmsg := mx, actRounds := r, actV := v, actL := l, keylen := 384,
    fsm := .round, dir := d, iround := i, msg := m }

/-- A value of the next state. -/
def seen {α : Type} (f : State → α) : Outcome → Option α
  | .next t => some (f t)
  | _ => none

/-! ## Functions against the tables of §3 -/

/-- §3.2. -/
theorem test_rpp_table :
    [0, 1, 2, 3, 5, 6, 7, 8, 0xFF, 0x100, 0xFFFFFFFF, 0x7FFFFFFFFFFFFFFF, 0x8000000000000000, 0xFFFFFFFFFFFFFFFF].map
      (fun m : Nat => rpp (BitVec.ofNat 64 m)) = [0, 1, 2, 2, 3, 3, 3, 4, 8, 9, 32, 63, 64, 64] := by decide

/-- §3.3. -/
theorem test_cfgCheck_table :
    cfgCheck T 7 24 false 0 384 = .noError ∧ cfgCheck T 6 24 false 0 384 = .domainEven ∧
    cfgCheck T 7 24 false 0 383 = .keyShort ∧ cfgCheck T 7 0 false 0 0 = .noError ∧
    cfgCheck T 7 24 true 3 384 = .noError ∧ cfgCheck T 7 24 true 4 384 = .partition ∧
    cfgCheck T 7 24 true 0 384 = .optLevel ∧ cfgCheck T 7 24 true 8 384 = .optLevel ∧
    cfgCheck T 6 24 true 8 0 = .domainEven ∧ cfgCheck T (2 ^ 64 - 1) (2 ^ 61) false 0 8192 = .keyShort := by decide

/-- §3.4: the first bytes of the hash and its fold, for zeros and 0, and for slot 1 of the pattern and 3. -/
theorem test_prf_basic_table :
    (hash T (List.replicate 16 0) (le64 0) 4 = [0x00, 0xdc, 0x04, 0x65]) ∧
    foldBit (hash T (List.replicate 16 0) (le64 0) 32) = false ∧
    (hash T (patternSlots.drop 16) (le64 3) 4 = [0x60, 0x63, 0x4b, 0x5f]) ∧
    foldBit (hash T (patternSlots.drop 16) (le64 3) 32) = true := by decide

/-- §3.5. -/
theorem test_amort_index_table :
    amortIndex 128 3 89 4 = ⟨1, 12, 7⟩ ∧ amortIndex 128 3 127 2 = ⟨0, 31, 11⟩ ∧ amortIndex 4 3 3 5 = ⟨1, 0, 11⟩ ∧
    amortIndex 1 1 0 5 = ⟨5, 0, 0⟩ ∧ amortIndex 128 7 127 6 = ⟨0, 1, 447⟩ ∧ amortIndex 128 7 64 13 = ⟨1, 1, 384⟩ := by
  decide

/-- The window at the base the test parameters give (spec/20_memory.md R70). -/
theorem test_window_base :
    windowOffset T 0x40000008 = some 8 ∧ windowOffset T 0x40002FFF = some 0x2FFF ∧ windowOffset T 0x40003000 = none ∧
    windowOffset T 0x3FFFFFFF = none := by decide

/-- §3.9, Bus. -/
theorem test_bus_map :
    busRead T 64 0x4 State.reset = none ∧ busRead T 32 0x8 State.reset = none ∧ busRead T 64 0x3000 State.reset = none ∧
    busRead T 64 0x2FF8 State.reset = some 0 ∧ busRead T 64 0x80 State.reset = some 0x0000020040202010 := by decide

/-! ## Commands and FSM steps, at most two tests each -/

/-- §4 P4, line 16: R = 0 and KEYLEN = 0 are accepted. -/
theorem test_config :
    (fun t => (statusWord t, t.actMaxmsg, irq t)) (configBody T false 0 { State.reset with maxmsg := 7, irqEn := true })
      = (2, 7, true) := by decide
/-- §4 P4, line 10: an even MAXMSG. -/
theorem test_config_even :
    seen statusWord (step ({ State.reset with maxmsg := 6 }.withFetchWord 64 0x1)) = some 0x304 := by decide
/-- §3.3: M = 7 at level 3. -/
theorem test_configO :
    (fun t => (statusWord t, actCfgWord t)) (configBody T true 3 { State.reset with maxmsg := 7, rounds := 24, keylen := 384 })
      = (2, 0x310) := by decide
/-- §3.9, step 4: level 8. -/
theorem test_configO_level8 :
    seen statusWord (step ({ State.reset with maxmsg := 7, rounds := 24 }.withFetchWord 64 0x811)) = some 0x404 := by
  decide
/-- §3.9: after the issue STATUS and DBG read 1. -/
theorem test_ckey :
    (fun t => (statusWord t, dbgWord t, t.kgR)) (ckeyBody T false { State.reset with maxmsg := 0xFFFFFFFFFFFFFFFF, keynum := 4 })
      = (1, 1, 512) := by decide
/-- §3.3: HALF = 63 is no multiple of 64. -/
theorem test_ckeyO_partition :
    statusWord (ckeyBody T true { State.reset with maxmsg := 125 }) = 0x504 := by decide
/-- §4 P2, lines 6 to 9, on a latch of 2 rounds: KEYLEN, ACT_ROUNDS, ACT_CFG and the first KEYMEM word. -/
theorem test_keygen_step :
    seen (fun t => (statusWord t, t.keylen, t.actRounds, actCfgWord t, keyWord T t 0))
      (fsmStep T { State.reset with fsm := .keygen, kgM := 255, kgR := 2, kgV := true, kgL := 7, kgKey := 4 })
      = some (2, 32, 2, 0x710, 0x352E272019120B04) := by decide
/-- §3.9, step 1. -/
theorem test_enc_not_configured : seen statusWord (step (State.reset.withFetchWord 64 0x3)) = some 0x204 := by decide
/-- §3.8, DBG after the issue of ENCRYPT. -/
theorem test_enc_issue :
    dbgWord (encDecIssue .enc { inPattern 7 24 true 3 .dec 0 0 with fsm := .idle, dataIn := 6 }) = 0x2 := by decide
/-- §3.8, DBG after the issue of DECRYPT. -/
theorem test_dec_issue :
    dbgWord (encDecIssue .dec { inPattern 7 24 true 3 .enc 0 0 with fsm := .idle, dataIn := 2 }) = 0x0000001700000006 := by
  decide
/-- §3.9, step 9: DATA_IN above the domain. -/
theorem test_dec_domain_input :
    statusWord (encDecIssue .dec { inPattern 7 24 true 3 .enc 0 0 with fsm := .idle, dataIn := 8 }) = 0x706 := by decide
/-- §3.8, T1, ENCRYPT rounds 0 and 1. -/
theorem test_enc_round_basic :
    seen (fun t => (t.msg, t.iround, t.hashcnt)) (fsmStep T (inPattern 7 24 false 0 .enc 0 5)) = some (2, 1, 1) ∧
    seen (fun t => (t.msg, t.iround, t.hashcnt)) (fsmStep T (inPattern 7 24 false 0 .enc 1 2)) = some (4, 2, 1) := by
  decide
/-- §3.8, T1, DECRYPT rounds 1 and 0; round 0 completes. -/
theorem test_dec_round_basic :
    seen (fun t => (t.msg, t.iround, t.hashcnt)) (fsmStep T (inPattern 7 24 false 0 .dec 1 4)) = some (2, 0, 1) ∧
    seen (fun t => (statusWord t, t.dataOut)) (fsmStep T (inPattern 7 24 false 0 .dec 0 2)) = some (2, 5) := by
  decide
/-- §3.8, T2, ENCRYPT rounds 0 (a miss) and 1 (a hit on the line e2 06 …), and DBG after the first. -/
theorem test_enc_round_optimized :
    seen (fun t => (t.msg, dbgWord t, t.hashcnt, t.cacheData.take 2))
      (fsmStep T (inPattern 7 24 true 3 .enc 0 6)) = some (5, 0x000000010000000A, 1, [0xe2, 0x06]) ∧
    seen (fun t => (t.msg, t.hashcnt)) (fsmStep T { inPattern 7 24 true 3 .enc 1 5 with
      cacheValid := true, cacheTag := 0, cacheData := [0xe2, 0x06] }) = some (2, 0) := by decide
/-- §3.8, T2, DECRYPT round 5 (a miss on slot 1). -/
theorem test_dec_round_optimized :
    seen (fun t => (t.msg, t.hashcnt)) (fsmStep T (inPattern 7 24 true 3 .dec 5 1)) = some (4, 1) := by decide
/-- §4 P4, lines 3 to 5. -/
theorem test_rpp :
    seen (fun t => (t.dataOut, t.irqPend, t.err)) (step ({ State.reset with maxmsg := 0xFFFFFFFFFFFFFFFF }.withFetchWord 64 0x5))
      = some (0x40, true, false) := by decide
/-- §4 P2, lines 19 and on: the configuration is gone, KEYLEN and the cache stay. -/
theorem test_unconfig :
    seen (fun t => (statusWord t, t.actMaxmsg, actCfgWord t, t.keylen, dbgWord t))
      (step ({ State.reset with
        configured := true, actMaxmsg := 255, actRounds := 64, actV := true, actL := 7, keylen := 0x400,
        cacheValid := true }.withFetchWord 64 0x6)) = some (0, 0, 0, 0x400, 8) := by decide
/-- §3.1: an illegal word from reset, and while configured. -/
theorem test_illegal_word :
    seen statusWord (step (State.reset.withFetchWord 64 0x13)) = some 0x104 ∧
    seen statusWord (step ({ State.reset with configured := true }.withFetchWord 64 0x13)) = some 0x106 := by decide
/-- §3.9, step 10: a command written while BUSY. -/
theorem test_dropped_command :
    seen statusWord (step ({ inPattern 7 24 false 0 .enc 0 5 with err := true, errcode := .domainInput }.withFetchWord 64 0x4))
      = some 0x70F := by decide

/-! ## States for the witnesses -/

/-- The host's turn, with one line left. -/
def hostTurn (l : HostLine) (s : State) : State := { s with host := [l], sched := [.host] }

/-- An FSM turn. -/
def fsmTurn (s : State) : State := { s with sched := [.fsm] }

/-- A reset. -/
def rstTurn (s : State) : State := { s with sched := [.rst] }

theorem hostTurn_does (l : HostLine) (s : State) : HostDoes (hostTurn l s) l [] := ⟨rfl, rfl⟩

/-- A busy block: an ENCRYPT between rounds. -/
def busyState : State := { State.reset with fsm := .round }

/-- An active configuration of the machine: M = 127, `r` rounds, all of KEYMEM valid, DATA_IN = 127. -/
def active (r : Word) (v : Bool) (l : BitVec 4) : State :=
  { State.reset with
    configured := true, actMaxmsg := 127, actRounds := r, actV := v, actL := l,
    keylen := BitVec.ofNat 64 Config.machine.keymemBytes, dataIn := 127 }

/-- The same, running an ENCRYPT or DECRYPT that holds `m`, before round `i`. -/
def runningAt (r : Word) (v : Bool) (l : BitVec 4) (d : Dir) (i : Nat) (m : Word) : State :=
  fsmTurn { active r v l with fsm := .round, dir := d, iround := i, msg := m }

/-- A CONFIG_KEY of the machine that waits for its KEYGEN step. -/
def waiting : State := fsmTurn { State.reset with fsm := .keygen, kgM := 127, kgR := 56, kgV := true, kgL := 7, kgKey := 4 }

theorem keymemBytes_ge : 512 ≤ Config.machine.keymemBytes :=
  calc 512 ≤ 512 * Config.machine.keySlotBytes := by have := Config.machine_legal.slotBytes.1; omega
    _ ≤ Config.machine.keymemBytes := Config.machine_legal.slots_le (le_refl _)

theorem keylen_all : (BitVec.ofNat 64 Config.machine.keymemBytes).toNat = Config.machine.keymemBytes := by
  have := Config.machine_legal.keymemBytes_lt
  rw [BitVec.toNat_ofNat]; omega

theorem short_not {r : Nat} (h : r ≤ 512) : ¬Config.machine.keymemBytes < r * Config.machine.keySlotBytes :=
  not_lt.2 (Config.machine_legal.slots_le h)

theorem active_checked {r : Word} {v : Bool} {l : BitVec 4} (hr : r.toNat ≤ 512)
    (hl : (v = true ∧ 1 ≤ l.toNat ∧ l.toNat ≤ 7) ∨ (v = false ∧ l = 0)) :
    cfgCheck Config.machine 127 r.toNat v l.toNat Config.machine.keymemBytes = .noError := by
  have h3 := short_not hr
  rcases hl with ⟨rfl, h1, h2⟩ | ⟨rfl, rfl⟩
  · have ok : levelOk l.toNat = true ∧ partitionOk 127 l.toNat = true := by
      generalize l.toNat = k at h1 h2
      interval_cases k <;> decide
    simp [cfgCheck, ok.1, ok.2, h3]
  · simp [cfgCheck, h3]

/-- The witnesses are states of the invariant. -/
theorem active_inv {r : Word} {v : Bool} {l : BitVec 4} (hr : r.toNat ≤ 512)
    (hl : (v = true ∧ 1 ≤ l.toNat ∧ l.toNat ≤ 7) ∨ (v = false ∧ l = 0)) : Inv Config.machine (active r v l) where
  keymemWf := rfl
  keymemExtent := by simp [active, State.reset]
  keylenBound := by rw [active, keylen_all]
  errMatches := by simp [active, State.reset]
  activeChecked := fun _ => by
    refine ⟨?_, fun h => ?_⟩
    · rw [active, keylen_all]; exact active_checked hr hl
    · rcases hl with ⟨h', _⟩ | ⟨_, h'⟩
      · simp_all [active]
      · exact h'
  inactiveZero := fun h => by simp [active] at h
  roundInBounds := fun h => by simp [active, State.reset] at h
  keygenChecked := fun h => by simp [active, State.reset] at h
  cacheWidth := fun h => by simp [active, State.reset] at h

theorem runningAt_inv {r : Word} {v : Bool} {l : BitVec 4} {d : Dir} {i : Nat} {m : Word} (hr : r.toNat ≤ 512)
    (hl : (v = true ∧ 1 ≤ l.toNat ∧ l.toNat ≤ 7) ∨ (v = false ∧ l = 0)) (hi : i < r.toNat) (hm : m.toNat ≤ 127) :
    Inv Config.machine (runningAt r v l d i m) :=
  have h := active_inv hr hl
  { keymemWf := h.keymemWf, keymemExtent := h.keymemExtent, keylenBound := h.keylenBound, errMatches := h.errMatches,
    activeChecked := h.activeChecked, inactiveZero := h.inactiveZero, roundInBounds := fun _ => ⟨rfl, hi, hm⟩,
    keygenChecked := fun h => by simp [runningAt, fsmTurn] at h, cacheWidth := h.cacheWidth }

theorem reset_inv : Inv Config.machine State.reset := by
  constructor <;> simp [State.reset, Memory.wf, Memory.wfFrom]

theorem waiting_inv : Inv Config.machine waiting where
  keymemWf := rfl
  keymemExtent := by simp [waiting, fsmTurn, State.reset]
  keylenBound := by simp [waiting, fsmTurn, State.reset]
  errMatches := by simp [waiting, fsmTurn, State.reset]
  activeChecked := fun h => by simp [waiting, fsmTurn, State.reset] at h
  inactiveZero := fun _ => ⟨rfl, rfl, rfl, rfl⟩
  roundInBounds := fun h => by simp [waiting, fsmTurn] at h
  keygenChecked := fun _ => ⟨rfl, by decide, rfl, active_checked (r := 56) (v := true) (l := 7) (by decide) (by decide)⟩
  cacheWidth := fun h => by simp [waiting, fsmTurn, State.reset] at h

/-- The first ROUND step of the witness with three rounds meets its requirements. -/
theorem runningAt_fault : roundFault Config.machine (runningAt 3 true 7 .enc 0 127).takeTurn = none := by
  have hk : ¬Config.machine.keymemBytes < 1 * Config.machine.keySlotBytes := short_not (by omega)
  unfold roundFault
  rw [if_neg (by decide), if_neg (by decide)]
  exact if_neg hk

/-- The same with ERR left by the command before. -/
def afterError : State := { runningAt 3 true 7 .enc 0 127 with err := true, errcode := .domainInput }

theorem afterError_step : step afterError = .next (encRoundBody Config.machine afterError.takeTurn) := by
  rw [step_fsm rfl]
  show roundStep _ _ = _
  rw [roundStep, show roundFault Config.machine afterError.takeTurn = none from runningAt_fault]
  rfl

theorem afterError_next :
    (encRoundBody Config.machine afterError.takeTurn).err = true ∧ (encRoundBody Config.machine afterError.takeTurn).fsm = .round := by
  rw [encRoundBody_eq, if_neg (by decide)]
  rcases bitSource_state Config.machine (remainder .enc 64 127) 0 afterError.takeTurn with h | h | ⟨g, d, -, h⟩ <;>
    (constructor <;> (show _ = _; unfold roundBit; erw [h]; rfl))

/-! ## Witnesses, one per obligation with hypotheses, named after it -/

theorem witness_DecodeOfEncodeIsIdentity :
    Instr.wellFormed (.configO 15) = true ∧ Instr.wellFormed .unconfig = true := by decide

theorem witness_StepRunsTheDecodedCommand :
    HostDoes (hostTurn (.write 64 0 0x3) State.reset) (.write 64 0 0x3) [] ∧ decodeWord 0x3 = .ok .enc ∧
      decodeTableWord 64 0x711 = some (.configO 7) := ⟨hostTurn_does _ _, by decide, by decide⟩

theorem witness_IllegalWordIsReported :
    HostDoes (hostTurn (.write 64 0 0x20) State.reset) (.write 64 0 0x20) [] ∧ (∀ i, decodeWord 0x20 ≠ .ok i) ∧
      (hostTurn (.write 64 0 0x20) State.reset).fsm = .idle :=
  ⟨hostTurn_does _ _, fun i => by rw [show decodeWord 0x20 = .error .reservedBits by decide]; simp, rfl⟩

theorem witness_BusyCommandIsDropped :
    HostDoes (hostTurn (.write 64 0 0x4) busyState) (.write 64 0 0x4) [] ∧
      (hostTurn (.write 64 0 0x4) busyState).fsm ≠ .idle := ⟨hostTurn_does _ _, by decide⟩

/-- Set by a drop, cleared by an issue, cleared by a reset. -/
theorem witness_DropChangesOnlyAtCmdWrites :
    (∃ t, step (hostTurn (.write 64 0 0x4) busyState) = .next t ∧ t.drop ≠ busyState.drop) ∧
    (∃ t, step (hostTurn (.write 64 0 0x5) { State.reset with drop := true }) = .next t ∧ t.drop ≠ true) ∧
    ∃ t, step (rstTurn { State.reset with drop := true }) = .next t ∧ t.drop ≠ true :=
  ⟨⟨_, rfl, by decide⟩, ⟨_, rfl, by decide⟩, ⟨_, rfl, by decide⟩⟩

/-- Each way to fault, and the last offset of the window. -/
theorem witness_BusAccessFaultsExactlyOutsideTheWindow :
    HostDoes (hostTurn (.read 32 8) State.reset) (.read 32 8) [] ∧ (32 : Nat) ≠ 64 ∧
    HostDoes (hostTurn (.write 64 4 1) State.reset) (.write 64 4 1) [] ∧ (4 : Nat) % 8 ≠ 0 ∧
    (let o := 0x1000 + Config.machine.keymemBytes
     HostDoes (hostTurn (.read 64 o) State.reset) (.read 64 o) [] ∧ 0x1000 + Config.machine.keymemBytes ≤ o) ∧
    (let o := 0x1000 + Config.machine.keymemBytes - 8
     HostDoes (hostTurn (.read 64 o) State.reset) (.read 64 o) [] ∧ o % 8 = 0 ∧ o < 0x1000 + Config.machine.keymemBytes) := by
  have := keymemBytes_ge
  have := Config.machine_legal.wholeWords
  refine ⟨hostTurn_does _ _, by decide, hostTurn_does _ _, by decide, ⟨hostTurn_does _ _, ?_⟩, hostTurn_does _ _, ?_, ?_⟩ <;> omega

/-- The last reserved offset, the first of KEYMEM, and a poll of an idle and of a busy block. -/
theorem witness_ReadHasNoSideEffect :
    (HostDoes (hostTurn (.read 64 0xFF8) State.reset) (.read 64 0xFF8) [] ∧ 0xFF8 % 8 = 0 ∧
      0xFF8 < 0x1000 + Config.machine.keymemBytes) ∧
    (HostDoes (hostTurn (.read 64 0x1000) State.reset) (.read 64 0x1000) [] ∧ 0x1000 % 8 = 0 ∧
      0x1000 < 0x1000 + Config.machine.keymemBytes) ∧
    (HostDoes (hostTurn .poll State.reset) .poll [] ∧ (hostTurn .poll State.reset).fsm = .idle) ∧
    HostDoes (hostTurn .poll busyState) .poll [] ∧ (hostTurn .poll busyState).fsm ≠ .idle := by
  have := keymemBytes_ge
  refine ⟨⟨hostTurn_does _ _, ?_, ?_⟩, ⟨hostTurn_does _ _, ?_, ?_⟩, ⟨hostTurn_does _ _, rfl⟩, hostTurn_does _ _, by decide⟩ <;>
    omega

/-- The first and the last reserved offset. -/
theorem witness_RegisterOffsetsRead :
    (0x088 ≤ 0x088 ∧ 0x088 ≤ 0xFF8 ∧ 0x088 % 8 = 0) ∧ 0x088 ≤ 0xFF8 ∧ 0xFF8 ≤ 0xFF8 ∧ 0xFF8 % 8 = 0 := by decide

/-- The boundary values of each clause fall under no other. -/
theorem witness_StatusBits :
    (statusWord { State.reset with configured := true, drop := true, errcode := .domainInput }).getLsbD 1 = true ∧
    (statusWord { State.reset with configured := true, drop := true, errcode := .domainInput }).getLsbD 8 = true ∧
    (statusWord { State.reset with configured := true, drop := true, errcode := .domainInput }).getLsbD 11 = false := by decide

theorem witness_DbgFields : ({ busyState with iround := 2 ^ 32 - 1 } : State).iround < 2 ^ 32 := by decide

theorem witness_CfgAndParamFields : T.Legal := T_legal

/-- The first word and the last, unlocked and locked. -/
theorem witness_KeymemWordsPackTheirBytes :
    ∀ k, k = 0 ∨ k = Config.machine.keymemBytes / 8 - 1 →
      let s := hostTurn (.write 64 (0x1000 + 8 * k) 0x0102030405060708) State.reset
      HostDoes s (.write 64 (0x1000 + 8 * k) 0x0102030405060708) [] ∧ 8 * k < Config.machine.keymemBytes ∧
        Memory.wf (drawOf Config.machine s) s.keymem = true ∧ s.configured = false ∧ s.fsm = .idle ∧
        HostDoes (hostTurn (.write 64 (0x1000 + 8 * k) 5) busyState) (.write 64 (0x1000 + 8 * k) 5) [] ∧
        (hostTurn (.write 64 (0x1000 + 8 * k) 5) busyState).fsm ≠ .idle := by
  have := keymemBytes_ge
  intro k hk
  exact ⟨hostTurn_does _ _, by rcases hk with rfl | rfl <;> omega, rfl, rfl, rfl, hostTurn_does _ _,
    fun h : FsmState.round = .idle => by cases h⟩

/-- The byte KEYGEN writes at offset 0 differs from the one stored there. -/
def overwritten : State :=
  memWrite Config.machine 0 [Config.expandByte (seedOf Config.machine 4) (56 * Config.machine.keySlotBytes) 0 + 1] waiting

theorem overwritten_before :
    keyByte Config.machine overwritten 0 =
      Config.expandByte (seedOf Config.machine 4) (56 * Config.machine.keySlotBytes) 0 + 1 :=
  keyByte_memWrite_inside Config.machine waiting _ 0 (j := 0) (by simp) rfl

theorem overwritten_step : step overwritten = .next (keygenBody Config.machine overwritten.takeTurn) := by
  rw [step_fsm rfl]
  show keygenStep _ _ = _
  exact if_neg (short_not (r := 56) (by omega))

theorem overwritten_wf : Memory.wf (drawOf Config.machine overwritten) overwritten.keymem = true :=
  Memory.wf_writeBytes _ _ _ rfl

theorem overwritten_after :
    keyByte Config.machine (keygenBody Config.machine overwritten.takeTurn) 0 =
      Config.expandByte (seedOf Config.machine 4) (56 * Config.machine.keySlotBytes) 0 := by
  have hlen : 0 < (keySchedule Config.machine 4 56).length := by
    have := Config.machine_legal.slotBytes.1
    simp only [keySchedule, expand_length]; omega
  have h := keyByte_memWrite_inside Config.machine overwritten (keySchedule Config.machine 4 56) 0 hlen overwritten_wf
  refine Eq.trans h ?_
  simp only [keySchedule, expand, List.getElem_map, List.getElem_range]
  rfl

theorem overwritten_differs :
    keyByte Config.machine (keygenBody Config.machine overwritten.takeTurn) 0 ≠ keyByte Config.machine overwritten 0 := by
  rw [overwritten_after, overwritten_before]
  generalize Config.expandByte (seedOf Config.machine 4) (56 * Config.machine.keySlotBytes) 0 = b
  revert b; decide

/-- A locked write of KEYLEN and of KEYMEM, locked by each of the two bits, and a locked byte that KEYGEN changes. -/
theorem witness_KeyLock :
    (HostDoes (hostTurn (.write 64 0x020 5) { State.reset with configured := true }) (.write 64 0x020 5) [] ∧
      (hostTurn (.write 64 0x020 5) { State.reset with configured := true }).configured = true) ∧
    (HostDoes (hostTurn (.write 64 0x1000 5) busyState) (.write 64 0x1000 5) [] ∧ 0x1000 % 8 = 0 ∧ 0x1000 ≤ 0x1000 ∧
      0x1000 < 0x1000 + Config.machine.keymemBytes ∧ (hostTurn (.write 64 0x1000 5) busyState).fsm ≠ .idle) ∧
    ∃ t, step overwritten = .next t ∧ overwritten.fsm ≠ .idle ∧
      keyByte Config.machine t 0 ≠ keyByte Config.machine overwritten 0 :=
  ⟨⟨hostTurn_does _ _, rfl⟩,
    ⟨hostTurn_does _ _, by decide, by decide, by have := keymemBytes_ge; omega, by decide⟩,
    ⟨_, overwritten_step, by decide, overwritten_differs⟩⟩

theorem witness_KeymemChangesOnlyBy :
    ∃ t, step overwritten = .next t ∧ keyByte Config.machine t 0 ≠ keyByte Config.machine overwritten 0 :=
  ⟨_, overwritten_step, overwritten_differs⟩

/-- Each offset of the statement, KEYLEN unlocked. -/
theorem witness_HostWritesOperandRegisters :
    (∀ o ∈ [0x010, 0x018, 0x028, 0x030, 0x058, 0x020],
      HostDoes (hostTurn (.write 64 o 0xFFFFFFFFFFFFFFFF) State.reset) (.write 64 o 0xFFFFFFFFFFFFFFFF) []) ∧
    (hostTurn (.write 64 0x020 0xFFFFFFFFFFFFFFFF) State.reset).configured = false ∧
    (hostTurn (.write 64 0x020 0xFFFFFFFFFFFFFFFF) State.reset).fsm = .idle := ⟨fun _ _ => hostTurn_does _ _, rfl, rfl⟩

theorem witness_IrqPendIsWriteOneToClear :
    HostDoes (hostTurn (.write 64 0x060 1) { State.reset with irqPend := true }) (.write 64 0x060 1) [] := hostTurn_does _ _

theorem witness_ReadOnlyWritesAreIgnored :
    (HostDoes (hostTurn (.write 64 0x080 1) State.reset) (.write 64 0x080 1) [] ∧
      0x080 ∈ [0x008, 0x038, 0x040, 0x048, 0x050, 0x068, 0x070, 0x078, 0x080]) ∧
    HostDoes (hostTurn (.write 64 0xFF8 1) State.reset) (.write 64 0xFF8 1) [] ∧ 0x088 ≤ 0xFF8 ∧ 0xFF8 ≤ 0xFF8 ∧
      0xFF8 % 8 = 0 := ⟨⟨hostTurn_does _ _, by decide⟩, hostTurn_does _ _, by decide⟩

/-- A completion at issue, a completion by the FSM, a clear by the host and one by reset. -/
theorem witness_DoneChangesOnlyAtCompletionsAndClears :
    (∃ t, step (hostTurn (.write 64 0 0x5) State.reset) = .next t ∧ State.reset.irqPend = false ∧ t.irqPend = true) ∧
    (∃ t, step overwritten = .next t ∧ overwritten.irqPend = false ∧ t.irqPend = true) ∧
    (∃ t, step (hostTurn (.write 64 0x060 1) { State.reset with irqPend := true }) = .next t ∧ t.irqPend = false) ∧
    ∃ t, step (rstTurn { State.reset with irqPend := true }) = .next t ∧ t.irqPend = false :=
  ⟨⟨_, rfl, rfl, rfl⟩, ⟨_, overwritten_step, rfl, rfl⟩, ⟨_, rfl, rfl⟩, ⟨_, rfl, rfl⟩⟩

theorem witness_RppCommand : State.reset.fsm = .idle := rfl

/-- Every constructor and both clauses: no error with R = 0, an even domain, a level no check admits. -/
theorem witness_ConfigCommands :
    ({ State.reset with maxmsg := 7 } : State).fsm = .idle ∧
    cfgCheck Config.machine 7 0 false 0 0 = .noError ∧ cfgCheck Config.machine 7 0 true 3 0 = .noError ∧
    cfgCheck Config.machine 6 0 false 0 0 ≠ .noError ∧ cfgCheck Config.machine 7 0 true 15 0 ≠ .noError := by
  refine ⟨rfl, ?_, ?_, ?_, ?_⟩ <;> simp [cfgCheck] <;> decide

theorem witness_ConfigKeyCommands :
    State.reset.fsm = .idle ∧
    cfgCheck Config.machine 127 (rpp 127 * 8) false 0 Config.machine.keymemBytes = .noError ∧
    cfgCheck Config.machine 127 (rpp 127 * 8) true 7 Config.machine.keymemBytes = .noError ∧
    cfgCheck Config.machine 6 (rpp 6 * 8) false 0 Config.machine.keymemBytes ≠ .noError ∧
    cfgCheck Config.machine 125 (rpp 125 * 8) true 7 Config.machine.keymemBytes ≠ .noError := by
  refine ⟨rfl, active_checked (r := 56) (v := false) (l := 0) (by decide) (by decide),
    active_checked (r := 56) (v := true) (l := 7) (by decide) (by decide), ?_, ?_⟩
  · simp [cfgCheck]
  · simp [cfgCheck, show levelOk 7 = true by decide, show partitionOk 125 7 = false by decide]

theorem witness_KeyNumberPathErrors : T.Legal ∧ (1 : Word).toNat % 2 = 1 := ⟨T_legal, by decide⟩

/-- The first byte written and the first byte not written. -/
theorem witness_KeygenStepLoadsTheSchedule :
    Inv Config.machine waiting ∧ FsmDoes waiting ∧ waiting.fsm = .keygen ∧
      0 < waiting.kgR * Config.machine.keySlotBytes :=
  ⟨waiting_inv, rfl, rfl, by have := Config.machine_legal.slotBytes.1; show 0 < 56 * _; omega⟩

theorem witness_SeedLayout : T.Legal ∧ 8 < T.seedBytes := ⟨T_legal, by decide⟩

/-- A block on the key-number path, and one whose host has loaded the same bytes. -/
theorem witness_TheTwoConstructorsAgree :
    let s : State := { State.reset with maxmsg := 127, keynum := 4 }
    let n := 56 * Config.machine.keySlotBytes
    let u := memWrite Config.machine 0 (expand Config.machine (seedOf Config.machine 4) n)
      { State.reset with maxmsg := 127, rounds := 56, keylen := BitVec.ofNat 64 n }
    keyRounds s.maxmsg = 56 ∧ s.fsm = .idle ∧ u.fsm = .idle ∧ Memory.wf (drawOf Config.machine s) s.keymem = true ∧
    u.maxmsg = s.maxmsg ∧ u.rounds.toNat = 56 ∧ u.keylen.toNat = n ∧
    (∀ a, a < n → keyByte Config.machine u a = Config.expandByte (seedOf Config.machine s.keynum) n a) ∧
    cfgCheck Config.machine s.maxmsg.toNat 56 true 7 Config.machine.keymemBytes = .noError ∧
    cfgCheck Config.machine s.maxmsg.toNat 56 false 0 Config.machine.keymemBytes = .noError := by
  intro s n u
  have hn : n ≤ Config.machine.keymemBytes := Config.machine_legal.slots_le (by omega)
  have hlt := Config.machine_legal.keymemBytes_lt
  refine ⟨by decide, rfl, rfl, rfl, rfl, rfl, ?_, ?_,
    active_checked (r := 56) (v := true) (l := 7) (by decide) (by decide),
    active_checked (r := 56) (v := false) (l := 0) (by decide) (by decide)⟩
  · show (BitVec.ofNat 64 n).toNat = n
    rw [BitVec.toNat_ofNat]; omega
  · intro a ha
    have h := keyByte_memWrite_inside Config.machine
      { State.reset with maxmsg := 127, rounds := 56, keylen := BitVec.ofNat 64 n }
      (expand Config.machine (seedOf Config.machine 4) n) 0 (j := a) (by simpa using ha) rfl
    rw [Nat.zero_add] at h
    refine Eq.trans h ?_
    simp only [expand, List.getElem_map, List.getElem_range]
    rfl

theorem witness_UnconfigCommand : (active 3 false 0).fsm = .idle := rfl

theorem config_rises :
    step (hostTurn (.write 64 0 0x1) { State.reset with maxmsg := 7 }) =
      .next (configBody Config.machine false 0
        ((({ State.reset with maxmsg := 7 } : State).answer [] .done).setDrop false)) := rfl

/-- Set by CONFIG, cleared by UNCONFIG. -/
theorem witness_ConfiguredChangesOnlyBy :
    (Inv Config.machine (hostTurn (.write 64 0 0x1) { State.reset with maxmsg := 7 }) ∧
      ∃ t, step (hostTurn (.write 64 0 0x1) { State.reset with maxmsg := 7 }) = .next t ∧ t.configured = true) ∧
    Inv Config.machine (hostTurn (.write 64 0 0x6) (active 3 true 7)) ∧
      ∃ t, step (hostTurn (.write 64 0 0x6) (active 3 true 7)) = .next t ∧ t.configured = false := by
  refine ⟨⟨?_, _, config_rises, ?_⟩, ?_, _, rfl, rfl⟩
  · constructor <;> simp [hostTurn, State.reset, Memory.wf, Memory.wfFrom]
  · rw [configBody_eq, if_pos]
    · rfl
    · show cfgCheck Config.machine 7 0 false 0 0 = .noError
      simp [cfgCheck]
  · have h := active_inv (r := 3) (v := true) (l := 7) (by decide) (by decide)
    exact { keymemWf := h.keymemWf, keymemExtent := h.keymemExtent, keylenBound := h.keylenBound,
            errMatches := h.errMatches, activeChecked := h.activeChecked, inactiveZero := h.inactiveZero,
            roundInBounds := h.roundInBounds, keygenChecked := h.keygenChecked, cacheWidth := h.cacheWidth }

/-- The largest index (§3.5), and L = 1. -/
theorem witness_BitPartitioningRanges :
    (1 ≤ 7 ∧ 7 ≤ 7 ∧ 128 % 2 ^ (7 - 1) = 0 ∧ 127 < 128 ∧ 128 ≤ 2 ^ 63 ∧ 6 = 6 % 7) ∧
    1 ≤ 1 ∧ 1 % 2 ^ (1 - 1) = 0 ∧ 0 < 1 ∧ 0 = 5 % 1 := by decide

/-- A hit and a miss. -/
theorem witness_HashCacheHitAndMiss :
    (let s : State := { State.reset with cacheValid := true, cacheTag := 1, actL := 3 }
     s.cacheValid = true ∧ s.cacheTag = 5 / s.actL.toNat) ∧
    ¬(State.reset.cacheValid = true ∧ State.reset.cacheTag = 0 / State.reset.actL.toNat) := by decide

theorem witness_HashInputIsConstantInASuperRound :
    let r : Nat → Nat := fun k => 89 * 2 ^ k % 128
    1 ≤ 3 ∧ 3 ≤ 7 ∧ 1 ≤ 128 ∧ 128 % 2 ^ (3 - 1) = 0 ∧ r 0 < 128 ∧ (∀ k : Nat, 0 ≤ 1 ∧ r (k + 1) = (2 * r k + 0) % 128) ∧
      2 < 3 := by
  refine ⟨by omega, by omega, by omega, by decide, by decide, fun k => ⟨by omega, ?_⟩, by omega⟩
  show 89 * 2 ^ (k + 1) % 128 = (2 * (89 * 2 ^ k % 128) + 0) % 128
  rw [pow_succ]; omega

/-- Each of the four clauses. -/
theorem witness_EncryptAndDecryptIssue :
    (State.reset.fsm = .idle ∧ State.reset.configured = false) ∧
    (let s : State := { active 3 false 0 with dataIn := 128 }
     s.fsm = .idle ∧ s.configured = true ∧ s.actMaxmsg.toNat < s.dataIn.toNat) ∧
    ((active 0 false 0).fsm = .idle ∧ (active 0 false 0).configured = true ∧
      (active 0 false 0).dataIn.toNat ≤ (active 0 false 0).actMaxmsg.toNat ∧ (active 0 false 0).actRounds = 0) ∧
    (active 3 true 7).fsm = .idle ∧ (active 3 true 7).configured = true ∧
      (active 3 true 7).dataIn.toNat ≤ (active 3 true 7).actMaxmsg.toNat ∧ (active 3 true 7).actRounds ≠ 0 :=
  ⟨⟨rfl, rfl⟩, ⟨rfl, rfl, by decide⟩, ⟨rfl, rfl, by decide, rfl⟩, rfl, rfl, by decide, by decide⟩

/-- Encrypt in the middle and decrypt at its last round. -/
theorem witness_BasicRoundStep :
    (let s := runningAt 3 false 0 .enc 0 127
     Inv Config.machine s ∧ FsmDoes s ∧ s.fsm = .round ∧ s.actV = false ∧ ¬s.iround = s.actRounds.toNat - 1) ∧
    let s := runningAt 3 false 0 .dec 0 0
    Inv Config.machine s ∧ FsmDoes s ∧ s.fsm = .round ∧ s.actV = false ∧ s.iround = 0 :=
  ⟨⟨runningAt_inv (by decide) (by decide) (by decide) (by decide), rfl, rfl, rfl, by decide⟩,
    runningAt_inv (by decide) (by decide) (by decide) (by decide), rfl, rfl, rfl, rfl⟩

/-- A miss at the first round, and a hit at the last. -/
theorem witness_OptimizedRoundStep :
    (let s := runningAt 3 true 7 .enc 0 127
     Inv Config.machine s ∧ FsmDoes s ∧ s.fsm = .round ∧ s.actV = true ∧ ¬s.cacheValid = true) ∧
    let s : State := { runningAt 3 true 7 .enc 2 127 with cacheValid := true }
    Inv Config.machine s ∧ FsmDoes s ∧ s.fsm = .round ∧ s.actV = true ∧ s.iround = s.actRounds.toNat - 1 ∧
      s.cacheValid = true ∧ s.cacheTag = s.iround / s.actL.toNat := by
  refine ⟨⟨runningAt_inv (by decide) (by decide) (by decide) (by decide), rfl, rfl, rfl, by decide⟩, ?_, rfl, rfl, rfl,
    rfl, rfl, rfl⟩
  have h := runningAt_inv (r := 3) (v := true) (l := 7) (d := .enc) (i := 2) (m := 127) (by decide) (by decide) (by decide)
    (by decide)
  exact { keymemWf := h.keymemWf, keymemExtent := h.keymemExtent, keylenBound := h.keylenBound,
          errMatches := h.errMatches, activeChecked := h.activeChecked, inactiveZero := h.inactiveZero,
          roundInBounds := h.roundInBounds, keygenChecked := h.keygenChecked, cacheWidth := fun _ => rfl }

theorem witness_RoundsStayInTheDomainAndInvert : 5 % 2 = 1 ∧ 5 ≤ 5 := by decide

/-- The domain's last element. -/
theorem witness_EncAndDecAreInversePermutations :
    Inv Config.machine (active 3 true 7) ∧ (active 3 true 7).configured = true ∧ 127 ≤ (active 3 true 7).actMaxmsg.toNat :=
  ⟨active_inv (by decide) (by decide), rfl, by decide⟩

/-- A basic state, and an optimized configuration of the invariant with no rounds. -/
theorem witness_TwoElementDomain :
    ({ State.reset with actMaxmsg := 1, actRounds := 8 } : State).actMaxmsg = 1 ∧ 1 ≤ 1 ∧
    (let s : State := { State.reset with configured := true, actMaxmsg := 1, actV := true, actL := 1 }
     s.actMaxmsg = 1 ∧ Inv Config.machine s ∧ s.configured = true ∧ s.actV = true) := by
  refine ⟨rfl, by decide, rfl, ?_, rfl, rfl⟩
  constructor <;> simp [State.reset, Memory.wf, Memory.wfFrom, cfgCheck]
  decide

/-- Before the first of three rounds, and before the only round. -/
theorem witness_RunningCommandKeepsItsResult :
    (let s := runningAt 3 true 7 .enc 0 127
     Inv Config.machine s ∧ 127 ≤ s.actMaxmsg.toNat ∧ Running Config.machine s 127 ∧ nextTurn s = .fsm ∧
       roundsDone s + 1 < s.actRounds.toNat ∧ ∃ t, step s = .next t) ∧
    (let s := runningAt 1 false 0 .dec 0 127
     Inv Config.machine s ∧ 127 ≤ s.actMaxmsg.toNat ∧ Running Config.machine s 127 ∧ nextTurn s = .fsm ∧
       roundsDone s + 1 = s.actRounds.toNat ∧ ∃ t, step s = .next t) ∧
    let s := hostTurn (.read 64 0x8) (runningAt 3 false 0 .dec 2 127)
    Running Config.machine s 127 ∧ nextTurn s = .host ∧ ∃ t, step s = .next t := by
  refine ⟨⟨runningAt_inv (by decide) (by decide) (by decide) (by decide), by decide, ?_, rfl, by decide, ?_⟩,
    ⟨runningAt_inv (by decide) (by decide) (by decide) (by decide), by decide, ?_, rfl, by decide, ?_⟩, ?_, rfl, _, rfl⟩
  · exact { inRound := rfl, message := rfl, counted := rfl, cacheOff := fun _ _ => rfl,
            cacheTagged := fun _ h => absurd rfl h, cacheFresh := fun _ h => absurd rfl h }
  · refine ⟨encRoundBody Config.machine (runningAt 3 true 7 .enc 0 127).takeTurn, ?_⟩
    rw [step_fsm rfl]
    show roundStep _ _ = _
    rw [roundStep, runningAt_fault]; rfl
  · exact { inRound := rfl, message := rfl, counted := rfl, cacheOff := fun h => absurd h (by decide),
            cacheTagged := fun h => absurd h (by decide), cacheFresh := fun h => absurd h (by decide) }
  · refine ⟨decRoundBody Config.machine (runningAt 1 false 0 .dec 0 127).takeTurn, ?_⟩
    rw [step_fsm rfl]
    show roundStep _ _ = _
    have hk : ¬Config.machine.keymemBytes < 1 * Config.machine.keySlotBytes := short_not (by omega)
    have : roundFault Config.machine (runningAt 1 false 0 .dec 0 127).takeTurn = none := by
      unfold roundFault
      rw [if_neg (by decide), if_neg (by decide)]
      exact if_neg hk
    rw [roundStep, this]; rfl
  · exact { inRound := rfl, message := rfl, counted := rfl, cacheOff := fun h => absurd h (by decide),
            cacheTagged := fun h => absurd h (by decide), cacheFresh := fun h => absurd h (by decide) }

/-- The largest message, with rounds to run and with none. -/
theorem witness_CommandRunsToItsResult :
    ∀ r : Word, r = 3 ∨ r = 0 →
      Inv Config.machine (active r true 7) ∧ (active r true 7).fsm = .idle ∧ (active r true 7).configured = true ∧
        (active r true 7).dataIn.toNat ≤ (active r true 7).actMaxmsg.toNat ∧ (active r true 7).sched = [] := by
  intro r hr
  exact ⟨active_inv (by rcases hr with rfl | rfl <;> decide) (by decide), rfl, rfl, le_refl (127 : Word).toNat, rfl⟩

theorem witness_EncryptThenDecryptReturnsTheMessage :
    Inv Config.machine (active 3 false 0) ∧ (active 3 false 0).fsm = .idle ∧ (active 3 false 0).configured = true ∧
      (active 3 false 0).dataIn.toNat ≤ (active 3 false 0).actMaxmsg.toNat ∧ (active 3 false 0).sched = [] :=
  ⟨active_inv (by decide) (by decide), rfl, rfl, by decide, rfl⟩

theorem witness_StepKeepsInv : Inv Config.machine overwritten ∧ ∃ t, step overwritten = .next t :=
  have h := waiting_inv
  ⟨{ keymemWf := overwritten_wf
     keymemExtent := Memory.extent_writeBytes _ _ (by have := keymemBytes_ge; simp only [List.length_singleton]; omega) h.keymemExtent
     keylenBound := h.keylenBound, errMatches := h.errMatches, activeChecked := h.activeChecked,
     inactiveZero := h.inactiveZero, roundInBounds := h.roundInBounds, keygenChecked := h.keygenChecked,
     cacheWidth := h.cacheWidth }, _, overwritten_step⟩

/-- A state that steps, and one whose host access gets an ERROR response. -/
theorem witness_OnlyBusErrorsStop :
    (Inv Config.machine State.reset ∧ ∃ t, step State.reset = .next t) ∧
      Inv Config.machine (hostTurn (.read 32 8) State.reset) ∧
      step (hostTurn (.read 32 8) State.reset) = .fault (.busError 8) := by
  refine ⟨⟨reset_inv, _, rfl⟩, ?_, rfl⟩
  constructor <;> simp [hostTurn, State.reset, Memory.wf, Memory.wfFrom]

theorem witness_DataOutChangesOnlyBy :
    ∃ t, step (hostTurn (.write 64 0 0x5) { State.reset with maxmsg := 7 }) = .next t ∧ t.dataOut ≠ 0 :=
  ⟨_, rfl, by decide⟩

/-- Cleared by an issue, cleared by a reset. -/
theorem witness_HashcntChangesOnlyBy :
    (∃ t, step (hostTurn (.write 64 0 0x3) { active 3 false 0 with hashcnt := 5 }) = .next t ∧ t.hashcnt ≠ 5) ∧
    ∃ t, step (rstTurn { State.reset with hashcnt := 5 }) = .next t ∧ t.hashcnt ≠ 5 :=
  ⟨⟨_, rfl, by decide⟩, ⟨_, rfl, by decide⟩⟩

/-- An error at issue, a completion from BUSY, a step after which the block is still BUSY, and an FSM step with ERR left
from before. -/
theorem witness_ErrorsOnlyAtIssue :
    (∃ t, step (hostTurn (.write 64 0 0x13) State.reset) = .next t ∧ t.err = true) ∧
    (∃ t, step afterError = .next t ∧ FsmDoes afterError ∧ afterError.fsm ≠ .idle ∧ t.err = true ∧ t.fsm ≠ .idle) ∧
    (∃ t, step overwritten = .next t ∧ overwritten.fsm ≠ .idle ∧ t.fsm = .idle) ∧
    ∃ t, step (hostTurn (.write 64 0 0x13) busyState) = .next t ∧ busyState.fsm ≠ .idle ∧ t.fsm ≠ .idle :=
  ⟨⟨_, rfl, rfl⟩,
    ⟨_, afterError_step, rfl, by decide, afterError_next.1, by rw [afterError_next.2]; decide⟩,
    ⟨_, overwritten_step, by decide, rfl⟩, ⟨_, rfl, by decide, by decide⟩⟩

theorem witness_IssueFrame : ∀ i : Instr, ∃ t, exec i State.reset = .next t := fun i => ⟨_, exec_eq i State.reset⟩

theorem witness_OperandsAreReadAtIssueOnly : FsmDoes waiting ∧ waiting.fsm ≠ .idle := ⟨rfl, by decide⟩

theorem witness_UnspecifiedValuesAreNeverRead :
    let s : State := { State.reset with msg := 5, dir := .dec, kgKey := 9, cacheTag := 3, cacheData := [1] }
    s ≠ State.reset ∧ live s = live State.reset := by decide

theorem witness_ResetEvent : nextTurn (rstTurn busyState) = .rst := rfl

/-- The last byte of a slot, of LE64 and of an output, and a bit of the output. -/
theorem witness_SlotsAndOraclePortsByteByByte :
    15 < T.keySlotBytes ∧ 2 ^ 64 - 1 < 2 ^ 64 ∧ 7 < 8 ∧ 63 < Config.hashOutAmort ∧ ([0xe2, 0x06] : List Byte)[10 / 8]? = some 0x06 := by
  decide

/-- A read and a write of CMD by its system address. -/
theorem witness_WindowStandsAtTheBase :
    (HostProgram.readAt Config.machine 64 (Config.machine.tsfBase + 0) = some (.read 64 0) ∧
      HostDoes (hostTurn (.read 64 0) State.reset) (.read 64 0) [] ∧ 0 % 8 = 0) ∧
    HostProgram.writeAt Config.machine 64 (Config.machine.tsfBase + 0) 5 = some (.write 64 0 5) ∧
      HostDoes (hostTurn (.write 64 0 5) State.reset) (.write 64 0 5) [] := by
  have h : windowOffset Config.machine (Config.machine.tsfBase + 0) = some 0 :=
    windowOffset_eq_some.2 ⟨rfl, Nat.lt_of_lt_of_le (by decide : 0 < keymemBase) (Nat.le_add_right _ _)⟩
  exact ⟨⟨by rw [HostProgram.readAt, h]; rfl, hostTurn_does _ _, rfl⟩, by rw [HostProgram.writeAt, h]; rfl, hostTurn_does _ _⟩

end Sys2Proof.Tests
end

/-! SUPPORT. ENCRYPT and DECRYPT as runs of the machine (spec/42_shuffle.md): the round arithmetic, what the checked
configuration gives a round, the round bit behind the HashCache (spec/41_prf.md R167), one ROUND step and the run of all
of them from the CMD write, in both directions at once. -/

namespace Sys2Proof.Machine

/-! ## Round arithmetic (R191, R198, R199) -/

theorem xor_bit_le {a : Nat} (b : Bool) (ha : a ≤ 1) : a ^^^ b.toNat ≤ 1 :=
  Nat.lt_succ_iff.1 (Nat.xor_lt_two_pow (n := 1) (by omega) b.toNat_lt)

/-- The round of either direction for a given round bit. -/
def roundWith (d : Dir) (half m : Nat) (b : Bool) : Nat :=
  match d with
  | .enc => encRoundWith half m b
  | .dec => decRoundWith half m b

theorem div_half_le {half m : Nat} (hm : m < 2 * half) : m / half ≤ 1 :=
  Nat.lt_succ_iff.1 (Nat.div_lt_of_lt_mul (by omega))

theorem remainder_lt (d : Dir) {half m : Nat} (hm : m < 2 * half) : remainder d half m < half := by
  cases d with
  | enc => exact Nat.mod_lt m (by omega)
  | dec => simp only [remainder]; omega

/-- R199: no round leaves the domain. -/
theorem roundWith_lt (d : Dir) {half m : Nat} (b : Bool) (hm : m < 2 * half) : roundWith d half m b < 2 * half := by
  have hr := remainder_lt d hm
  cases d with
  | enc =>
    have hx := xor_bit_le b (div_half_le hm)
    simp only [roundWith, encRoundWith, remainder] at *
    omega
  | dec =>
    have hx := Nat.mul_le_mul_right half (xor_bit_le b (show m % 2 ≤ 1 by omega))
    simp only [roundWith, decRoundWith, remainder] at *
    omega

/-- What a decrypting round sees of an encrypted message: the remainder it came from, and the leading bit masked. -/
theorem encRoundWith_div_mod {half m : Nat} (b : Bool) (hm : m < 2 * half) :
    encRoundWith half m b / 2 = m % half ∧ encRoundWith half m b % 2 = m / half ^^^ b.toNat := by
  have hx := xor_bit_le b (div_half_le hm)
  simp only [encRoundWith]
  omega

/-- R198 for one round: the same bit undoes it. -/
theorem decRoundWith_encRoundWith {half m : Nat} (b : Bool) (hm : m < 2 * half) :
    decRoundWith half (encRoundWith half m b) b = m := by
  obtain ⟨hdiv, hmod⟩ := encRoundWith_div_mod b hm
  rw [decRoundWith, hdiv, hmod, Nat.xor_assoc, Nat.xor_self, Nat.xor_zero, Nat.mul_comm]
  exact Nat.mod_add_div m half

/-- The remainder of a decrypted message in its round's half is the remainder the round used. -/
theorem decRoundWith_mod {half m : Nat} (b : Bool) (hm : m < 2 * half) : decRoundWith half m b % half = m / 2 := by
  rw [decRoundWith, Nat.add_mul_mod_self_right]
  exact Nat.mod_eq_of_lt (by omega)

/-! ## The checked configuration -/

theorem cfgCheck_eq_noError {P : Params} {m r l kl : Nat} {v : Bool} :
    cfgCheck P m r v l kl = .noError ↔
      m % 2 = 1 ∧ (v = true → levelOk l = true ∧ partitionOk m l = true) ∧ r * P.keySlotBytes ≤ kl := by
  unfold cfgCheck
  split
  · simp; omega
  · cases v <;> cases levelOk l <;> cases partitionOk m l <;> simp <;> omega

theorem levelOk_range {l : Nat} (h : levelOk l = true) : 1 ≤ l ∧ l ≤ 7 := by
  simp only [levelOk, Bool.and_eq_true, decide_eq_true_eq] at h
  exact h.1

/-- What R130's check leaves of the active configuration for its rounds to rely on; no part of the state but the ACT
registers is in it. -/
structure CheckedConfig (P : Params) (s : State) : Prop where
  odd : s.actMaxmsg.toNat % 2 = 1
  level : s.actV = true → levelOk s.actL.toNat = true ∧ partitionOk s.actMaxmsg.toNat s.actL.toNat = true
  slots : s.actRounds.toNat * P.keySlotBytes ≤ P.keymemBytes

theorem Inv.checkedConfig {P : Params} {s : State} (h : Inv P s) (hc : s.configured = true) : CheckedConfig P s :=
  have ⟨hodd, hlevel, hslots⟩ := cfgCheck_eq_noError.1 (h.activeChecked hc).1
  ⟨hodd, hlevel, le_trans hslots h.keylenBound⟩

theorem CheckedConfig.congr {P : Params} {s t : State} (h : CheckedConfig P s) (hst : SameConfig s t) :
    CheckedConfig P t where
  odd := by rw [hst.actMaxmsg]; exact h.odd
  level := by rw [hst.actV, hst.actL, hst.actMaxmsg]; exact h.level
  slots := by rw [hst.actRounds]; exact h.slots

/-- The domain [0, M] is twice HALF. -/
theorem CheckedConfig.lt_two_half {P : Params} {s : State} (h : CheckedConfig P s) {m : Nat} :
    m < 2 * s.half ↔ m ≤ s.actMaxmsg.toNat := by
  have := h.odd
  simp only [State.half]
  omega

theorem CheckedConfig.level_pos {P : Params} {s : State} (h : CheckedConfig P s) (hv : s.actV = true) :
    1 ≤ s.actL.toNat := (levelOk_range (h.level hv).1).1

/-- The PARTITION check (R163): the projector divides HALF exactly. -/
theorem CheckedConfig.two_pow_dvd_half {P : Params} {s : State} (h : CheckedConfig P s) (hv : s.actV = true) :
    2 ^ (s.actL.toNat - 1) ∣ s.half :=
  Nat.dvd_of_mod_eq_zero (by simpa [partitionOk, State.half] using (h.level hv).2)

/-- A round inside the configuration faults on nothing. -/
theorem CheckedConfig.roundFault_eq_none {P : Params} {s : State} (h : CheckedConfig P s)
    (hm : s.msg.toNat ≤ s.actMaxmsg.toNat) (hi : s.iround < s.actRounds.toNat) : roundFault P s = none := by
  have hslot : slotOfRound s s.iround ≤ s.iround := by
    unfold slotOfRound
    split
    · exact Nat.div_le_self _ _
    · exact le_refl _
  have hmem : (slotOfRound s s.iround + 1) * P.keySlotBytes ≤ P.keymemBytes :=
    le_trans (Nat.mul_le_mul_right _ (by omega)) h.slots
  have hlevel : (s.actV && !(levelOk s.actL.toNat && partitionOk s.actMaxmsg.toNat s.actL.toNat)) = false := by
    cases hv : s.actV
    · rfl
    · simp [h.level hv]
  rw [roundFault, if_neg (by omega), hlevel, if_neg Bool.false_ne_true, if_neg (by omega)]

/-! ## The configuration's permutation, in both directions -/

/-- ENC's `m_k` or DEC's `y_{R−k}`: the message after the first `k` rounds of the direction (R193, R197). -/
def messageAfter (P : Params) (s : State) (d : Dir) (x k : Nat) : Nat :=
  match d with
  | .enc => encUpTo P s x k
  | .dec => decDownFrom P s x k

/-- The round that the direction does after `k` others (R200). -/
def roundAfter (s : State) (d : Dir) (k : Nat) : Nat :=
  match d with
  | .enc => k
  | .dec => s.actRounds.toNat - 1 - k

theorem messageAfter_zero (P : Params) (s : State) (d : Dir) (x : Nat) : messageAfter P s d x 0 = x := by
  cases d <;> rfl

theorem messageAfter_succ (P : Params) (s : State) (d : Dir) (x k : Nat) :
    messageAfter P s d x (k + 1) =
      roundWith d s.half (messageAfter P s d x k)
        (freshBit P s (remainder d s.half (messageAfter P s d x k)) (roundAfter s d k)) := by
  cases d <;> rfl

theorem messageAt_eq (P : Params) (s : State) (x : Nat) :
    messageAt P s x = messageAfter P s s.dir x (roundsDone s) := by
  unfold messageAt messageAfter; cases s.dir <;> rfl

theorem resultOf_eq (P : Params) (s : State) (d : Dir) (x : Nat) :
    resultOf P s d x = messageAfter P s d x s.actRounds.toNat := by
  cases d <;> rfl

/-- The permutation is one of the configuration and KEYMEM only. -/
theorem freshBit_congr {P : Params} {s t : State} (hc : SameConfig s t) (hk : SameKeymem P s t) (r i : Nat) :
    freshBit P t r i = freshBit P s r i := by
  have hk' : keyByte P t = keyByte P s := funext hk
  simp only [freshBit, State.half, hc.actV, hc.actL, hc.actMaxmsg, wideHash_congr hk', basicHash_congr hk']

theorem messageAfter_congr {P : Params} {s t : State} (hc : SameConfig s t) (hk : SameKeymem P s t) (d : Dir) (x : Nat) :
    ∀ k, messageAfter P t d x k = messageAfter P s d x k
  | 0 => by rw [messageAfter_zero, messageAfter_zero]
  | k + 1 => by
    have hround : roundAfter t d k = roundAfter s d k := by cases d <;> simp only [roundAfter, hc.actRounds]
    have hhalf : t.half = s.half := by simp only [State.half, hc.actMaxmsg]
    rw [messageAfter_succ, messageAfter_succ, messageAfter_congr hc hk d x k, freshBit_congr hc hk, hround, hhalf]

theorem resultOf_congr {P : Params} {s t : State} (hc : SameConfig s t) (hk : SameKeymem P s t) (d : Dir) (x : Nat) :
    resultOf P t d x = resultOf P s d x := by
  rw [resultOf_eq, resultOf_eq, messageAfter_congr hc hk, hc.actRounds]

/-- R199 along a whole command. -/
theorem CheckedConfig.messageAfter_le {P : Params} {s : State} (h : CheckedConfig P s) (d : Dir) {x : Nat}
    (hx : x ≤ s.actMaxmsg.toNat) : ∀ k, messageAfter P s d x k ≤ s.actMaxmsg.toNat
  | 0 => by rw [messageAfter_zero]; exact hx
  | k + 1 => by
    rw [messageAfter_succ]
    exact h.lt_two_half.1 (roundWith_lt d _ (h.lt_two_half.2 (h.messageAfter_le d hx k)))

theorem CheckedConfig.resultOf_le {P : Params} {s : State} (h : CheckedConfig P s) (d : Dir) {x : Nat}
    (hx : x ≤ s.actMaxmsg.toNat) : resultOf P s d x ≤ s.actMaxmsg.toNat := by
  rw [resultOf_eq]; exact h.messageAfter_le d hx _

/-- R198 for one round of the configuration: the mirrored round undoes it, since it sees the same remainder. -/
theorem CheckedConfig.decRound_encRound {P : Params} {s : State} (h : CheckedConfig P s) {m : Nat} (i : Nat)
    (hm : m ≤ s.actMaxmsg.toNat) : decRound P s (encRound P s m i) i = m := by
  have hm' := h.lt_two_half.2 hm
  rw [decRound, encRound, (encRoundWith_div_mod _ hm').1]
  exact decRoundWith_encRoundWith _ hm'

/-- Each decrypting round takes back the last encrypting round that is left. -/
theorem CheckedConfig.decDownFrom_encOf {P : Params} {s : State} (h : CheckedConfig P s) {x : Nat}
    (hx : x ≤ s.actMaxmsg.toNat) :
    ∀ k, k ≤ s.actRounds.toNat → decDownFrom P s (encOf P s x) k = encUpTo P s x (s.actRounds.toNat - k)
  | 0, _ => rfl
  | k + 1, hk => by
    obtain ⟨j, hj⟩ : ∃ j, s.actRounds.toNat - k = j + 1 := ⟨s.actRounds.toNat - k - 1, by omega⟩
    rw [decDownFrom, h.decDownFrom_encOf hx k (by omega), hj, encUpTo, show s.actRounds.toNat - 1 - k = j by omega,
      show s.actRounds.toNat - (k + 1) = j by omega]
    exact h.decRound_encRound j (h.messageAfter_le .enc hx j)

theorem CheckedConfig.decOf_encOf {P : Params} {s : State} (h : CheckedConfig P s) {x : Nat}
    (hx : x ≤ s.actMaxmsg.toNat) : decOf P s (encOf P s x) = x := by
  rw [decOf, h.decDownFrom_encOf hx _ (le_refl _), Nat.sub_self, encUpTo]

/-! ## One hash input per super-round (R167) -/

theorem div_succ_cases (i l : Nat) : (i + 1) / l = i / l ∨ (i + 1) / l = i / l + 1 := by
  rw [Nat.succ_div]; split <;> simp

/-- Inside a super-round the sub-round position goes up by one. -/
theorem succ_mod_of_same_superRound {i l : Nat} (h : (i + 1) / l = i / l) : (i + 1) % l = i % l + 1 := by
  have h1 := Nat.mod_add_div (i + 1) l
  have h2 := Nat.mod_add_div i l
  rw [h] at h1
  omega

/-- R167's step: from one remainder to the next, the hash input of a super-round stays, because the doubled remainder is
shifted right once more and `2^(p+1)` divides HALF. -/
theorem hashInput_succ {half l i r c : Nat} (hl : 1 ≤ l) (hdvd : 2 ^ (l - 1) ∣ half) (hc : c ≤ 1)
    (hsame : (i + 1) / l = i / l) :
    (amortIndex half l ((2 * r + c) % half) (i + 1)).hashInput = (amortIndex half l r i).hashInput := by
  have hpos : i % l + 1 < l := succ_mod_of_same_superRound hsame ▸ Nat.mod_lt (i + 1) hl
  obtain ⟨proj, rfl⟩ := hdvd
  have hproj : projector (2 ^ (l - 1) * proj) l = proj := by
    rw [projector, Nat.mul_div_cancel_left _ (Nat.two_pow_pos _)]
  have hpow : 2 ^ (l - 1) * proj = 2 ^ (i % l + 1) * (2 ^ (l - 1 - (i % l + 1)) * proj) := by
    rw [← Nat.mul_assoc, ← Nat.pow_add, show i % l + 1 + (l - 1 - (i % l + 1)) = l - 1 by omega]
  have hshift : (2 * r + c) / 2 ^ (i % l + 1) = r / 2 ^ (i % l) := by
    rw [Nat.pow_succ', ← Nat.div_div_eq_div_mul, show (2 * r + c) / 2 = r by omega]
  simp only [amortIndex, hproj, succ_mod_of_same_superRound hsame]
  rw [hpow, Nat.mod_mul_right_div_self, hshift, Nat.mod_mul_left_mod]

/-- So the wide hash of a super-round stays as well. -/
theorem wideHash_succ {P : Params} {s : State} (h : CheckedConfig P s) (hv : s.actV = true) {i r c : Nat} (hc : c ≤ 1)
    (hsame : (i + 1) / s.actL.toNat = i / s.actL.toNat) :
    wideHash P s (amortIndex s.half s.actL.toNat ((2 * r + c) % s.half) (i + 1)) =
      wideHash P s (amortIndex s.half s.actL.toNat r i) := by
  have hinput := hashInput_succ (r := r) (h.level_pos hv) (h.two_pow_dvd_half hv) hc hsame
  rw [wideHash, wideHash, hinput, show (amortIndex s.half s.actL.toNat ((2 * r + c) % s.half) (i + 1)).superRound =
    (amortIndex s.half s.actL.toNat r i).superRound from hsame]

/-! ## The round bit behind the cache (R166, R167) -/

/-- A cache line that answers the look-up of round `i` holds what a fresh call for the remainder `r` would return. -/
def CacheFresh (P : Params) (s : State) (r i : Nat) : Prop :=
  s.actV = true → s.cacheValid = true → s.cacheTag = i / s.actL.toNat →
    s.cacheData = wideHash P s (amortIndex s.half s.actL.toNat r i)

theorem cacheLookup_hit {P : Params} {s : State} {a : AmortIndex} (hv : s.cacheValid = true)
    (ht : s.cacheTag = a.superRound) : cacheLookup P a s = s := by
  simp [cacheLookup, hv, ht]

theorem cacheLookup_miss {P : Params} {s : State} {a : AmortIndex}
    (h : ¬(s.cacheValid = true ∧ s.cacheTag = a.superRound)) :
    cacheLookup P a s = (s.fillCache a.superRound (wideHash P s a)).countHash := by
  rw [cacheLookup, if_neg (by simpa using h)]

/-- After the look-up of an optimized round the line is the fresh hash of its super-round, hit or miss. -/
theorem bitSource_line {P : Params} {s : State} {r i : Nat} (hv : s.actV = true) (h : CacheFresh P s r i) :
    (bitSource P r i s).2.cacheValid = true ∧ (bitSource P r i s).2.cacheTag = i / s.actL.toNat ∧
      (bitSource P r i s).2.cacheData = wideHash P s (amortIndex s.half s.actL.toNat r i) := by
  simp only [bitSource, hv, if_true, prfAmort]
  by_cases hit : s.cacheValid = true ∧ s.cacheTag = i / s.actL.toNat
  · rw [cacheLookup_hit hit.1 hit.2]
    exact ⟨hit.1, hit.2, h hv hit.1 hit.2⟩
  · rw [cacheLookup_miss hit]
    exact ⟨rfl, rfl, rfl⟩

/-- R167: the round bit is a function of the remainder and the round. -/
theorem bitSource_fst {P : Params} {s : State} {r i : Nat} (h : CacheFresh P s r i) :
    (bitSource P r i s).1 = freshBit P s r i := by
  cases hv : s.actV with
  | false => simp [bitSource, prfBasic, freshBit, hv]
  | true =>
    obtain ⟨-, -, hline⟩ := bitSource_line hv h
    simp only [bitSource, freshBit, hv, if_true, prfAmort] at hline ⊢
    rw [hline]

/-- One hash call is counted, but for a look-up that hits. -/
theorem bitSource_hashcnt (P : Params) (s : State) (r i : Nat) :
    (bitSource P r i s).2.hashcnt =
      if s.actV = true ∧ s.cacheValid = true ∧ s.cacheTag = i / s.actL.toNat then s.hashcnt else s.hashcnt + 1 := by
  cases hv : s.actV with
  | false => simp [bitSource, prfBasic, hv]
  | true =>
    simp only [bitSource, hv, if_true, prfAmort, true_and]
    by_cases hit : s.cacheValid = true ∧ s.cacheTag = i / s.actL.toNat
    · rw [cacheLookup_hit hit.1 hit.2, if_pos hit]
    · rw [cacheLookup_miss hit, if_neg hit]; rfl

/-- What a hash call and a cache fill leave, the round bit leaves. -/
theorem roundBit_keeps {α : Sort _} (P : Params) (f : State → α) (hcount : ∀ s, f s.countHash = f s)
    (hfill : ∀ g d s, f (s.fillCache g d) = f s) (s : State) : f (roundBit P s).2 = f s := by
  rcases bitSource_state P (remainder s.dir s.half s.msg.toNat) s.iround s with h | h | ⟨g, d, -, h⟩ <;>
    simp only [roundBit, h, hcount, hfill]

/-! ## What a command leaves as it is -/

/-- ENCRYPT and DECRYPT, from their issue to their end, leave the configuration, the operands, KEYMEM, the lines to come
and the schedule. -/
structure RunFrame (P : Params) (s t : State) : Prop where
  config : SameConfig s t
  operands : SameOperands s t
  keymem : SameKeymem P s t
  host : t.host = s.host
  sched : t.sched = s.sched

theorem SameConfig.trans {s t u : State} (h : SameConfig s t) (h' : SameConfig t u) : SameConfig s u where
  configured := h'.configured.trans h.configured
  actMaxmsg := h'.actMaxmsg.trans h.actMaxmsg
  actRounds := h'.actRounds.trans h.actRounds
  actV := h'.actV.trans h.actV
  actL := h'.actL.trans h.actL

theorem SameOperands.trans {s t u : State} (h : SameOperands s t) (h' : SameOperands t u) : SameOperands s u where
  maxmsg := h'.maxmsg.trans h.maxmsg
  rounds := h'.rounds.trans h.rounds
  keylen := h'.keylen.trans h.keylen
  keynum := h'.keynum.trans h.keynum
  dataIn := h'.dataIn.trans h.dataIn

theorem RunFrame.refl (P : Params) (s : State) : RunFrame P s s :=
  ⟨⟨rfl, rfl, rfl, rfl, rfl⟩, ⟨rfl, rfl, rfl, rfl, rfl⟩, fun _ => rfl, rfl, rfl⟩

theorem RunFrame.trans {P : Params} {s t u : State} (h : RunFrame P s t) (h' : RunFrame P t u) : RunFrame P s u where
  config := h.config.trans h'.config
  operands := h.operands.trans h'.operands
  keymem := fun a => (h'.keymem a).trans (h.keymem a)
  host := h'.host.trans h.host
  sched := h'.sched.trans h.sched

theorem setIround_frame (P : Params) (i : Nat) (s : State) : RunFrame P s (s.setIround i) :=
  ⟨⟨rfl, rfl, rfl, rfl, rfl⟩, ⟨rfl, rfl, rfl, rfl, rfl⟩, fun _ => rfl, rfl, rfl⟩

theorem completeWith_frame (P : Params) (m : Word) (s : State) : RunFrame P s (s.completeWith m) :=
  ⟨⟨rfl, rfl, rfl, rfl, rfl⟩, ⟨rfl, rfl, rfl, rfl, rfl⟩, fun _ => rfl, rfl, rfl⟩

/-! ## One ROUND step (R192, R196) -/

/-- The message that the due round gives (R192, R196). -/
def roundMsg (P : Params) (s : State) : Word :=
  BitVec.ofNat 64 (roundWith s.dir s.half s.msg.toNat (roundBit P s).1)

/-- The state after the due round's work, before the next round or the completion. -/
def afterRound (P : Params) (s : State) : State := (roundBit P s).2.setMsg (roundMsg P s)

/-- The round after round `i` in the direction (R200). -/
def nextRound (d : Dir) (i : Nat) : Nat :=
  match d with
  | .enc => i + 1
  | .dec => i - 1

section
variable (P : Params) (s : State)

@[simp] theorem afterRound_dataOut : (afterRound P s).dataOut = s.dataOut :=
  roundBit_keeps P (·.dataOut) (fun _ => rfl) (fun _ _ _ => rfl) s
@[simp] theorem afterRound_actRounds : (afterRound P s).actRounds = s.actRounds :=
  roundBit_keeps P (·.actRounds) (fun _ => rfl) (fun _ _ _ => rfl) s
@[simp] theorem afterRound_actL : (afterRound P s).actL = s.actL :=
  roundBit_keeps P (·.actL) (fun _ => rfl) (fun _ _ _ => rfl) s
@[simp] theorem afterRound_half : (afterRound P s).half = s.half :=
  roundBit_keeps P State.half (fun _ => rfl) (fun _ _ _ => rfl) s
@[simp] theorem afterRound_fsm : (afterRound P s).fsm = s.fsm :=
  roundBit_keeps P (·.fsm) (fun _ => rfl) (fun _ _ _ => rfl) s
@[simp] theorem afterRound_dir : (afterRound P s).dir = s.dir :=
  roundBit_keeps P (·.dir) (fun _ => rfl) (fun _ _ _ => rfl) s

/-- The state one round further on, where the command goes on. -/
def nextRoundState (P : Params) (s : State) : State := (afterRound P s).setIround (nextRound s.dir s.iround)

theorem afterRound_frame : RunFrame P s (afterRound P s) := by
  unfold afterRound roundBit
  rcases bitSource_state P (remainder s.dir s.half s.msg.toNat) s.iround s with h | h | ⟨g, d, -, h⟩ <;> rw [h] <;>
    exact ⟨⟨rfl, rfl, rfl, rfl, rfl⟩, ⟨rfl, rfl, rfl, rfl, rfl⟩, fun _ => rfl, rfl, rfl⟩

theorem nextRoundState_frame : RunFrame P s (nextRoundState P s) :=
  (afterRound_frame P s).trans (setIround_frame P _ _)

end

/-- A ROUND step inside the configuration, in either direction: the round, then the next one or the completion. -/
theorem fsmStep_round {P : Params} {s : State} (h : CheckedConfig P s) (hf : s.fsm = .round)
    (hm : s.msg.toNat ≤ s.actMaxmsg.toNat) (hi : s.iround < s.actRounds.toNat) :
    fsmStep P s = .next (if roundsDone s + 1 = s.actRounds.toNat then (afterRound P s).completeWith (roundMsg P s)
      else nextRoundState P s) := by
  rw [fsmStep, hf]
  simp only [roundStep, h.roundFault_eq_none hm hi]
  cases hd : s.dir with
  | enc => simp only [encRoundBody_eq, roundsDone, hd, afterRound, roundMsg, roundWith, nextRoundState, nextRound]
  | dec =>
    have hlast : s.actRounds.toNat - 1 - s.iround + 1 = s.actRounds.toNat ↔ s.iround = 0 := by omega
    simp only [decRoundBody_eq, roundsDone, hd, afterRound, roundMsg, roundWith, nextRoundState, nextRound, hlast]

/-! ## A running command -/

/-- A command between two steps, with what its rounds rely on. -/
structure MidRun (P : Params) (s : State) (x : Nat) : Prop where
  running : Running P s x
  checked : CheckedConfig P s
  domain : x ≤ s.actMaxmsg.toNat
  bound : s.iround < s.actRounds.toNat

theorem Running.midRun {P : Params} {s : State} {x : Nat} (h : Running P s x) (hinv : Inv P s)
    (hx : x ≤ s.actMaxmsg.toNat) : MidRun P s x :=
  have ⟨hconf, hi, _⟩ := hinv.roundInBounds h.inRound
  ⟨h, hinv.checkedConfig hconf, hx, hi⟩

namespace MidRun
variable {P : Params} {s : State} {x : Nat}

theorem msg_eq (h : MidRun P s x) : s.msg.toNat = messageAfter P s s.dir x (roundsDone s) :=
  h.running.message.trans (messageAt_eq P s x)

theorem msg_le (h : MidRun P s x) : s.msg.toNat ≤ s.actMaxmsg.toNat := by
  rw [h.msg_eq]; exact h.checked.messageAfter_le _ h.domain _

theorem roundAfter_roundsDone (h : MidRun P s x) : roundAfter s s.dir (roundsDone s) = s.iround := by
  have := h.bound
  cases hd : s.dir with
  | enc => simp only [roundAfter, roundsDone, hd]
  | dec => simp only [roundAfter, roundsDone, hd]; omega

theorem roundsDone_lt (h : MidRun P s x) : roundsDone s < s.actRounds.toNat := by
  have := h.bound
  unfold roundsDone
  split <;> omega

/-- The cache answers the due round exactly when the round before it was of the same super-round. -/
theorem cacheHit_iff (h : MidRun P s x) (hv : s.actV = true) :
    (s.cacheValid = true ∧ s.cacheTag = s.iround / s.actL.toNat) ↔
      roundsDone s ≠ 0 ∧ s.iround / s.actL.toNat = lastRound s / s.actL.toNat := by
  by_cases hdone : roundsDone s = 0
  · simp [h.running.cacheOff hv hdone, hdone]
  · obtain ⟨hvalid, htag⟩ := h.running.cacheTagged hv hdone
    simp [hvalid, htag, hdone, eq_comm]

theorem cacheFresh (h : MidRun P s x) : CacheFresh P s (remainder s.dir s.half s.msg.toNat) s.iround :=
  fun hv hvalid htag =>
    have ⟨hdone, hsame⟩ := (h.cacheHit_iff hv).1 ⟨hvalid, htag⟩
    h.running.cacheFresh hv hdone hsame

/-- No round needs its result cut to a word (R199). -/
theorem roundMsg_eq (h : MidRun P s x) :
    (roundMsg P s).toNat = roundWith s.dir s.half s.msg.toNat (roundBit P s).1 := by
  have hle := h.checked.lt_two_half.1 (roundWith_lt s.dir (roundBit P s).1 (h.checked.lt_two_half.2 h.msg_le))
  rw [roundMsg, BitVec.toNat_ofNat]
  exact Nat.mod_eq_of_lt (lt_of_le_of_lt hle s.actMaxmsg.isLt)

/-- The due round gives the next message of the command. -/
theorem roundMsg_toNat (h : MidRun P s x) : (roundMsg P s).toNat = messageAfter P s s.dir x (roundsDone s + 1) := by
  rw [h.roundMsg_eq, roundBit, bitSource_fst h.cacheFresh, messageAfter_succ, h.roundAfter_roundsDone, h.msg_eq]

end MidRun

/-! ## From a round to the next -/

section
variable {P : Params} {s : State} {x : Nat}

/-- The super-rounds that a command has opened once round `i` of the direction is done (R169). -/
def superRoundsThrough (s : State) (d : Dir) (i : Nat) : Nat :=
  match d with
  | .enc => i / s.actL.toNat + 1
  | .dec => (s.actRounds.toNat - 1) / s.actL.toNat - i / s.actL.toNat + 1

theorem superRoundsDone_eq (s : State) :
    superRoundsDone s = if roundsDone s = 0 then 0 else superRoundsThrough s s.dir (lastRound s) := by
  unfold superRoundsDone superRoundsThrough
  cases s.dir <;> rfl

section
variable (hbound : s.iround < s.actRounds.toNat) (hmore : roundsDone s + 1 < s.actRounds.toNat)
include hbound hmore

theorem nextRound_lt : nextRound s.dir s.iround < s.actRounds.toNat := by
  unfold roundsDone at hmore
  cases hd : s.dir with
  | enc => simpa only [hd, nextRound] using hmore
  | dec => simp only [nextRound]; omega

theorem roundsDone_nextRoundState : roundsDone (nextRoundState P s) = roundsDone s + 1 := by
  unfold roundsDone at hmore ⊢
  cases hd : s.dir with
  | enc => simp [nextRoundState, hd, nextRound]
  | dec =>
    simp only [hd] at hmore
    simp only [nextRoundState, nextRound, hd, State.setIround_dir, State.setIround_actRounds, State.setIround_iround,
      afterRound_dir, afterRound_actRounds]
    omega

theorem lastRound_nextRoundState : lastRound (nextRoundState P s) = s.iround := by
  unfold roundsDone at hmore
  unfold lastRound
  cases hd : s.dir with
  | enc => simp [nextRoundState, hd, nextRound]
  | dec =>
    simp only [hd] at hmore
    simp only [nextRoundState, nextRound, hd, State.setIround_dir, State.setIround_iround, afterRound_dir]
    omega

theorem superRoundsDone_nextRoundState : superRoundsDone (nextRoundState P s) = superRoundsThrough s s.dir s.iround := by
  rw [superRoundsDone_eq, roundsDone_nextRoundState hbound hmore, lastRound_nextRoundState hbound hmore,
    if_neg (Nat.succ_ne_zero _)]
  simp [nextRoundState, superRoundsThrough]

end

theorem superRoundsThrough_le (d : Dir) {i : Nat} (hi : i < s.actRounds.toNat) :
    superRoundsThrough s d i ≤ s.actRounds.toNat := by
  have h1 := Nat.div_le_self i s.actL.toNat
  have h2 := Nat.div_le_self (s.actRounds.toNat - 1) s.actL.toNat
  cases d with
  | enc => simp only [superRoundsThrough]; omega
  | dec =>
    simp only [superRoundsThrough]
    generalize i / s.actL.toNat = q
    omega

/-- R169: the due round is of the super-round of the round before it, or it opens a new one. -/
theorem superRoundsThrough_iround (hbound : s.iround < s.actRounds.toNat) :
    superRoundsThrough s s.dir s.iround =
      if roundsDone s ≠ 0 ∧ s.iround / s.actL.toNat = lastRound s / s.actL.toNat then superRoundsDone s
      else superRoundsDone s + 1 := by
  rw [superRoundsDone_eq]
  unfold roundsDone lastRound
  cases hd : s.dir with
  | enc =>
    simp only [superRoundsThrough]
    rcases hi : s.iround with _ | j
    · simp
    · have := div_succ_cases j s.actL.toNat
      rw [Nat.succ_sub_one, if_neg (Nat.succ_ne_zero j)]
      generalize j / s.actL.toNat = q at *
      split_ifs <;> omega
  | dec =>
    simp only [superRoundsThrough]
    rcases Nat.eq_or_lt_of_le (Nat.le_sub_one_of_lt hbound) with hi | hi
    · simp [hi]
    · have := div_succ_cases s.iround s.actL.toNat
      have : (s.iround + 1) / s.actL.toNat ≤ (s.actRounds.toNat - 1) / s.actL.toNat := Nat.div_le_div_right hi
      generalize s.iround / s.actL.toNat = q at *
      split_ifs <;> omega

/-- R169: the last round leaves the count of the whole command. -/
theorem superRoundsThrough_last (h : CheckedConfig P s) (hv : s.actV = true) (hbound : s.iround < s.actRounds.toNat)
    (hlast : roundsDone s + 1 = s.actRounds.toNat) : superRoundsThrough s s.dir s.iround = hashCalls s := by
  have hceil : s.actRounds.toNat + (s.actL.toNat - 1) = s.actRounds.toNat - 1 + s.actL.toNat := by
    have := h.level_pos hv
    omega
  rw [hashCalls, if_pos hv, hceil, Nat.add_div_right _ (h.level_pos hv)]
  unfold roundsDone at hlast
  cases hd : s.dir with
  | enc => simp only [superRoundsThrough, show s.iround = s.actRounds.toNat - 1 by simp only [hd] at hlast; omega]
  | dec => simp only [superRoundsThrough, show s.iround = 0 by simp only [hd] at hlast; omega, Nat.zero_div, Nat.sub_zero]

/-- R199's recurrence at the cache: where the next round is of the same super-round, a fresh call for it would return
the hash of this one. -/
theorem wideHash_nextRound (h : CheckedConfig P s) (hv : s.actV = true) (d : Dir) {m i : Nat} (b : Bool)
    (hm : m < 2 * s.half) (hi : d = .dec → i ≠ 0) (hsame : nextRound d i / s.actL.toNat = i / s.actL.toNat) :
    wideHash P s (amortIndex s.half s.actL.toNat (remainder d s.half (roundWith d s.half m b)) (nextRound d i)) =
      wideHash P s (amortIndex s.half s.actL.toNat (remainder d s.half m) i) := by
  cases d with
  | enc =>
    have hrec : encRoundWith s.half m b = 2 * (m % s.half) + (m / s.half ^^^ b.toNat) := by
      rw [encRoundWith, Nat.mul_comm]
    simp only [remainder, roundWith, nextRound, hrec]
    exact wideHash_succ h hv (xor_bit_le b (div_half_le hm)) hsame
  | dec =>
    obtain ⟨j, rfl⟩ := Nat.exists_eq_succ_of_ne_zero (hi rfl)
    have hrec : m / 2 = (2 * (decRoundWith s.half m b / 2) + decRoundWith s.half m b % 2) % s.half := by
      rw [Nat.div_add_mod, decRoundWith_mod b hm]
    simp only [remainder, roundWith, nextRound, Nat.succ_sub_one]
    rw [hrec]
    exact (wideHash_succ h hv (by omega) hsame.symm).symm

/-- The cache line after the due round. -/
theorem MidRun.afterRound_line (h : MidRun P s x) (hv : s.actV = true) :
    (afterRound P s).cacheValid = true ∧ (afterRound P s).cacheTag = s.iround / s.actL.toNat ∧
      (afterRound P s).cacheData =
        wideHash P s (amortIndex s.half s.actL.toNat (remainder s.dir s.half s.msg.toNat) s.iround) :=
  bitSource_line hv h.cacheFresh

/-- The hash calls counted after the due round (R169, R240). -/
theorem MidRun.afterRound_hashcnt (h : MidRun P s x) :
    (afterRound P s).hashcnt.toNat =
      if s.actV then superRoundsThrough s s.dir s.iround else roundsDone s + 1 := by
  have hcount : (afterRound P s).hashcnt = _ := bitSource_hashcnt P s (remainder s.dir s.half s.msg.toNat) s.iround
  have hprev := h.running.counted
  have hrounds := s.actRounds.isLt
  cases hv : s.actV with
  | false =>
    have := h.roundsDone_lt
    simp only [hv, Bool.false_eq_true, false_and, if_false] at hcount hprev ⊢
    rw [hcount, BitVec.toNat_add, hprev]
    exact Nat.mod_eq_of_lt (by simp; omega)
  | true =>
    have hle := superRoundsThrough_le s.dir h.bound
    simp only [hv, true_and, if_true, h.cacheHit_iff hv] at hcount hprev ⊢
    rw [superRoundsThrough_iround h.bound] at hle ⊢
    rw [hcount]
    split_ifs at hle ⊢
    · exact hprev
    · rw [BitVec.toNat_add, hprev]
      exact Nat.mod_eq_of_lt (by simp; omega)

/-- A round that is not the last leaves the command between two of its steps. -/
theorem MidRun.next (h : MidRun P s x) (hmore : roundsDone s + 1 < s.actRounds.toNat) :
    MidRun P (nextRoundState P s) x := by
  have hframe := nextRoundState_frame P s
  have hconf := hframe.config
  have hdone := roundsDone_nextRoundState (P := P) h.bound hmore
  have hlast := lastRound_nextRoundState (P := P) h.bound hmore
  have hdir : (nextRoundState P s).dir = s.dir := afterRound_dir P s
  refine ⟨⟨?inRound, ?message, ?counted, ?cacheOff, ?cacheTagged, ?cacheFresh⟩, h.checked.congr hconf, ?_, ?_⟩
  case inRound => simpa [nextRoundState] using h.running.inRound
  case message =>
    rw [messageAt_eq, hdone, hdir, messageAfter_congr hconf hframe.keymem]
    exact h.roundMsg_toNat
  case counted =>
    rw [hconf.actV, superRoundsDone_nextRoundState h.bound hmore, hdone]
    exact h.afterRound_hashcnt
  case cacheOff => exact fun _ h0 => absurd (hdone.symm.trans h0) (Nat.succ_ne_zero _)
  case cacheTagged =>
    intro hv _
    obtain ⟨hvalid, htag, -⟩ := h.afterRound_line (hconf.actV ▸ hv)
    rw [hlast, hconf.actL]
    exact ⟨hvalid, htag⟩
  case cacheFresh =>
    intro hv _ hsame
    rw [hconf.actV] at hv
    rw [hlast, hconf.actL] at hsame
    have hhalf : (nextRoundState P s).half = s.half := afterRound_half P s
    have hmsg : (nextRoundState P s).msg.toNat = roundWith s.dir s.half s.msg.toNat (roundBit P s).1 := h.roundMsg_eq
    have hpos : s.dir = .dec → s.iround ≠ 0 := fun hd hi => by
      simp only [roundsDone, hd, hi] at hmore; omega
    rw [wideHash_congr (funext hframe.keymem), hhalf, hconf.actL, hdir, hmsg]
    obtain ⟨-, -, hdata⟩ := h.afterRound_line hv
    exact hdata.trans
      (wideHash_nextRound h.checked hv s.dir _ (h.checked.lt_two_half.2 h.msg_le) hpos hsame).symm
  · rw [hconf.actMaxmsg]; exact h.domain
  · rw [hconf.actRounds]; exact nextRound_lt h.bound hmore

end

theorem MidRun.hashcnt_last {P : Params} {s : State} {x : Nat} (h : MidRun P s x)
    (hlast : roundsDone s + 1 = s.actRounds.toNat) : (afterRound P s).hashcnt.toNat = hashCalls s := by
  rw [h.afterRound_hashcnt]
  cases hv : s.actV with
  | false => simp [hashCalls, hv, hlast]
  | true => exact superRoundsThrough_last h.checked hv h.bound hlast

/-! ## The rounds of a command, run (R200) -/

/-- The command of `x` that began at `s` has ended at `t`: its result, the completion effects (R227), the hash calls of
R169, and nothing else that a later command relies on touched. -/
structure EndsWithResult (P : Params) (s : State) (d : Dir) (x : Nat) (t : State) : Prop where
  idle : t.fsm = .idle
  noError : t.err = false
  errcode : t.errcode = .noError
  irqPend : t.irqPend = true
  result : t.dataOut.toNat = resultOf P s d x
  hashcnt : t.hashcnt.toNat = hashCalls s
  frame : RunFrame P s t

theorem EndsWithResult.after_frame {P : Params} {s u t : State} {d : Dir} {x : Nat} (h : EndsWithResult P u d x t)
    (hframe : RunFrame P s u) : EndsWithResult P s d x t :=
  { h with
    result := h.result.trans (resultOf_congr hframe.config hframe.keymem d x)
    hashcnt := h.hashcnt.trans (by simp only [hashCalls, hframe.config.actV, hframe.config.actL, hframe.config.actRounds])
    frame := hframe.trans h.frame }

/-- Runs compose. -/
theorem runSteps_add {k n : Nat} {s u : State} (h : runSteps k s = .next u) : runSteps (k + n) s = runSteps n u := by
  induction k generalizing s with
  | zero => rw [runSteps, Host.Outcome.next.injEq] at h; rw [Nat.zero_add, h]
  | succ k ih =>
    rw [Nat.succ_add, runSteps]
    rw [runSteps] at h
    cases hs : step s with
    | next t => rw [hs] at h; exact ih h
    | fault r => rw [hs] at h; cases h
    | refused r => rw [hs] at h; cases h

theorem runSteps_one (s : State) : runSteps 1 s = step s := by
  unfold runSteps
  cases step s <;> rfl

theorem runSteps_succ {k : Nat} {s t : State} (h : step s = .next t) : runSteps (k + 1) s = runSteps k t := by
  rw [runSteps, h]

/-- With nothing scheduled a busy block moves by its FSM (log 6). -/
theorem step_unscheduled_busy {s : State} (hbusy : s.fsm ≠ .idle) (hs : s.sched = []) :
    step s = fsmStep Config.machine s := by
  have htake : s.takeTurn = s := by cases s; cases hs; rfl
  rw [step_fsm (by simp [nextTurn, hs, State.busy_eq_true.2 hbusy]), htake]

section
variable {s : State} {x : Nat}

theorem MidRun.step_eq (h : MidRun Config.machine s x) (hs : s.sched = []) :
    step s = .next (if roundsDone s + 1 = s.actRounds.toNat
      then (afterRound Config.machine s).completeWith (roundMsg Config.machine s)
      else nextRoundState Config.machine s) := by
  rw [step_unscheduled_busy (by rw [h.running.inRound]; decide) hs]
  exact fsmStep_round h.checked h.running.inRound h.msg_le h.bound

/-- While rounds are left, each step does one. -/
theorem MidRun.runRounds {s : State} (h : MidRun Config.machine s x) : ∀ k, s.sched = [] →
    roundsDone s + k < s.actRounds.toNat →
      ∃ u, runSteps k s = .next u ∧ MidRun Config.machine u x ∧ roundsDone u = roundsDone s + k ∧ u.dir = s.dir ∧
        u.dataOut = s.dataOut ∧ RunFrame Config.machine s u
  | 0, _, _ => ⟨s, rfl, h, rfl, rfl, rfl, RunFrame.refl _ s⟩
  | k + 1, hs, hk => by
    obtain ⟨u, hrun, hu, hdone, hdir, hout, hframe⟩ := h.runRounds k hs (by omega)
    have hmore : roundsDone u + 1 < u.actRounds.toNat := by rw [hframe.config.actRounds]; omega
    have hstep := hu.step_eq (hframe.sched.trans hs)
    rw [if_neg (Nat.ne_of_lt hmore)] at hstep
    refine ⟨_, by rw [runSteps_add hrun, runSteps_one, hstep], hu.next hmore, ?_, ?_, ?_,
      hframe.trans (nextRoundState_frame _ u)⟩
    · rw [roundsDone_nextRoundState hu.bound hmore, hdone, Nat.add_assoc]
    · exact (afterRound_dir _ u).trans hdir
    · exact (afterRound_dataOut _ u).trans hout

/-- The last round completes the command with its result. -/
theorem MidRun.complete (h : MidRun Config.machine s x) (hs : s.sched = [])
    (hlast : roundsDone s + 1 = s.actRounds.toNat) :
    ∃ t, step s = .next t ∧ EndsWithResult Config.machine s s.dir x t := by
  have hstep := h.step_eq hs
  rw [if_pos hlast] at hstep
  refine ⟨_, hstep, rfl, rfl, rfl, rfl, ?_, h.hashcnt_last hlast,
    (afterRound_frame _ s).trans (completeWith_frame _ _ _)⟩
  rw [State.completeWith_dataOut, h.roundMsg_toNat, hlast, resultOf_eq]

/-- All the rounds of a command, from its first. -/
theorem MidRun.runToResult (h : MidRun Config.machine s x) (hs : s.sched = []) (hfirst : roundsDone s = 0) :
    ∃ t, runSteps s.actRounds.toNat s = .next t ∧ EndsWithResult Config.machine s s.dir x t := by
  have hpos := h.roundsDone_lt
  obtain ⟨u, hrun, hu, hudone, hudir, -, hframe⟩ := h.runRounds (s.actRounds.toNat - 1) hs (by omega)
  obtain ⟨t, hstep, ht⟩ := hu.complete (hframe.sched.trans hs) (by rw [hframe.config.actRounds]; omega)
  refine ⟨t, ?_, (hudir ▸ ht).after_frame hframe⟩
  rw [show s.actRounds.toNat = s.actRounds.toNat - 1 + 1 by omega, runSteps_add hrun, runSteps_one, hstep]

end

/-! ## From the CMD write to the result -/

/-- The step after a command's word is placed is its issue. -/
theorem step_withFetchWord {s : State} {w : Nat} {i : Instr} (hw : decodeWord (BitVec.ofNat 64 (w % 2 ^ 64)) = .ok i) :
    step (s.withFetchWord 64 w) = .next (issueRequest (commandBody i) (s.answer s.host .done)) := by
  have hwrite : step (s.withFetchWord 64 w) =
      busWrite Config.machine exec 64 Reg.cmd.offset (BitVec.ofNat 64 (w % 2 ^ 64)) (s.answer s.host .done) := rfl
  rw [hwrite, busWrite, locate_reg]
  dsimp only
  rw [writeCmd_eq, hw]

/-- The word of the direction's command (R190). -/
def opWord : Dir → Nat
  | .enc => 3
  | .dec => 4

/-- A checked issue (R190): nothing is left to do where R = 0, else the first round is due. -/
theorem encDecIssue_accepted {s : State} (d : Dir) (hconf : s.configured = true)
    (hx : s.dataIn.toNat ≤ s.actMaxmsg.toNat) :
    encDecIssue d s = if s.actRounds.toNat = 0 then (s.startRun s.dataIn d).completeWith s.dataIn
      else (s.startRun s.dataIn d).enterRound (roundAfter s d 0) := by
  unfold encDecIssue
  rw [if_neg (by simp [hconf]), if_neg (not_lt.2 hx)]
  cases d <;> rfl

/-- The state in which a command's body runs after its CMD write. -/
def atIssue (s : State) : State := (s.answer s.host .done).setDrop false

/-- The state in which the first round of an accepted ENCRYPT or DECRYPT is due. -/
def atFirstRound (d : Dir) (s : State) : State :=
  ((atIssue s).startRun s.dataIn d).enterRound (roundAfter s d 0)

/-- The CMD write of an accepted ENCRYPT or DECRYPT. -/
theorem step_opWord {s : State} (d : Dir) (hidle : s.fsm = .idle) (hconf : s.configured = true)
    (hx : s.dataIn.toNat ≤ s.actMaxmsg.toNat) :
    step (s.withFetchWord 64 (opWord d)) = .next (if s.actRounds.toNat = 0
      then ((atIssue s).startRun s.dataIn d).completeWith s.dataIn else atFirstRound d s) := by
  have hissue : step (s.withFetchWord 64 (opWord d)) = .next (encDecIssue d (atIssue s)) := by
    cases d with
    | enc => rw [step_withFetchWord (i := .enc) (by decide), issueRequest_idle (s := s.answer s.host .done) hidle]; rfl
    | dec => rw [step_withFetchWord (i := .dec) (by decide), issueRequest_idle (s := s.answer s.host .done) hidle]; rfl
  rw [hissue, encDecIssue_accepted (s := atIssue s) d hconf hx]
  rfl

theorem atFirstRound_frame (P : Params) (d : Dir) (s : State) : RunFrame P s (atFirstRound d s) :=
  ⟨⟨rfl, rfl, rfl, rfl, rfl⟩, ⟨rfl, rfl, rfl, rfl, rfl⟩, fun _ => rfl, rfl, rfl⟩

theorem roundsDone_atFirstRound (d : Dir) (s : State) : roundsDone (atFirstRound d s) = 0 := by
  cases d with
  | enc => rfl
  | dec => exact Nat.sub_self _

/-- An accepted command with rounds to do starts as a running one: nothing hashed, nothing cached. -/
theorem atFirstRound_midRun {P : Params} {s : State} (d : Dir) (h : CheckedConfig P s)
    (hx : s.dataIn.toNat ≤ s.actMaxmsg.toNat) (hpos : s.actRounds.toNat ≠ 0) :
    MidRun P (atFirstRound d s) s.dataIn.toNat := by
  have hdone := roundsDone_atFirstRound d s
  refine ⟨⟨rfl, ?message, ?counted, fun _ _ => rfl, ?_, ?_⟩, h.congr (atFirstRound_frame P d s).config, hx, ?bound⟩
  case message => rw [messageAt_eq, hdone, messageAfter_zero]; rfl
  case counted => rw [superRoundsDone_eq, hdone, if_pos rfl, ite_self]; rfl
  case bound =>
    have hfirst : roundAfter s d 0 < s.actRounds.toNat := by cases d <;> simp only [roundAfter] <;> omega
    exact hfirst
  all_goals exact fun _ hne => absurd hdone hne

/-- With no round to do the command has made no hash call. -/
theorem hashCalls_of_no_rounds {P : Params} {s : State} (h : CheckedConfig P s) (hzero : s.actRounds.toNat = 0) :
    hashCalls s = 0 := by
  unfold hashCalls
  split
  · have := h.level_pos ‹_›
    rw [hzero]
    exact Nat.div_eq_of_lt (by omega)
  · exact hzero

/-- R193, R197, R200: an accepted ENCRYPT or DECRYPT, run with nothing scheduled, ends with its result after R steps. -/
theorem command_runsToResult {s : State} (d : Dir) (h : CheckedConfig Config.machine s) (hidle : s.fsm = .idle)
    (hconf : s.configured = true) (hx : s.dataIn.toNat ≤ s.actMaxmsg.toNat) (hs : s.sched = []) :
    ∃ t, runSteps (1 + s.actRounds.toNat) (s.withFetchWord 64 (opWord d)) = .next t ∧
      EndsWithResult Config.machine s d s.dataIn.toNat t := by
  have hissue := step_opWord d hidle hconf hx
  rw [Nat.add_comm]
  by_cases hzero : s.actRounds.toNat = 0
  · rw [if_pos hzero] at hissue
    rw [hzero]
    refine ⟨_, runSteps_succ hissue, rfl, rfl, rfl, rfl, ?_, (hashCalls_of_no_rounds h hzero).symm,
      ⟨⟨rfl, rfl, rfl, rfl, rfl⟩, ⟨rfl, rfl, rfl, rfl, rfl⟩, fun _ => rfl, rfl, rfl⟩⟩
    rw [resultOf_eq, hzero, messageAfter_zero, State.completeWith_dataOut]
  · rw [if_neg hzero] at hissue
    obtain ⟨t, hrun, ht⟩ := (atFirstRound_midRun d h hx hzero).runToResult hs (roundsDone_atFirstRound d s)
    exact ⟨t, (runSteps_succ hissue).trans hrun, ht.after_frame (atFirstRound_frame _ d s)⟩

/-- Settles O45: ENCRYPT ends with ENC(x), which is in the domain and is decrypted under the same configuration and
KEYMEM, and DEC takes ENC back (R198). -/
theorem encryptThenDecryptReturnsTheMessage : Obligations.EncryptThenDecryptReturnsTheMessage := by
  intro s hinv hidle hconf hx hs
  have h := hinv.checkedConfig hconf
  obtain ⟨t, hrun, ht⟩ := command_runsToResult .enc h hidle hconf hx hs
  have hframe := ht.frame
  have hconfig : SameConfig s { t with dataIn := t.dataOut } :=
    ⟨hframe.config.configured, hframe.config.actMaxmsg, hframe.config.actRounds, hframe.config.actV, hframe.config.actL⟩
  have hdomain : t.dataOut.toNat ≤ t.actMaxmsg.toNat := by
    rw [ht.result, hframe.config.actMaxmsg]; exact h.resultOf_le .enc hx
  obtain ⟨u, hrun', hu⟩ := command_runsToResult .dec (h.congr hconfig) ht.idle (hconfig.configured.trans hconf) hdomain
    (hframe.sched.trans hs)
  refine ⟨t, u, hrun, by rw [← hconfig.actRounds]; exact hrun', BitVec.eq_of_toNat_eq ?_, hu.noError⟩
  calc u.dataOut.toNat
      = decOf Config.machine { t with dataIn := t.dataOut } t.dataOut.toNat := hu.result
    _ = decOf Config.machine s t.dataOut.toNat := resultOf_congr hconfig hframe.keymem .dec _
    _ = decOf Config.machine s (encOf Config.machine s s.dataIn.toNat) := by rw [ht.result]; rfl
    _ = s.dataIn.toNat := h.decOf_encOf hx

end Sys2Proof.Machine

/-! SUPPORT. What one step of the machine can do, said once: how a command's issue can end, which events a step can be, and
what each host write does. The statements about the state of the block are read off these cases. -/

namespace Sys2Proof.Machine

/-! ## The ends of a command's issue -/

theorem cfgCheck_level {P : Params} {m r l kl : Nat} (h : cfgCheck P m r true l kl = .noError) : l ≤ 7 :=
  have ⟨_, hlevel, _⟩ := cfgCheck_eq_noError.1 h
  (levelOk_range (hlevel rfl).1).2

/-- What the issue of command `i` can leave of the state `s` in which its body runs, with the guard of each end. -/
inductive IssueEnd (s : State) : Instr → State → Prop where
  /-- ENCRYPT or DECRYPT reports an error (R190). -/
  | denied {i : Instr} (hi : i = .enc ∨ i = .dec) (e : ErrCode) (he : e ≠ .noError) : IssueEnd s i (s.raiseError e)
  /-- ENCRYPT or DECRYPT of a configuration with no rounds is the identity (R190). -/
  | identity {i : Instr} (hi : i = .enc ∨ i = .dec) (d : Dir) (hconf : s.configured = true)
      (hx : s.dataIn.toNat ≤ s.actMaxmsg.toNat) : IssueEnd s i ((s.startRun s.dataIn d).completeWith s.dataIn)
  /-- ENCRYPT or DECRYPT enters its first round (R190). -/
  | started {i : Instr} (hi : i = .enc ∨ i = .dec) (d : Dir) (hconf : s.configured = true)
      (hx : s.dataIn.toNat ≤ s.actMaxmsg.toNat) (k : Nat) (hk : k < s.actRounds.toNat) :
      IssueEnd s i ((s.startRun s.dataIn d).enterRound k)
  /-- RPP completes (R122). -/
  | sized : IssueEnd s .rpp (rppBody s)
  /-- UNCONFIG completes (R140). -/
  | unconfigured : IssueEnd s .unconfig s.clearConfig.complete
  /-- CONFIG or CONFIG_KEY reports an error of its check (R131, R136). -/
  | failed {i : Instr} (hi : i ≠ .enc ∧ i ≠ .dec ∧ i ≠ .rpp) (e : ErrCode) (he : e ≠ .noError) :
      IssueEnd s i (s.clearConfig.raiseError e)
  /-- CONFIG activates a checked configuration (R131). -/
  | configured {i : Instr} (hi : i = .config ∨ ∃ l, i = .configO l) (v : Bool) (l : BitVec 4) (hl : v = false → l = 0)
      (hcheck : cfgCheck Config.machine s.maxmsg.toNat s.rounds.toNat v l.toNat s.keylen.toNat = .noError) :
      IssueEnd s i (s.clearConfig.activate s.maxmsg s.rounds v l).complete
  /-- CONFIG_KEY latches a checked configuration and enters KEYGEN (R136). -/
  | latched {i : Instr} (hi : i = .ckey ∨ i = .ckeyO) (v : Bool) (l : BitVec 4) (hl : l = if v then 7 else 0)
      (hcheck : cfgCheck Config.machine s.maxmsg.toNat (keyRounds s.maxmsg) v l.toNat Config.machine.keymemBytes
        = .noError) :
      IssueEnd s i (s.clearConfig.latchKeygen s.maxmsg (keyRounds s.maxmsg) v l s.keynum)

theorem encDecIssue_end {i : Instr} (hi : i = .enc ∨ i = .dec) (d : Dir) (s : State) :
    IssueEnd s i (encDecIssue d s) := by
  by_cases hconf : s.configured = true
  · by_cases hx : s.dataIn.toNat ≤ s.actMaxmsg.toNat
    · rw [encDecIssue_accepted d hconf hx]
      split
      · exact .identity hi d hconf hx
      · exact .started hi d hconf hx _ (by cases d <;> simp only [roundAfter] <;> omega)
    · unfold encDecIssue
      rw [if_neg (by simp [hconf]), if_pos (not_le.1 hx)]
      exact .denied hi _ (by decide)
  · unfold encDecIssue
    rw [if_pos (by simpa using hconf)]
    exact .denied hi _ (by decide)

theorem configBody_end {i : Instr} (hi : i = .config ∨ ∃ l, i = .configO l) (v : Bool) (l : Nat)
    (hl : v = false → l = 0) (s : State) : IssueEnd s i (configBody Config.machine v l s) := by
  rw [configBody_eq]
  split
  · rename_i hcheck
    have hlevel : (BitVec.ofNat 4 l).toNat = l := by
      refine Nat.mod_eq_of_lt ?_
      cases v with
      | false => rw [hl rfl]; decide
      | true => have := cfgCheck_level hcheck; omega
    exact .configured hi v _ (fun hv => by rw [hl hv]; rfl) (by rw [hlevel]; exact hcheck)
  · refine .failed ?_ _ ‹_›
    rcases hi with rfl | ⟨l, rfl⟩ <;> simp

theorem ckeyBody_end {i : Instr} (hi : i = .ckey ∨ i = .ckeyO) (v : Bool) (s : State) :
    IssueEnd s i (ckeyBody Config.machine v s) := by
  have hlevel : (BitVec.ofNat 4 (if v then 7 else 0)).toNat = if v then 7 else 0 := by cases v <;> rfl
  rw [ckeyBody_eq]
  by_cases hcheck : cfgCheck Config.machine s.maxmsg.toNat (keyRounds s.maxmsg) v (if v then 7 else 0)
      Config.machine.keymemBytes = .noError
  · rw [if_pos hcheck]
    exact .latched hi v _ (by cases v <;> rfl) (by rw [hlevel]; exact hcheck)
  · rw [if_neg hcheck]
    refine .failed ?_ _ hcheck
    rcases hi with rfl | rfl <;> decide

theorem commandBody_end (i : Instr) (s : State) : IssueEnd s i (commandBody i s) := by
  cases i with
  | config => exact configBody_end (.inl rfl) false 0 (fun _ => rfl) s
  | configO l => exact configBody_end (.inr ⟨l, rfl⟩) true l (fun h => by cases h) s
  | ckey => exact ckeyBody_end (.inl rfl) false s
  | ckeyO => exact ckeyBody_end (.inr rfl) true s
  | enc => exact encDecIssue_end (.inl rfl) .enc s
  | dec => exact encDecIssue_end (.inr rfl) .dec s
  | rpp => exact .sized
  | unconfig => exact .unconfigured

/-- No end of an issue touches what the updates it is made of leave. -/
theorem IssueEnd.drop_eq {s t : State} {i : Instr} (h : IssueEnd s i t) : t.drop = s.drop := by
  cases h <;> rfl

theorem IssueEnd.keyByte_eq {s t : State} {i : Instr} (h : IssueEnd s i t) (P : Params) : keyByte P t = keyByte P s := by
  cases h <;> rfl

/-! ## A host write, when it is the next event -/

section
variable {s : State} {w o : Nat} {v : Word} {rest : List HostLine}

theorem step_write (h : HostDoes s (.write w o v) rest) :
    step s = busWrite Config.machine exec w o v (afterLine s rest .done) := by
  rw [step_host h.1, hostStep, show s.takeTurn.host = _ from h.2]
  rfl

/-- R24: a write to CMD. -/
theorem step_writeCmd (h : HostDoes s (.write 64 0 v) rest) :
    step s = writeCmd exec v (afterLine s rest .done) := by
  rw [step_write h, busWrite, show locate Config.machine 64 0 = _ from locate_reg _ .cmd]

/-- Any other answered write. -/
theorem step_writeTarget {g : Target} (h : HostDoes s (.write w o v) rest) (hloc : locate Config.machine w o = some g)
    (hg : g ≠ .reg .cmd) : step s = .next (writeTarget Config.machine v (afterLine s rest .done) g) := by
  rw [step_write h, busWrite, hloc]
  split
  · cases ‹some g = none›
  · exact absurd (Option.some.inj ‹_›) hg
  · rw [Option.some.inj ‹some g = some _›]

theorem step_writeReg (r : Reg) (h : HostDoes s (.write 64 r.offset v) rest) (hr : r ≠ .cmd) :
    step s = .next (writeReg Config.machine v (afterLine s rest .done) r) :=
  step_writeTarget h (locate_reg _ r) (by simpa using hr)

/-- The offsets past PARAM and below KEYMEM reach nothing (R23). -/
theorem locate_reserved (P : Params) {o : Nat} (h1 : 0x088 ≤ o) (h2 : o ≤ 0xFF8) (h3 : o % 8 = 0) :
    locate P 64 o = some .reserved := by
  have hreg : Reg.all.find? (fun r => r.offset == o) = none := by
    refine List.find?_eq_none.2 fun r _ => ?_
    have : r.offset ≤ 0x080 := by cases r <;> decide
    simp only [beq_iff_eq]
    omega
  have hlow : o < keymemBase := by simp only [keymemBase]; omega
  rw [locate, if_neg (by omega), if_pos hlow, registerAt, hreg]

end

/-! ## The events of a step -/

/-- What a step from `s` can leave, one constructor per kind of event (R72). -/
inductive Event (s : State) : State → Prop where
  /-- A reset (R260). -/
  | reset (turn : nextTurn s = .rst) : Event s (resetEvent s.takeTurn)
  /-- A turn that cannot be taken (log 7). -/
  | passed : Event s s.takeTurn
  /-- A read or a poll (R63, R98). -/
  | answered (rest : List HostLine) (r : Response) : Event s (s.takeTurn.answer rest r)
  /-- A CMD write while BUSY (R224). -/
  | dropped (c : Word) (rest : List HostLine) (does : HostDoes s (.write 64 0 c) rest) (busy : s.fsm ≠ .idle) :
      Event s ((s.takeTurn.answer rest .done).setDrop true)
  /-- A CMD write of an illegal word (R221). -/
  | illegal (c : Word) (rest : List HostLine) (does : HostDoes s (.write 64 0 c) rest) (idle : s.fsm = .idle) :
      Event s (((s.takeTurn.answer rest .done).setDrop false).raiseError .illegalCmd)
  /-- The issue of a command (R225). -/
  | issued (c : Word) (rest : List HostLine) (i : Instr) (t : State) (does : HostDoes s (.write 64 0 c) rest)
      (decodes : decodeWord c = .ok i) (idle : s.fsm = .idle)
      (ends : IssueEnd ((s.takeTurn.answer rest .done).setDrop false) i t) : Event s t
  /-- A host write of anything but CMD. -/
  | stored (w o : Nat) (v : Word) (rest : List HostLine) (g : Target) (does : HostDoes s (.write w o v) rest)
      (located : locate Config.machine w o = some g) (notCmd : g ≠ .reg .cmd) :
      Event s (writeTarget Config.machine v (s.takeTurn.answer rest .done) g)
  /-- The KEYGEN step (R137). -/
  | keygen (turn : nextTurn s = .fsm) (state : s.fsm = .keygen)
      (fits : keygenBytes Config.machine s ≤ Config.machine.keymemBytes) :
      Event s (keygenBody Config.machine s.takeTurn)
  /-- A ROUND step that is not the command's last (R192, R196). -/
  | round (turn : nextTurn s = .fsm) (state : s.fsm = .round) (bound : s.iround < s.actRounds.toNat)
      (more : roundsDone s + 1 < s.actRounds.toNat) : Event s (nextRoundState Config.machine s.takeTurn)
  /-- The last ROUND step (R192, R196). -/
  | lastRound (turn : nextTurn s = .fsm) (state : s.fsm = .round) :
      Event s ((afterRound Config.machine s.takeTurn).completeWith (roundMsg Config.machine s.takeTurn))

theorem roundFault_none_bound {P : Params} {s : State} (h : roundFault P s = none) : s.iround < s.actRounds.toNat := by
  unfold roundFault at h
  split at h
  · cases h
  · omega

theorem encRoundBody_of_dir {P : Params} {s : State} (hd : s.dir = .enc) :
    encRoundBody P s = if s.iround + 1 = s.actRounds.toNat then (afterRound P s).completeWith (roundMsg P s)
      else nextRoundState P s := by
  simp only [encRoundBody_eq, afterRound, roundMsg, roundWith, nextRoundState, nextRound, hd]

theorem decRoundBody_of_dir {P : Params} {s : State} (hd : s.dir = .dec) :
    decRoundBody P s = if s.iround = 0 then (afterRound P s).completeWith (roundMsg P s)
      else nextRoundState P s := by
  simp only [decRoundBody_eq, afterRound, roundMsg, roundWith, nextRoundState, nextRound, hd]

theorem event_of_request {s : State} {c : Word} {rest : List HostLine} {body : State → State}
    (h : HostDoes s (.write 64 0 c) rest)
    (hbody : s.fsm = .idle → Event s (body ((s.takeTurn.answer rest .done).setDrop false))) :
    Event s (issueRequest body (s.takeTurn.answer rest .done)) := by
  by_cases hidle : s.fsm = .idle
  · rw [issueRequest_idle (s := s.takeTurn.answer rest .done) hidle]
    exact hbody hidle
  · rw [issueRequest_busy (s := s.takeTurn.answer rest .done) hidle]
    exact .dropped c rest h hidle

theorem event_of_host {s t : State} (turn : nextTurn s = .host) (h : hostStep Config.machine exec s.takeTurn = .next t) :
    Event s t := by
  rcases hostStep_cases h with ⟨-, rfl⟩ | ⟨w, o, rest, v, -, -, rfl⟩ | ⟨w, o, c, rest, hline, hloc, rfl⟩ |
    ⟨w, o, v, rest, g, hline, hloc, hg, rfl⟩ | ⟨rest, -, rfl⟩
  · exact .passed
  · exact .answered rest _
  · obtain ⟨rfl, rfl⟩ := locate_eq_reg hloc
    refine event_of_request ⟨turn, hline⟩ fun hidle => ?_
    cases hdec : decodeWord c with
    | ok i => exact .issued c rest i _ ⟨turn, hline⟩ hdec hidle (commandBody_end i _)
    | error e => exact .illegal c rest ⟨turn, hline⟩ hidle
  · exact .stored w o v rest g ⟨turn, hline⟩ hloc hg
  · exact .answered _ _

theorem event_of_fsm {s t : State} (turn : nextTurn s = .fsm) (h : fsmStep Config.machine s.takeTurn = .next t) :
    Event s t := by
  rcases fsmStep_cases h with ⟨-, rfl⟩ | ⟨hf, hfits, rfl⟩ | ⟨hf, hfault, hd, rfl⟩ | ⟨hf, hfault, hd, rfl⟩
  · exact .passed
  · exact .keygen turn hf hfits
  all_goals
    have hbound : s.iround < s.actRounds.toNat := roundFault_none_bound hfault
    have hdir : s.dir = _ := hd
  · rw [encRoundBody_of_dir hd]
    split
    · exact .lastRound turn hf
    · rename_i hmore
      refine .round turn hf hbound ?_
      simp only [roundsDone, hdir, State.takeTurn_iround, State.takeTurn_actRounds] at hmore ⊢
      omega
  · rw [decRoundBody_of_dir hd]
    split
    · exact .lastRound turn hf
    · rename_i hmore
      refine .round turn hf hbound ?_
      simp only [roundsDone, hdir, State.takeTurn_iround] at hmore ⊢
      omega

/-- Every step that answers is one of the events. -/
theorem step_event {s t : State} (h : step s = .next t) : Event s t := by
  cases turn : nextTurn s with
  | host => exact event_of_host turn (step_host turn ▸ h)
  | fsm => exact event_of_fsm turn (step_fsm turn ▸ h)
  | rst =>
    rw [step_rst turn, Host.Outcome.next.injEq] at h
    exact h ▸ .reset turn

end Sys2Proof.Machine

/-! SUPPORT. The invariant (spec/10_state.md): it holds after a reset, and every event keeps it. -/

namespace Sys2Proof.Machine

/-! ## Reset -/

theorem inv_reset (P : Params) : Inv P State.reset where
  keymemWf := rfl
  keymemExtent := by simp [State.reset]
  keylenBound := Nat.zero_le _
  errMatches := by simp [State.reset]
  activeChecked := by simp [State.reset]
  inactiveZero := fun _ => ⟨rfl, rfl, rfl, rfl⟩
  roundInBounds := by simp [State.reset]
  keygenChecked := by simp [State.reset]
  cacheWidth := by simp [State.reset]

/-- Neither the environment nor the draw of the next reset is in what a reset establishes. -/
theorem inv_resetEvent (P : Params) (s : State) : Inv P (resetEvent s) :=
  { inv_reset P with keymemWf := rfl }

/-! ## The updates, one at a time -/

section
variable {P : Params} {s : State}

theorem Inv.takeTurn (h : Inv P s) : Inv P s.takeTurn := { h with }

theorem Inv.answer (h : Inv P s) (rest : List HostLine) (r : Response) : Inv P (s.answer rest r) := { h with }

theorem Inv.setDrop (h : Inv P s) (b : Bool) : Inv P (s.setDrop b) := { h with }

theorem Inv.complete (h : Inv P s) : Inv P s.complete :=
  { h with
    errMatches := by simp
    roundInBounds := fun hf => by cases hf
    keygenChecked := fun hf => by cases hf }

theorem Inv.completeWith (h : Inv P s) (out : Word) : Inv P (s.completeWith out) := { h.complete with }

theorem Inv.raiseError (h : Inv P s) {e : ErrCode} (he : e ≠ .noError) : Inv P (s.raiseError e) :=
  { h with
    errMatches := by simp [he]
    roundInBounds := fun hf => by cases hf
    keygenChecked := fun hf => by cases hf }

theorem Inv.clearConfig (h : Inv P s) (hidle : s.fsm = .idle) : Inv P s.clearConfig :=
  { h with
    activeChecked := fun hc => by cases hc
    inactiveZero := fun _ => ⟨rfl, rfl, rfl, rfl⟩
    roundInBounds := fun hf => by cases hidle.symm.trans hf
    keygenChecked := fun hf => by cases hidle.symm.trans hf }

theorem Inv.activate (h : Inv P s) (hidle : s.fsm = .idle) {m r : Word} {v : Bool} {l : BitVec 4}
    (hcheck : cfgCheck P m.toNat r.toNat v l.toNat s.keylen.toNat = .noError) (hl : v = false → l = 0) :
    Inv P (s.activate m r v l) :=
  { h with
    activeChecked := fun _ => ⟨hcheck, hl⟩
    inactiveZero := fun hc => by cases hc
    roundInBounds := fun hf => by cases hidle.symm.trans hf
    keygenChecked := fun hf => by cases hidle.symm.trans hf }

theorem Inv.latchKeygen (h : Inv P s) (hconf : s.configured = false) {m : Word} {v : Bool} {l : BitVec 4} (k : Word)
    (hl : l = if v then 7 else 0)
    (hcheck : cfgCheck P m.toNat (keyRounds m) v l.toNat P.keymemBytes = .noError) :
    Inv P (s.latchKeygen m (keyRounds m) v l k) :=
  { h with
    roundInBounds := fun hf => by cases hf
    keygenChecked := fun _ => ⟨hconf, rfl, hl, hcheck⟩ }

theorem Inv.startRun (h : Inv P s) (hidle : s.fsm = .idle) (x : Word) (d : Dir) : Inv P (s.startRun x d) :=
  { h with
    roundInBounds := fun hf => by cases hidle.symm.trans hf
    cacheWidth := fun hv => by cases hv }

theorem Inv.enterRound (h : Inv P s) (hconf : s.configured = true) {i : Nat} (hi : i < s.actRounds.toNat)
    (hm : s.msg.toNat ≤ s.actMaxmsg.toNat) : Inv P (s.enterRound i) :=
  { h with
    roundInBounds := fun _ => ⟨hconf, hi, hm⟩
    keygenChecked := fun hf => by cases hf }

theorem Inv.setKeylen (h : Inv P s) (hconf : s.configured = false) {n : Word} (hn : n.toNat ≤ P.keymemBytes) :
    Inv P (s.setKeylen n) :=
  { h with
    keylenBound := hn
    activeChecked := fun hc => by cases hconf.symm.trans hc }

theorem Inv.memWrite (h : Inv P s) {a : Nat} {bs : List Byte} (hfits : a + bs.length ≤ P.keymemBytes) :
    Inv P (memWrite P a bs s) :=
  { h with
    keymemWf := Memory.wf_writeBytes _ bs a h.keymemWf
    keymemExtent := Memory.extent_writeBytes _ bs hfits h.keymemExtent }

theorem Inv.setMsg (h : Inv P s) {m : Word} (hm : s.configured = true → m.toNat ≤ s.actMaxmsg.toNat) :
    Inv P (s.setMsg m) :=
  { h with
    roundInBounds := fun hf =>
      have ⟨hconf, hi, _⟩ := h.roundInBounds hf
      ⟨hconf, hi, hm hconf⟩ }

theorem Inv.setIround (h : Inv P s) {i : Nat} (hi : i < s.actRounds.toNat) : Inv P (s.setIround i) :=
  { h with
    roundInBounds := fun hf =>
      have ⟨hconf, _, hm⟩ := h.roundInBounds hf
      ⟨hconf, hi, hm⟩ }

theorem Inv.countHash (h : Inv P s) : Inv P s.countHash := { h with }

theorem Inv.fillCache (h : Inv P s) (tag : Nat) {data : List Byte} (hd : data.length = Config.hashOutAmort) :
    Inv P (s.fillCache tag data) :=
  { h with cacheWidth := fun _ => hd }

/-! ## Host writes -/

theorem clampKeylen_toNat (hP : P.Legal) (v : Word) : (clampKeylen P v).toNat = min v.toNat P.keymemBytes := by
  have := hP.keymemBytes_lt
  exact Nat.mod_eq_of_lt (by omega)

/-- A KEYMEM write needs the lock open, a KEYLEN write too, and no other host write reaches the invariant. -/
theorem Inv.writeReg (hP : P.Legal) (h : Inv P s) (v : Word) (r : Reg) : Inv P (writeReg P v s r) := by
  cases r with
  | keylen =>
    cases hlock : s.locked with
    | true => simpa [Machine.writeReg, hlock] using h
    | false =>
      have hn : (clampKeylen P v).toNat ≤ P.keymemBytes := clampKeylen_toNat hP v ▸ Nat.min_le_right _ _
      simpa [Machine.writeReg, hlock] using h.setKeylen (State.locked_eq_false.1 hlock).1 hn
  | irqPend =>
    simp only [Machine.writeReg]
    split
    · exact { h with }
    · exact h
  | _ => exact { h with }

theorem Inv.writeKeyWord (hP : P.Legal) (h : Inv P s) (v : Word) {k : Nat} (hk : 8 * k < P.keymemBytes) :
    Inv P (writeKeyWord P k v s) := by
  unfold Machine.writeKeyWord
  split
  · exact h
  · refine h.memWrite ?_
    have := hP.wholeWords
    rw [le64_length]
    omega

theorem Inv.writeTarget (hP : P.Legal) (h : Inv P s) (v : Word) {w o : Nat} {g : Target}
    (hloc : locate P w o = some g) : Inv P (writeTarget P v s g) := by
  cases g with
  | reg r => exact h.writeReg hP v r
  | reserved => exact h
  | keyWord k => exact h.writeKeyWord hP v (locate_eq_keyWord hloc).2.2

/-! ## FSM steps -/

/-- The KEYGEN step activates what CONFIG_KEY's issue checked, over a KEYLEN of exactly its bytes (R137). -/
theorem Inv.keygenBody (hP : P.Legal) (h : Inv P s) (hf : s.fsm = .keygen) (hfits : keygenBytes P s ≤ P.keymemBytes) :
    Inv P (keygenBody P s) := by
  obtain ⟨hconf, hr, hl, hcheck⟩ := h.keygenChecked hf
  have hrounds : (BitVec.ofNat 64 s.kgR).toNat = s.kgR := by
    have := keyRounds_le s.kgM
    exact Nat.mod_eq_of_lt (by omega)
  have hbytes : (BitVec.ofNat 64 (keygenBytes P s)).toNat = keygenBytes P s := by
    have := hP.keymemBytes_lt
    exact Nat.mod_eq_of_lt (by omega)
  have hwritten : Inv P (Machine.memWrite P 0 (keySchedule P s.kgKey s.kgR) s) :=
    h.memWrite (by rw [keySchedule, expand_length, Nat.zero_add]; exact hfits)
  have hsized := hwritten.setKeylen hconf (n := BitVec.ofNat 64 (keygenBytes P s)) (hbytes.symm ▸ hfits)
  have hactive : cfgCheck P s.kgM.toNat (BitVec.ofNat 64 s.kgR).toNat s.kgV s.kgL.toNat
      (BitVec.ofNat 64 (keygenBytes P s)).toNat = .noError := by
    obtain ⟨hodd, hlevel, -⟩ := cfgCheck_eq_noError.1 hcheck
    rw [hrounds, hbytes]
    exact cfgCheck_eq_noError.2 ⟨hodd, hlevel, le_refl _⟩
  exact { (hsized.complete.activate rfl hactive fun hv => by rw [hl, hv]; rfl) with }

theorem Inv.roundBit (h : Inv P s) : Inv P (roundBit P s).2 := by
  unfold Machine.roundBit
  rcases bitSource_state P (remainder s.dir s.half s.msg.toNat) s.iround s with hb | hb | ⟨g, d, hd, hb⟩ <;> rw [hb]
  · exact h
  · exact h.countHash
  · exact (h.fillCache g hd).countHash

/-- R199: the round's message stays in the domain. -/
theorem roundMsg_le (h : Inv P s) (hf : s.fsm = .round) : (roundMsg P s).toNat ≤ s.actMaxmsg.toNat := by
  obtain ⟨hconf, -, hm⟩ := h.roundInBounds hf
  have hchecked := h.checkedConfig hconf
  have hlt := roundWith_lt s.dir (Machine.roundBit P s).1 (hchecked.lt_two_half.2 hm)
  rw [roundMsg, BitVec.toNat_ofNat]
  exact le_trans (Nat.mod_le _ _) (hchecked.lt_two_half.1 hlt)

theorem Inv.afterRound (h : Inv P s) (hf : s.fsm = .round) : Inv P (afterRound P s) := by
  refine h.roundBit.setMsg fun _ => ?_
  have hmax : (Machine.afterRound P s).actMaxmsg = s.actMaxmsg := (afterRound_frame P s).config.actMaxmsg
  exact hmax ▸ roundMsg_le h hf

theorem Inv.nextRoundState (h : Inv P s) (hf : s.fsm = .round) (hmore : roundsDone s + 1 < s.actRounds.toNat) :
    Inv P (nextRoundState P s) := by
  obtain ⟨-, hi, -⟩ := h.roundInBounds hf
  exact (h.afterRound hf).setIround ((afterRound_actRounds P s).symm ▸ nextRound_lt hi hmore)

end

/-! ## Every event -/

/-- The issue of a command from an idle block. -/
theorem Inv.issueEnd {s t : State} {i : Instr} (h : Inv Config.machine s) (hidle : s.fsm = .idle)
    (hend : IssueEnd s i t) : Inv Config.machine t := by
  cases hend with
  | denied _ e he => exact h.raiseError he
  | identity _ d _ _ => exact (h.startRun hidle _ d).completeWith _
  | started _ d hconf hx k hk => exact (h.startRun hidle _ d).enterRound hconf hk hx
  | sized => exact h.completeWith _
  | unconfigured => exact (h.clearConfig hidle).complete
  | failed _ e he => exact (h.clearConfig hidle).raiseError he
  | configured _ v l hl hcheck => exact ((h.clearConfig hidle).activate hidle hcheck hl).complete
  | latched _ v l hl hcheck => exact (h.clearConfig hidle).latchKeygen rfl _ hl hcheck

theorem Inv.event {s t : State} (h : Inv Config.machine s) (hevent : Event s t) : Inv Config.machine t := by
  have hP := Config.machine_legal
  have hline : ∀ rest r, Inv Config.machine (s.takeTurn.answer rest r) := h.takeTurn.answer
  cases hevent with
  | reset => exact inv_resetEvent _ _
  | passed => exact h.takeTurn
  | answered rest r => exact hline rest r
  | dropped c rest => exact (hline rest _).setDrop true
  | illegal c rest => exact ((hline rest _).setDrop false).raiseError (by decide)
  | issued c rest i t does decodes idle ends => exact ((hline rest _).setDrop false).issueEnd idle ends
  | stored w o v rest g does located => exact (hline rest _).writeTarget hP v located
  | keygen turn state fits => exact h.takeTurn.keygenBody hP state fits
  | round turn state bound more => exact h.takeTurn.nextRoundState state more
  | lastRound turn state => exact (h.takeTurn.afterRound state).completeWith _

/-- Settles O46: every clause but the canonical memory and the zero ACT registers is vacuous or a number. -/
theorem invHoldsAtReset : Obligations.InvHoldsAtReset := inv_reset Config.machine

/-- Settles O47, event by event, each an update that keeps the invariant under the guard the event carries. -/
theorem stepKeepsInv : Obligations.StepKeepsInv := fun _ _ hinv hstep => hinv.event (step_event hstep)

end Sys2Proof.Machine

/-! SUPPORT. The elements that the spec leaves unspecified at reset (spec/10_state.md R48, R50 to R52): every event leaves
the same live state whether it starts at a state or at its live part. -/

namespace Sys2Proof.Machine

/-! ## Updates -/

theorem live_live (s : State) : live (live s) = live s := by
  cases hf : s.fsm <;> cases hv : s.cacheValid <;> simp [live, hf, hv]

/-- The live part of what `f` leaves depends on the live part of what it starts at. -/
def ReadsLive (f : State → State) : Prop := ∀ s, live (f (live s)) = live (f s)

theorem ReadsLive.congr {f : State → State} (hf : ReadsLive f) {s t : State} (h : live s = live t) :
    live (f s) = live (f t) := by
  rw [← hf s, h, hf t]

/-- An update of elements that are always live. -/
theorem ReadsLive.of_comm {f : State → State} (h : ∀ s, f (live s) = live (f s)) : ReadsLive f := fun s => by
  rw [h, live_live]

theorem readsLive_answer (rest : List HostLine) (r : Response) : ReadsLive (State.answer rest r) := .of_comm fun _ => rfl

theorem readsLive_setIround (i : Nat) : ReadsLive (State.setIround i) := .of_comm fun _ => rfl

theorem readsLive_raiseError (e : ErrCode) : ReadsLive (State.raiseError e) := fun s => by
  cases hv : s.cacheValid <;> simp [live, State.raiseError, hv]

theorem readsLive_complete : ReadsLive State.complete := fun s => by
  cases hv : s.cacheValid <;> simp [live, State.complete, hv]

theorem readsLive_completeWith (out : Word) : ReadsLive (State.completeWith out) := fun s => by
  cases hv : s.cacheValid <;> simp [live, State.completeWith, hv]

theorem readsLive_latchKeygen (m : Word) (r : Nat) (v : Bool) (l : BitVec 4) (k : Word) :
    ReadsLive (State.latchKeygen m r v l k) := fun s => by
  cases hv : s.cacheValid <;> simp [live, State.latchKeygen, hv]

theorem readsLive_setMsg (m : Word) : ReadsLive (State.setMsg m) := fun s => by
  cases hf : s.fsm <;> cases hv : s.cacheValid <;> simp [live, State.setMsg, hf, hv]

theorem readsLive_fillCache (tag : Nat) (data : List Byte) : ReadsLive (State.fillCache tag data) := fun s => by
  cases hf : s.fsm <;> simp [live, State.fillCache, hf]

/-! ## Issue -/

/-- A branch on live elements. -/
theorem ReadsLive.ite {c : State → Prop} [DecidablePred c] {f g : State → State} (hc : ∀ s, c (live s) ↔ c s)
    (hf : ReadsLive f) (hg : ReadsLive g) : ReadsLive fun s => if c s then f s else g s := fun s => by
  dsimp only
  by_cases h : c s
  · rw [if_pos h, if_pos ((hc s).2 h), hf s]
  · rw [if_neg h, if_neg (mt (hc s).1 h), hg s]

/-- MSG, DIR and CACHE_VALID are written before the first round is entered (R190). -/
theorem readsLive_encDecIssue (d : Dir) : ReadsLive (encDecIssue d) :=
  .ite (fun _ => Iff.rfl) (readsLive_raiseError _) <|
    .ite (fun _ => Iff.rfl) (readsLive_raiseError _) <| .ite (fun _ => Iff.rfl) (fun _ => rfl) (fun _ => rfl)

theorem readsLive_configBody (P : Params) (v : Bool) (l : Nat) : ReadsLive (configBody P v l) := by
  rw [funext (configBody_eq P v l)]
  exact .ite (fun _ => Iff.rfl)
    (fun s => readsLive_complete (s.clearConfig.activate s.maxmsg s.rounds v (BitVec.ofNat 4 l)))
    (fun s => readsLive_raiseError _ s.clearConfig)

theorem readsLive_ckeyBody (P : Params) (v : Bool) : ReadsLive (ckeyBody P v) := by
  rw [funext (ckeyBody_eq P v)]
  exact .ite (fun _ => Iff.rfl) (fun s => readsLive_latchKeygen _ _ _ _ _ s.clearConfig)
    (fun s => readsLive_raiseError _ s.clearConfig)

theorem readsLive_commandBody (i : Instr) : ReadsLive (commandBody i) := by
  cases i with
  | config => exact readsLive_configBody _ _ _
  | configO l => exact readsLive_configBody _ _ _
  | ckey => exact readsLive_ckeyBody _ _
  | ckeyO => exact readsLive_ckeyBody _ _
  | enc => exact readsLive_encDecIssue .enc
  | dec => exact readsLive_encDecIssue .dec
  | rpp => exact fun s => readsLive_completeWith _ s
  | unconfig => exact fun s => readsLive_complete s.clearConfig

theorem ReadsLive.issueRequest {body : State → State} (h : ReadsLive body) : ReadsLive (issueRequest body) :=
  .ite (fun _ => Iff.rfl) (fun s => live_live (s.setDrop true)) (fun s => h (s.setDrop false))

/-! ## Host accesses -/

/-- DBG, the only word that shows DIR, shows it in ROUND only (R44). -/
theorem readTarget_live (P : Params) (s : State) (g : Target) : readTarget P (live s) g = readTarget P s g := by
  cases g with
  | reg r =>
    cases r with
    | dbg =>
      have hdir : dbgDir (live s) = dbgDir s := by
        cases hf : s.fsm with
        | round => simp [dbgDir, live, hf]
        | _ => rw [dbgDir, dbgDir, hf, show (live s).fsm = _ from hf]; rfl
      exact congrArg (fun b => BitVec.ofNat 64 (s.fsm.code + 4 * b.toNat + 8 * s.cacheValid.toNat +
        2 ^ 32 * dbgIround s)) hdir
    | _ => rfl
  | reserved => rfl
  | keyWord k => rfl

theorem readsLive_writeTarget (P : Params) (v : Word) (g : Target) : ReadsLive fun s => writeTarget P v s g := by
  refine .of_comm fun s => ?_
  cases g with
  | reg r =>
    cases r with
    | keylen =>
      simp only [writeTarget, writeReg, show (live s).locked = s.locked from rfl]
      split <;> rfl
    | irqPend =>
      simp only [writeTarget, writeReg]
      split <;> rfl
    | _ => rfl
  | reserved => rfl
  | keyWord k =>
    simp only [writeTarget, writeKeyWord, show (live s).locked = s.locked from rfl]
    split <;> rfl

/-- Two answers agree where the live parts of their states do. -/
theorem mapNext_live_next {s t : State} (h : live s = live t) : mapNext live (.next s) = mapNext live (.next t) :=
  congrArg Host.Outcome.next h

theorem hostStep_live (P : Params) (s : State) :
    mapNext live (hostStep P exec (live s)) = mapNext live (hostStep P exec s) := by
  have hread : ∀ w o, busRead P w o (live s) = busRead P w o s := fun w o =>
    congrArg ((locate P w o).map ·) (funext (readTarget_live P s))
  unfold hostStep
  rw [show (live s).host = s.host from rfl]
  split
  · exact mapNext_live_next (live_live s)
  · rw [hread]
    split
    · rfl
    · exact mapNext_live_next (readsLive_answer _ _ s)
  · rename_i w o v rest _
    unfold busWrite
    split
    · rfl
    · rw [writeCmd_eq, writeCmd_eq]
      refine mapNext_live_next (ReadsLive.issueRequest ?_ (s.answer rest .done))
      split
      · exact readsLive_commandBody _
      · exact readsLive_raiseError _
    · exact mapNext_live_next (readsLive_writeTarget P v _ (s.answer rest .done))
  · exact mapNext_live_next (readsLive_answer _ _ s)

/-! ## FSM steps -/

/-- The cache line is read only where it is valid (R52, R166). -/
theorem bitSource_live (P : Params) (r i : Nat) (s : State) :
    (bitSource P r i (live s)).1 = (bitSource P r i s).1 ∧
      live (bitSource P r i (live s)).2 = live (bitSource P r i s).2 := by
  unfold bitSource
  rw [show (live s).actV = s.actV from rfl]
  split
  · unfold prfAmort
    rw [show (live s).half = s.half from rfl, show (live s).actL = s.actL from rfl]
    dsimp only
    generalize amortIndex s.half s.actL.toNat r i = a
    have hline : s.cacheValid = true → (live s).cacheTag = s.cacheTag ∧ (live s).cacheData = s.cacheData := fun hv =>
      ⟨if_pos hv, if_pos hv⟩
    by_cases hit : s.cacheValid = true ∧ s.cacheTag = a.superRound
    · obtain ⟨hv, ht⟩ := hit
      obtain ⟨htag, hdata⟩ := hline hv
      rw [cacheLookup_hit hv ht, cacheLookup_hit (s := live s) hv (htag.trans ht), hdata]
      exact ⟨rfl, live_live s⟩
    · rw [cacheLookup_miss hit, cacheLookup_miss (s := live s) fun ⟨hv, ht⟩ => hit ⟨hv, (hline hv).1.symm.trans ht⟩]
      exact ⟨rfl, readsLive_fillCache a.superRound (wideHash P s a) s.countHash⟩
  · exact ⟨rfl, live_live s.countHash⟩

/-- In KEYGEN the latch is live. -/
theorem keygenStep_live (P : Params) {s : State} (hf : s.fsm = .keygen) :
    mapNext live (keygenStep P (live s)) = mapNext live (keygenStep P s) := by
  have hlatch : SameLatch s (live s) := ⟨if_pos hf, if_pos hf, if_pos hf, if_pos hf, if_pos hf⟩
  have hbytes : keygenBytes P (live s) = keygenBytes P s := by rw [keygenBytes, hlatch.kgR, keygenBytes]
  unfold keygenStep
  rw [hbytes]
  split
  · rfl
  · refine mapNext_live_next ?_
    unfold keygenBody
    rw [hbytes, hlatch.kgM, hlatch.kgR, hlatch.kgV, hlatch.kgL, hlatch.kgKey]
    exact readsLive_complete (((memWrite P 0 (keySchedule P s.kgKey s.kgR) s).setKeylen _).activate _ _ _ _)

section
variable {P : Params} {s : State} (hf : s.fsm = .round)
include hf

theorem live_msg_of_round : (live s).msg = s.msg := if_pos hf

theorem live_dir_of_round : (live s).dir = s.dir := if_pos hf

theorem roundFault_live : roundFault P (live s) = roundFault P s := by
  unfold roundFault
  rw [live_msg_of_round hf]
  rfl

theorem roundBit_live :
    (roundBit P (live s)).1 = (roundBit P s).1 ∧ live (roundBit P (live s)).2 = live (roundBit P s).2 := by
  unfold roundBit
  rw [live_msg_of_round hf, live_dir_of_round hf]
  exact bitSource_live P _ _ s

theorem roundMsg_live : roundMsg P (live s) = roundMsg P s := by
  unfold roundMsg
  rw [live_msg_of_round hf, live_dir_of_round hf, (roundBit_live hf).1]
  rfl

theorem afterRound_live : live (afterRound P (live s)) = live (afterRound P s) := by
  unfold afterRound
  rw [roundMsg_live hf]
  exact (readsLive_setMsg _).congr (roundBit_live hf).2

theorem completeRound_live :
    live ((afterRound P (live s)).completeWith (roundMsg P (live s))) =
      live ((afterRound P s).completeWith (roundMsg P s)) := by
  rw [roundMsg_live hf]
  exact (readsLive_completeWith _).congr (afterRound_live hf)

theorem nextRoundState_live : live (nextRoundState P (live s)) = live (nextRoundState P s) := by
  unfold nextRoundState
  rw [live_dir_of_round hf]
  exact (readsLive_setIround _).congr (afterRound_live hf)

/-- The round's two ends. -/
theorem roundEnd_live (last : Prop) [Decidable last] :
    live (if last then (afterRound P (live s)).completeWith (roundMsg P (live s)) else nextRoundState P (live s)) =
      live (if last then (afterRound P s).completeWith (roundMsg P s) else nextRoundState P s) := by
  split
  · exact completeRound_live hf
  · exact nextRoundState_live hf

/-- In ROUND MSG and DIR are live. -/
theorem roundStep_live : mapNext live (roundStep P (live s)) = mapNext live (roundStep P s) := by
  have hdir := live_dir_of_round hf
  unfold roundStep
  rw [roundFault_live hf, hdir]
  split
  · rfl
  · split
    · rename_i hd
      rw [encRoundBody_of_dir hd, encRoundBody_of_dir (hdir.trans hd)]
      exact mapNext_live_next (roundEnd_live hf _)
    · rename_i hd
      rw [decRoundBody_of_dir hd, decRoundBody_of_dir (hdir.trans hd)]
      exact mapNext_live_next (roundEnd_live hf _)

end

theorem fsmStep_live (P : Params) (s : State) : mapNext live (fsmStep P (live s)) = mapNext live (fsmStep P s) := by
  unfold fsmStep
  rw [show (live s).fsm = s.fsm from rfl]
  split
  · exact mapNext_live_next (live_live s)
  · exact keygenStep_live P ‹_›
  · exact roundStep_live ‹_›

/-! ## The step -/

theorem step_live (s : State) : mapNext live (step (live s)) = mapNext live (step s) := by
  have hturn : nextTurn (live s) = nextTurn s := rfl
  cases turn : nextTurn s with
  | host =>
    rw [step_host turn, step_host (hturn.trans turn)]
    exact hostStep_live _ s.takeTurn
  | fsm =>
    rw [step_fsm turn, step_fsm (hturn.trans turn)]
    exact fsmStep_live _ s.takeTurn
  | rst =>
    rw [step_rst turn, step_rst (hturn.trans turn)]
    rfl

/-- Settles O54: both steps are, in their live part, the step of the one live part. -/
theorem unspecifiedValuesAreNeverRead : Obligations.UnspecifiedValuesAreNeverRead := fun s t h => by
  rw [← step_live s, h, step_live t]

end Sys2Proof.Machine

/-! SUPPORT. The register window and what each register changes by (spec/10_state.md R22 to R46): the accesses one by one,
then the events that touch each element of the state. -/

namespace Sys2Proof.Machine

/-! ## CMD -/

/-- A word that `withFetchWord` places is the host's next write, to CMD. -/
theorem withFetchWord_does (s : State) (w : Nat) :
    HostDoes (s.withFetchWord 64 w) (.write 64 0 (BitVec.ofNat 64 (w % 2 ^ 64))) s.host := ⟨rfl, rfl⟩

theorem decodeTableWord_eq_some {w : Nat} {i : Instr} (h : decodeTableWord 64 w = some i) :
    decodeWord (BitVec.ofNat 64 (w % 2 ^ 64)) = .ok i := by
  have hlt : w % 2 ^ 64 < 2 ^ 64 := Nat.mod_lt _ (by decide)
  have hword := decodeBytes_le64 (BitVec.ofNat 64 (w % 2 ^ 64))
  rw [BitVec.toNat_ofNat, Nat.mod_mod] at hword
  rw [decodeTableWord, if_pos hlt, hword] at h
  cases hd : decodeWord (BitVec.ofNat 64 (w % 2 ^ 64)) with
  | ok j => rw [hd] at h; exact congrArg Except.ok (Option.some.inj h)
  | error e => rw [hd] at h; cases h

theorem step_of_decoded {s : State} {c : Word} {rest : List HostLine} {i : Instr} (h : HostDoes s (.write 64 0 c) rest)
    (hi : decodeWord c = .ok i) : step s = exec i (afterLine s rest .done) := by
  rw [step_writeCmd h, writeCmd, hi]

/-- Settles O5: the bus sends a write of offset 0 to the decoder. -/
theorem stepRunsTheDecodedCommand : Obligations.StepRunsTheDecodedCommand :=
  ⟨fun _ _ _ _ h hi => step_of_decoded h hi,
   fun s w _ hi => step_of_decoded (withFetchWord_does s w) (decodeTableWord_eq_some hi)⟩

/-- Settles O7: legal or not, the word is an issue request, and a busy block drops every request. -/
theorem busyCommandIsDropped : Obligations.BusyCommandIsDropped := by
  refine ⟨fun s c rest h hbusy => ?_, fun i s hbusy => ?_⟩
  · rw [step_writeCmd h, writeCmd_eq, issueRequest_busy (s := afterLine s rest .done) hbusy]
    rfl
  · rw [exec_eq, issueRequest_busy hbusy]
    rfl

/-! ## Reads -/

theorem busRead_reg (P : Params) (s : State) (r : Reg) : busRead P 64 r.offset s = some (readReg P s r) := by
  rw [busRead, locate_reg]
  rfl

theorem bitWord_eq (b : Bool) : bitWord b = if b then 1 else 0 := by cases b <;> rfl

/-- Settles O11: each register is reached at its offset, and past PARAM nothing is. -/
theorem registerOffsetsRead : Obligations.RegisterOffsetsRead := by
  intro P s
  have hread := busRead_reg P s
  refine ⟨hread .cmd, hread .status, hread .maxmsg, hread .rounds, hread .keylen, hread .keynum, hread .dataIn,
    hread .dataOut, hread .actMaxmsg, hread .actRounds, hread .actCfg, ?_, ?_, hread .hashcnt, hread .dbg, hread .id,
    hread .param, fun o h1 h2 h3 => ?_⟩
  · exact bitWord_eq s.irqEn ▸ hread .irqEn
  · exact bitWord_eq s.irqPend ▸ hread .irqPend
  · rw [busRead, locate_reserved P h1 h2 h3]
    rfl

/-! ## Writes of registers -/

/-- Settles O18: each offset is its register's, and KEYLEN's lock is open. -/
theorem hostWritesOperandRegisters : Obligations.HostWritesOperandRegisters := by
  intro s rest o v h u
  refine ⟨?_, ?_, ?_, ?_, ?_, ?_⟩
  · rintro rfl; exact step_writeReg .maxmsg h (by decide)
  · rintro rfl; exact step_writeReg .rounds h (by decide)
  · rintro rfl; exact step_writeReg .keynum h (by decide)
  · rintro rfl; exact step_writeReg .dataIn h (by decide)
  · rintro rfl; exact step_writeReg .irqEn h (by decide)
  · rintro rfl hconf hidle
    have hopen : (afterLine s rest .done).locked = false := State.locked_eq_false.2 ⟨hconf, hidle⟩
    refine ⟨_, clampKeylen_toNat Config.machine_legal v, ?_⟩
    rw [step_writeReg .keylen h (by decide), writeReg, hopen]
    rfl

/-- Settles O19, by the two values of bit 0. -/
theorem irqPendIsWriteOneToClear : Obligations.IrqPendIsWriteOneToClear := by
  intro s rest v h
  rw [step_writeReg .irqPend h (by decide), writeReg]
  cases hbit : v.getLsbD 0 with
  | true => simp [afterLine]
  | false => simp [afterLine]

/-- Settles O20: the read-only registers by name, the rest as reserved offsets. -/
theorem readOnlyWritesAreIgnored : Obligations.ReadOnlyWritesAreIgnored := by
  intro s rest o v h ho
  rcases ho with ho | ⟨h1, h2, h3⟩
  · simp only [List.mem_cons, List.not_mem_nil, or_false] at ho
    rcases ho with rfl | rfl | rfl | rfl | rfl | rfl | rfl | rfl | rfl
    · exact step_writeReg .status h (by decide)
    · exact step_writeReg .dataOut h (by decide)
    · exact step_writeReg .actMaxmsg h (by decide)
    · exact step_writeReg .actRounds h (by decide)
    · exact step_writeReg .actCfg h (by decide)
    · exact step_writeReg .hashcnt h (by decide)
    · exact step_writeReg .dbg h (by decide)
    · exact step_writeReg .id h (by decide)
    · exact step_writeReg .param h (by decide)
  · exact step_writeTarget h (locate_reserved _ h1 h2 h3) (by decide)

/-! ## KEYMEM and its lock -/

theorem locked_of_configured_or_busy {s : State} (h : s.configured = true ∨ s.fsm ≠ .idle) : s.locked = true := by
  rw [← Bool.not_eq_false, State.locked_eq_false]
  rintro ⟨hconf, hidle⟩
  rcases h with h | h
  · cases hconf.symm.trans h
  · exact h hidle

/-- A host write changes no KEYMEM byte but those of the word it reaches, and those with the lock open only (R46, R66). -/
theorem writeTarget_keyByte {P : Params} {v : Word} {s : State} {g : Target} {a : Nat}
    (h : keyByte P (writeTarget P v s g) a ≠ keyByte P s a) :
    ∃ k, g = .keyWord k ∧ s.locked = false ∧ 8 * k ≤ a ∧ a < 8 * k + 8 := by
  cases g with
  | reg r =>
    refine absurd ?_ h
    cases r with
    | keylen | irqPend =>
      simp only [writeTarget, writeReg]
      split <;> rfl
    | _ => rfl
  | reserved => exact absurd rfl h
  | keyWord k =>
    cases hlock : s.locked with
    | true => exact absurd (by simp only [writeTarget, writeKeyWord, hlock, if_true]) h
    | false =>
      refine ⟨k, rfl, rfl, ?_⟩
      by_contra hout
      refine h ?_
      simp only [writeTarget, writeKeyWord, hlock, Bool.false_eq_true, if_false]
      exact keyByte_memWrite_outside P s _ (by rw [le64_length]; omega)

/-- A KEYGEN step writes only the bytes it expands (R137). -/
theorem keygenBody_keyByte (P : Params) (s : State) {a : Nat} (h : keygenBytes P s ≤ a) :
    keyByte P (keygenBody P s) a = keyByte P s a := by
  have hlen : (keySchedule P s.kgKey s.kgR).length = keygenBytes P s := expand_length _ _ _
  exact keyByte_memWrite_outside P s (keySchedule P s.kgKey s.kgR) (.inr (by rw [hlen]; omega))

/-- Settles O17, event by event. -/
theorem keymemChangesOnlyBy : Obligations.KeymemChangesOnlyBy := by
  intro s t a hstep hne
  cases step_event hstep with
  | reset turn => exact .inl turn
  | passed | answered | dropped | illegal => exact absurd rfl hne
  | issued c rest i t does decodes idle ends => exact absurd (congrFun (ends.keyByte_eq _) a) hne
  | round => exact absurd ((nextRoundState_frame _ _).keymem a) hne
  | lastRound => exact absurd (((afterRound_frame _ _).trans (completeWith_frame _ _ _)).keymem a) hne
  | keygen turn state fits =>
    refine .inr (.inl ⟨turn, state, not_le.1 fun hle => hne ?_⟩)
    exact keygenBody_keyByte _ s.takeTurn hle
  | stored w o v rest g does located notCmd =>
    obtain ⟨k, rfl, hopen, hlo, hhi⟩ := writeTarget_keyByte (s := s.takeTurn.answer rest .done) hne
    obtain ⟨rfl, rfl, -⟩ := locate_eq_keyWord located
    obtain ⟨hconf, hidle⟩ := State.locked_eq_false.1 hopen
    exact .inr (.inr ⟨k, v, rest, does, hlo, hhi, hconf, hidle⟩)

/-- Settles O16: a locked write reaches its target and is dropped there; and of the events that change KEYMEM the host's
write needs the lock open. -/
theorem keyLock : Obligations.KeyLock := by
  refine ⟨fun s rest o v h ho hlock => ?_, fun s t a hstep hlock hne => ?_⟩
  · have hlocked : (afterLine s rest .done).locked = true := locked_of_configured_or_busy hlock
    rcases ho with rfl | ⟨h8, hlo, hhi⟩
    · rw [step_writeReg .keylen h (by decide), writeReg, hlocked, if_pos rfl]
    · have hword : o = keymemBase + 8 * ((o - keymemBase) / 8) := by simp only [keymemBase]; omega
      have hloc := locate_keyWord Config.machine (k := (o - keymemBase) / 8) (by simp only [keymemBase]; omega)
      rw [← hword] at hloc
      rw [step_writeTarget h hloc (by simp), writeTarget, writeKeyWord, hlocked, if_pos rfl]
  · rcases keymemChangesOnlyBy s t a hstep hne with turn | ⟨turn, state, -⟩ | ⟨k, v, rest, -, -, -, hconf, hidle⟩
    · exact .inl turn
    · exact .inr ⟨turn, state⟩
    · cases (locked_of_configured_or_busy hlock).symm.trans (State.locked_eq_false.2 ⟨hconf, hidle⟩)

/-! ## The registers of results and status -/

/-- What no host write but one to CMD changes. -/
structure StoreFrame (s t : State) : Prop where
  configured : t.configured = s.configured
  drop : t.drop = s.drop
  dataOut : t.dataOut = s.dataOut
  hashcnt : t.hashcnt = s.hashcnt

theorem writeTarget_frame (P : Params) (v : Word) (s : State) (g : Target) : StoreFrame s (writeTarget P v s g) := by
  cases g with
  | reg r =>
    cases r with
    | keylen | irqPend =>
      simp only [writeTarget, writeReg]
      split <;> exact ⟨rfl, rfl, rfl, rfl⟩
    | _ => exact ⟨rfl, rfl, rfl, rfl⟩
  | reserved => exact ⟨rfl, rfl, rfl, rfl⟩
  | keyWord k =>
    simp only [writeTarget, writeKeyWord]
    split <;> exact ⟨rfl, rfl, rfl, rfl⟩

theorem afterRound_drop (P : Params) (s : State) : (afterRound P s).drop = s.drop :=
  roundBit_keeps P (·.drop) (fun _ => rfl) (fun _ _ _ => rfl) s

/-- A round calls the hash at most once (R240). -/
theorem afterRound_hashcnt_cases (P : Params) (s : State) :
    (afterRound P s).hashcnt = s.hashcnt ∨ (afterRound P s).hashcnt = s.hashcnt + 1 := by
  have hcount : (afterRound P s).hashcnt = _ := bitSource_hashcnt P s (remainder s.dir s.half s.msg.toNat) s.iround
  rw [hcount]
  split
  · exact .inl rfl
  · exact .inr rfl

/-- Settles O8: an issue starts by clearing DROP, and no end of it, no other write and no FSM step writes it. -/
theorem dropChangesOnlyAtCmdWrites : Obligations.DropChangesOnlyAtCmdWrites := by
  intro s t hstep hne
  cases step_event hstep with
  | reset turn => exact .inl ⟨turn, rfl⟩
  | passed | answered | keygen => exact absurd rfl hne
  | dropped c rest does busy => exact .inr ⟨c, rest, does, (State.busy_eq_true.2 busy).symm⟩
  | illegal c rest does idle => exact .inr ⟨c, rest, does, (State.busy_eq_false.2 idle).symm⟩
  | issued c rest i t does decodes idle ends =>
    exact .inr ⟨c, rest, does, ends.drop_eq.trans (State.busy_eq_false.2 idle).symm⟩
  | stored w o v rest g => exact absurd (writeTarget_frame _ v _ g).drop hne
  | round | lastRound => exact absurd (afterRound_drop _ _) hne

/-- Settles O49: only the completions with a result write DATA_OUT. -/
theorem dataOutChangesOnlyBy : Obligations.DataOutChangesOnlyBy := by
  intro s t hstep hne
  cases step_event hstep with
  | reset turn => exact .inl turn
  | passed | answered | dropped | illegal | keygen => exact absurd rfl hne
  | stored w o v rest g => exact absurd (writeTarget_frame _ v _ g).dataOut hne
  | round => exact absurd (afterRound_dataOut _ _) hne
  | lastRound turn state => exact .inr ⟨rfl, rfl, rfl, rfl, .inl ⟨turn, state⟩⟩
  | issued c rest i t does decodes idle ends =>
    have hissues : Issues s i := ⟨c, rest, does, decodes, State.busy_eq_false.2 idle⟩
    cases ends with
    | denied | started | unconfigured | failed | configured | latched => exact absurd rfl hne
    | identity hi => exact .inr ⟨rfl, rfl, rfl, rfl, .inr ⟨i, hissues, hi.imp_right .inl⟩⟩
    | sized => exact .inr ⟨rfl, rfl, rfl, rfl, .inr ⟨.rpp, hissues, .inr (.inr rfl)⟩⟩

/-- Settles O50: the accepted ENCRYPT or DECRYPT clears HASHCNT, and a round adds its one call or none. -/
theorem hashcntChangesOnlyBy : Obligations.HashcntChangesOnlyBy := by
  intro s t hstep hne
  cases step_event hstep with
  | reset turn => exact .inl ⟨turn, rfl⟩
  | passed | answered | dropped | illegal | keygen => exact absurd rfl hne
  | stored w o v rest g => exact absurd (writeTarget_frame _ v _ g).hashcnt hne
  | round turn state | lastRound turn state =>
    exact .inr (.inl ⟨turn, state, (afterRound_hashcnt_cases _ s.takeTurn).resolve_left hne⟩)
  | issued c rest i t does decodes idle ends =>
    have hissues : Issues s i := ⟨c, rest, does, decodes, State.busy_eq_false.2 idle⟩
    cases ends with
    | denied | sized | unconfigured | failed | configured | latched => exact absurd rfl hne
    | identity hi d hconf hx | started hi d hconf hx => exact .inr (.inr ⟨i, hissues, hi, hconf, hx, rfl⟩)

/-! ## CONFIGURED -/

/-- The events of R26, each with the value it gives CONFIGURED. -/
theorem configured_changes {s t : State} (hevent : Event s t) (hne : t.configured ≠ s.configured) :
    (nextTurn s = .rst ∧ t.configured = false) ∨ (FsmDoes s ∧ s.fsm = .keygen ∧ t.configured = true) ∨
    ∃ i, Issues s i ∧ (t.configured = true ∧ (i = .config ∨ ∃ l, i = .configO l) ∨
      t.configured = false ∧ i ≠ .enc ∧ i ≠ .dec ∧ i ≠ .rpp) := by
  cases hevent with
  | reset turn => exact .inl ⟨turn, rfl⟩
  | passed | answered | dropped | illegal => exact absurd rfl hne
  | stored w o v rest g => exact absurd (writeTarget_frame _ v _ g).configured hne
  | round => exact absurd (nextRoundState_frame _ _).config.configured hne
  | lastRound => exact absurd (afterRound_frame _ _).config.configured hne
  | keygen turn state => exact .inr (.inl ⟨turn, state, rfl⟩)
  | issued c rest i t does decodes idle ends =>
    refine .inr (.inr ⟨i, ⟨c, rest, does, decodes, State.busy_eq_false.2 idle⟩, ?_⟩)
    cases ends with
    | denied | identity | started | sized => exact absurd rfl hne
    | configured hi => exact .inl ⟨rfl, hi⟩
    | unconfigured => exact .inr ⟨rfl, by decide⟩
    | failed hi => exact .inr ⟨rfl, hi⟩
    | latched hi => exact .inr ⟨rfl, by rcases hi with rfl | rfl <;> decide⟩

/-- Settles O32: the direction of the change picks the event, and the last part is the invariant after the step. -/
theorem configuredChangesOnlyBy : Obligations.ConfiguredChangesOnlyBy := by
  intro s t hinv hstep
  have hchanges := configured_changes (step_event hstep)
  refine ⟨fun hs ht => ?_, fun hs ht => ?_, fun ht => ((stepKeepsInv s t hinv hstep).activeChecked ht).1⟩
  · simpa [hs, ht] using hchanges
  · simpa [hs, ht] using hchanges

/-! ## Reset -/

/-- Settles O55: the next state is the reset value with the environment kept, so each element is read off it. -/
theorem resetEvent_leaves : Obligations.ResetEvent := fun _ turn =>
  ⟨_, step_rst turn, rfl, rfl, rfl, rfl, rfl, rfl, rfl, rfl, rfl, rfl, rfl, rfl, rfl, rfl, rfl, rfl, rfl, rfl,
    fun _ => rfl, rfl, rfl, rfl⟩

end Sys2Proof.Machine

/-! SUPPORT. The words made of flags (spec/10_state.md R25 to R29, R38, R43, R44) bit by bit, and the byte sequences of the
oracle ports (spec/20_memory.md R68, R69, R75, R76). -/

namespace Sys2Proof.Machine

/-! ## Bits of a word given as a number -/

theorem extractLsb'_ofNat_toNat (n start len : Nat) (hn : n < 2 ^ 64) :
    ((BitVec.ofNat 64 n).extractLsb' start len).toNat = n / 2 ^ start % 2 ^ len := by
  rw [BitVec.extractLsb'_toNat, BitVec.toNat_ofNat, Nat.mod_eq_of_lt hn, Nat.shiftRight_eq_div_pow]

theorem getLsbD_ofNat (n i : Nat) (hn : n < 2 ^ 64) : (BitVec.ofNat 64 n).getLsbD i = n.testBit i := by
  rw [← BitVec.testBit_toNat, BitVec.toNat_ofNat, Nat.mod_eq_of_lt hn]

/-- A flag in the lowest bit. -/
theorem testBit_flag (b : Bool) (n i : Nat) : (b.toNat + 2 * n).testBit i = if i = 0 then b else n.testBit (i - 1) := by
  cases i with
  | zero => cases b <;> simp [Nat.testBit_zero]
  | succ i =>
    rw [Nat.testBit_succ, if_neg (Nat.succ_ne_zero i), show (b.toNat + 2 * n) / 2 = n by cases b <;> simp; omega]
    rfl

/-! ## STATUS -/

theorem ErrCode.code_lt (e : ErrCode) : e.code < 8 := by cases e <;> decide

/-- STATUS as its flags from bit 0 up, and ERRCODE four bits above the last of them. -/
def statusNat (s : State) : Nat :=
  s.busy.toNat + 2 * (s.configured.toNat + 2 * (s.err.toNat + 2 * (s.drop.toNat + 2 * (2 ^ 4 * s.errcode.code))))

theorem statusWord_eq (s : State) : statusWord s = BitVec.ofNat 64 (statusNat s) := by
  unfold statusWord statusNat
  congr 1
  omega

theorem statusNat_lt (s : State) : statusNat s < 2 ^ 64 := by
  have := s.busy.toNat_le
  have := s.configured.toNat_le
  have := s.err.toNat_le
  have := s.drop.toNat_le
  have := s.errcode.code_lt
  unfold statusNat
  omega

theorem statusNat_errcode (s : State) : statusNat s / 2 ^ 8 % 2 ^ 4 = s.errcode.code := by
  have := s.busy.toNat_le
  have := s.configured.toNat_le
  have := s.err.toNat_le
  have := s.drop.toNat_le
  have := s.errcode.code_lt
  unfold statusNat
  omega

theorem statusNat_testBit (s : State) (i : Nat) :
    (statusNat s).testBit i =
      if i = 0 then s.busy else if i = 1 then s.configured else if i = 2 then s.err else if i = 3 then s.drop
      else if 8 ≤ i ∧ i < 12 then s.errcode.code.testBit (i - 8) else false := by
  unfold statusNat
  rw [testBit_flag, testBit_flag, testBit_flag, testBit_flag]
  match i with
  | 0 | 1 | 2 | 3 => rfl
  | i + 4 =>
    show (2 ^ 4 * s.errcode.code).testBit i =
      if 8 ≤ i + 4 ∧ i + 4 < 12 then s.errcode.code.testBit (i + 4 - 8) else false
    rw [Nat.testBit_two_pow_mul, show i + 4 - 8 = i - 4 by omega]
    by_cases hfield : 8 ≤ i + 4 ∧ i + 4 < 12
    · rw [if_pos hfield, decide_eq_true (by omega : i ≥ 4), Bool.true_and]
    · rw [if_neg hfield]
      by_cases hlow : i ≥ 4
      · have hhigh : 2 ^ 3 ≤ 2 ^ (i - 4) := Nat.pow_le_pow_right (by decide) (by omega)
        rw [Nat.testBit_lt_two_pow (lt_of_lt_of_le s.errcode.code_lt hhigh), Bool.and_false]
      · rw [decide_eq_false hlow, Bool.false_and]

/-- Settles O12: STATUS is its flags stacked, and ERRCODE below 8. -/
theorem statusBits : Obligations.StatusBits := by
  intro s
  rw [statusWord_eq]
  refine ⟨fun i => ?_, ?_⟩
  · rw [getLsbD_ofNat _ i (statusNat_lt s), statusNat_testBit]
    rfl
  · rw [extractLsb'_ofNat_toNat _ _ _ (statusNat_lt s), statusNat_errcode]
    cases s.errcode <;> rfl

/-! ## DBG -/

/-- DBG as a number, within a word whatever IROUND is. -/
def dbgNat (s : State) : Nat := s.fsm.code + 4 * (dbgDir s).toNat + 8 * s.cacheValid.toNat + 2 ^ 32 * dbgIround s

theorem FsmState.code_lt (f : FsmState) : f.code < 4 := by cases f <;> decide

theorem dbgIround_lt (s : State) : dbgIround s < 2 ^ 32 := by
  unfold dbgIround
  split <;> omega

theorem testBit_eq_of_div_mod {n i : Nat} {b : Bool} (h : n / 2 ^ i % 2 = b.toNat) : n.testBit i = b := by
  rw [Nat.testBit_eq_decide_div_mod_eq, h]
  cases b <;> rfl

/-- Settles O13: the fields do not overlap, so each divides out. -/
theorem dbgFields : Obligations.DbgFields := by
  intro s hround
  have hstate := s.fsm.code_lt
  have hdir := (dbgDir s).toNat_le
  have hvalid := s.cacheValid.toNat_le
  have hiround := dbgIround_lt s
  have hlt : dbgNat s < 2 ^ 64 := by unfold dbgNat; omega
  have hfield := fun start len => extractLsb'_ofNat_toNat (dbgNat s) start len hlt
  rw [show dbgWord s = BitVec.ofNat 64 (dbgNat s) from rfl]
  refine ⟨?_, ?_, ?_, ?_, ?_⟩
  · have : dbgNat s / 2 ^ 0 % 2 ^ 2 = s.fsm.code := by unfold dbgNat; omega
    rw [hfield, this]
    cases s.fsm <;> rfl
  · rw [getLsbD_ofNat _ _ hlt]
    exact testBit_eq_of_div_mod (b := dbgDir s) (by unfold dbgNat; omega)
  · rw [getLsbD_ofNat _ _ hlt]
    exact testBit_eq_of_div_mod (by unfold dbgNat; omega)
  · refine BitVec.eq_of_toNat_eq ((hfield 4 28).trans ?_)
    show _ = 0
    unfold dbgNat
    omega
  · have : dbgNat s / 2 ^ 32 % 2 ^ 32 = dbgIround s := by unfold dbgNat; omega
    rw [hfield, this, dbgIround, Nat.mod_eq_of_lt hround]

/-! ## ACT_CFG and PARAM -/

theorem actCfgWord_fields (s : State) :
    (actCfgWord s).getLsbD 4 = s.actV ∧ (actCfgWord s).extractLsb' 8 4 = s.actL ∧
      (actCfgWord s).extractLsb' 0 4 = 0 ∧ (actCfgWord s).extractLsb' 5 3 = 0 ∧ (actCfgWord s).extractLsb' 12 52 = 0 := by
  have hv := s.actV.toNat_le
  have hl := s.actL.isLt
  have hlt : 16 * s.actV.toNat + 256 * s.actL.toNat < 2 ^ 64 := by omega
  have hfield := fun start len => extractLsb'_ofNat_toNat (16 * s.actV.toNat + 256 * s.actL.toNat) start len hlt
  refine ⟨?_, BitVec.eq_of_toNat_eq ((hfield 8 4).trans (by omega)), BitVec.eq_of_toNat_eq ((hfield 0 4).trans ?_),
    BitVec.eq_of_toNat_eq ((hfield 5 3).trans ?_), BitVec.eq_of_toNat_eq ((hfield 12 52).trans ?_)⟩
  · rw [actCfgWord, getLsbD_ofNat _ _ hlt]
    exact testBit_eq_of_div_mod (by omega)
  all_goals
    show _ = 0
    omega

theorem paramWord_fields {P : Params} (hP : P.Legal) :
    ((paramWord P).extractLsb' 0 8).toNat = P.keySlotBytes ∧ ((paramWord P).extractLsb' 8 8).toNat = P.seedBytes ∧
      ((paramWord P).extractLsb' 16 8).toNat = P.hashOutBasic ∧ ((paramWord P).extractLsb' 24 8).toNat = 64 ∧
      ((paramWord P).extractLsb' 32 32).toNat = P.keySlotsMax := by
  obtain ⟨⟨-, hslot⟩, ⟨-, hseed⟩, ⟨-, hhash⟩, ⟨-, hmax⟩, -⟩ := hP
  unfold paramWord Config.hashOutAmort
  refine ⟨?_, ?_, ?_, ?_, ?_⟩
  all_goals
    rw [extractLsb'_ofNat_toNat _ _ _ (by omega)]
    omega

/-- Settles O14: in both words no field reaches the next. -/
theorem cfgAndParamFields : Obligations.CfgAndParamFields := ⟨actCfgWord_fields, fun _ hP => paramWord_fields hP⟩

/-! ## Byte sequences -/

/-- A byte sequence given byte by byte. -/
theorem map_range_getElem? (f : Nat → Byte) {n j : Nat} (hj : j < n) : ((List.range n).map f)[j]? = some (f j) := by
  simp [hj]

theorem le64_byte {v j : Nat} (hj : j < 8) : ∃ b : Byte, (le64 v)[j]? = some b ∧ b.toNat = v / 2 ^ (8 * j) % 256 :=
  ⟨_, map_range_getElem? _ hj, BitVec.toNat_ofNat _ _⟩

theorem bitOf_eq {h : List Byte} {j : Nat} {b : Byte} (hb : h[j / 8]? = some b) : bitOf h j = b.getLsbD (j % 8) := by
  rw [bitOf, List.getD_eq_getElem?_getD, hb]
  rfl

/-- Settles O57: each sequence is a map over the byte numbers below its length. -/
theorem slotsAndOraclePortsByteByByte : Obligations.SlotsAndOraclePortsByteByByte :=
  ⟨fun P s _ => ⟨memRead_length P s _ _, fun _ hj => map_range_getElem? _ hj⟩,
    fun v _ => ⟨le64_length v, fun _ hj => le64_byte hj⟩,
    fun P key msg n => ⟨hash_length P key msg n, fun _ hj => map_range_getElem? _ hj⟩,
    fun P seed n => ⟨expand_length P seed n, fun _ hj => map_range_getElem? _ hj⟩,
    rfl, rfl, fun _ _ _ hb => bitOf_eq hb⟩

end Sys2Proof.Machine

/-! SUPPORT. Host accesses (spec/20_memory.md): which of them are answered, reads and polls, the bytes of a KEYMEM word, the
place of the window in the system, and that nothing else stops a run. -/

namespace Sys2Proof.Machine

/-! ## Answered accesses -/

/-- The ERROR responses, with the numbers of R61 and R62. -/
theorem locate_eq_none_iff {P : Params} {w o : Nat} :
    locate P w o = none ↔ w ≠ 64 ∨ o % 8 ≠ 0 ∨ 0x1000 + P.keymemBytes ≤ o := locate_eq_none.trans or_assoc

theorem locate_answers {P : Params} {o : Nat} (h8 : o % 8 = 0) (hlt : o < 0x1000 + P.keymemBytes) :
    ∃ g, locate P 64 o = some g :=
  Option.ne_none_iff_exists'.1 fun hnone => by
    have := locate_eq_none_iff.1 hnone
    omega

section
variable {s : State} {l : HostLine} {w o : Nat} {v : Word} {rest : List HostLine}

/-- An answered read moves only the environment on (R63). -/
theorem step_read {g : Target} (h : HostDoes s (.read w o) rest) (hloc : locate Config.machine w o = some g) :
    step s = .next (afterLine s rest (.data (readTarget Config.machine s g))) := by
  rw [step_host h.1, hostStep, show s.takeTurn.host = _ from h.2]
  simp only [busRead, hloc, Option.map_some]
  cases g with
  | reg r => cases r <;> rfl
  | _ => rfl

theorem step_poll (h : HostDoes s .poll rest) :
    step s = .next (afterLine s (if s.busy then .poll :: rest else rest) (.data (statusWord s))) := by
  rw [step_host h.1, hostStep, show s.takeTurn.host = _ from h.2]
  rfl

/-- An ERROR response stops the run (R61, R62). -/
theorem step_access_error (h : HostDoes s l rest) (hl : l = .read w o ∨ l = .write w o v)
    (hloc : locate Config.machine w o = none) : step s = .fault (.busError o) := by
  rcases hl with rfl | rfl
  · rw [step_host h.1, hostStep, show s.takeTurn.host = _ from h.2]
    simp only [busRead, hloc, Option.map_none]
  · rw [step_write h, busWrite, hloc]

/-- Every access that reaches something is answered, a write to CMD whatever its word. -/
theorem step_access_answers {g : Target} (h : HostDoes s l rest) (hl : l = .read w o ∨ l = .write w o v)
    (hloc : locate Config.machine w o = some g) : ∃ t, step s = .next t := by
  rcases hl with rfl | rfl
  · exact ⟨_, step_read h hloc⟩
  · by_cases hcmd : g = .reg .cmd
    · subst hcmd
      obtain ⟨rfl, rfl⟩ := locate_eq_reg hloc
      exact ⟨_, (step_writeCmd h).trans (writeCmd_eq v _)⟩
    · exact ⟨_, step_writeTarget h hloc hcmd⟩

end

/-- Settles O9: the offset and width alone decide whether the access reaches anything. -/
theorem busAccessFaultsExactlyOutsideTheWindow : Obligations.BusAccessFaultsExactlyOutsideTheWindow := by
  refine fun s l rest w o v h hl => ⟨fun hout => step_access_error h hl (locate_eq_none_iff.2 hout), ?_⟩
  rintro ⟨rfl, h8, hlt⟩
  obtain ⟨g, hloc⟩ := locate_answers h8 hlt
  exact step_access_answers h hl hloc

/-! ## Reads -/

theorem read_answers {s : State} {rest : List HostLine} {o : Nat} (h : HostDoes s (.read 64 o) rest) (h8 : o % 8 = 0)
    (hlt : o < 0x1000 + Config.machine.keymemBytes) :
    ∃ v, busRead Config.machine 64 o s = some v ∧ step s = .next (afterLine s rest (.data v)) := by
  obtain ⟨g, hloc⟩ := locate_answers h8 hlt
  exact ⟨_, by rw [busRead, hloc]; rfl, step_read h hloc⟩

/-- Settles O10: what an access reaches is read without a write, and a poll is a read of STATUS. -/
theorem readHasNoSideEffect : Obligations.ReadHasNoSideEffect := by
  refine ⟨fun s rest o h h8 hlt => read_answers h h8 hlt, fun s rest h => ⟨busRead_reg _ s .status, ?_, ?_⟩⟩
  · intro hidle
    rw [step_poll h, State.busy_eq_false.2 hidle, if_neg Bool.false_ne_true]
  · intro hbusy
    rw [step_poll h, State.busy_eq_true.2 hbusy, if_pos rfl]

/-! ## KEYMEM words -/

theorem ofLE_lt : ∀ bs : List Byte, ofLE bs < 2 ^ (8 * bs.length)
  | [] => Nat.one_pos
  | b :: bs => by
    have := ofLE_lt bs
    have := b.isLt
    rw [ofLE, List.length_cons, Nat.mul_succ, Nat.pow_add]
    omega

/-- Byte `j` of the packing is byte `j` of the list. -/
theorem ofLE_byte : ∀ (bs : List Byte) {j : Nat} (hj : j < bs.length), ofLE bs / 2 ^ (8 * j) % 2 ^ 8 = bs[j].toNat
  | b :: bs, 0, _ => by
    have := b.isLt
    simp only [ofLE, List.getElem_cons_zero]
    omega
  | b :: bs, j + 1, hj => by
    have hhead : (b.toNat + 256 * ofLE bs) / 2 ^ 8 = ofLE bs := by
      have := b.isLt
      omega
    rw [ofLE, show 8 * (j + 1) = 8 + 8 * j by omega, Nat.pow_add, ← Nat.div_div_eq_div_mul, hhead]
    exact ofLE_byte bs (Nat.lt_of_succ_lt_succ hj)

/-- R66: byte `j` of a KEYMEM word stands in its bits 8j+7:8j. -/
theorem keyWord_byte (P : Params) (s : State) (k : Nat) {j : Nat} (hj : j < 8) :
    (keyWord P s k).extractLsb' (8 * j) 8 = keyByte P s (8 * k + j) := by
  have hlen : (memRead P s (8 * k) 8).length = 8 := memRead_length _ _ _ _
  have hlt := ofLE_lt (memRead P s (8 * k) 8)
  rw [hlen] at hlt
  refine BitVec.eq_of_toNat_eq ?_
  rw [keyWord, extractLsb'_ofNat_toNat _ _ _ hlt, ofLE_byte _ (hlen.symm ▸ hj)]
  simp [memRead]

theorem le64_getElem_word (v : Word) {j : Nat} (hj : j < (le64 v.toNat).length) :
    (le64 v.toNat)[j] = v.extractLsb' (8 * j) 8 := by
  rw [le64_getElem, ← Nat.shiftRight_eq_div_pow]
  rfl

theorem step_writeKeyWord {s : State} {v : Word} {rest : List HostLine} {k : Nat}
    (h : HostDoes s (.write 64 (0x1000 + 8 * k) v) rest) (hk : 8 * k < Config.machine.keymemBytes) :
    step s = .next (writeKeyWord Config.machine k v (afterLine s rest .done)) :=
  step_writeTarget h (locate_keyWord _ hk) nofun

theorem writeKeyWord_unlocked (P : Params) (k : Nat) (v : Word) {s : State} (h : s.locked = false) :
    writeKeyWord P k v s = memWrite P (8 * k) (le64 v.toNat) s := by
  rw [writeKeyWord, h, if_neg Bool.false_ne_true]

theorem writeKeyWord_locked (P : Params) (k : Nat) (v : Word) {s : State} (h : s.locked = true) :
    writeKeyWord P k v s = s := by
  rw [writeKeyWord, h, if_pos rfl]

/-- Settles O15: a read packs the bytes, an unlocked write stores the bytes of the word and no others, a locked one
nothing. -/
theorem keymemWordsPackTheirBytes : Obligations.KeymemWordsPackTheirBytes := by
  refine ⟨fun s k hk => ?_, fun s rest k v h hk => ⟨fun hwf hconf hidle => ?_, fun hlock => ?_⟩⟩
  · refine ⟨keyWord Config.machine s k, ?_, fun j hj => keyWord_byte _ s k hj⟩
    rw [busRead, show locate Config.machine 64 (0x1000 + 8 * k) = _ from locate_keyWord _ hk]
    rfl
  · have hopen : (afterLine s rest .done).locked = false := State.locked_eq_false.2 ⟨hconf, hidle⟩
    refine ⟨memWrite Config.machine (8 * k) (le64 v.toNat) (afterLine s rest .done), ?_, fun j hj => ?_, fun a ha => ?_,
      rfl⟩
    · rw [step_writeKeyWord h hk, writeKeyWord_unlocked _ _ _ hopen]
    · have hj' : j < (le64 v.toNat).length := by rwa [le64_length]
      exact (keyByte_memWrite_inside _ (afterLine s rest .done) _ _ hj' hwf).trans (le64_getElem_word v hj')
    · exact keyByte_memWrite_outside _ (afterLine s rest .done) _ (by rwa [le64_length])
  · have hlocked : (afterLine s rest .done).locked = true := locked_of_configured_or_busy hlock
    rw [step_writeKeyWord h hk, writeKeyWord_locked _ _ _ hlocked]

/-! ## What stops a step -/

theorem Inv.keygenFits {P : Params} {s : State} (h : Inv P s) (hf : s.fsm = .keygen) : keygenBytes P s ≤ P.keymemBytes :=
  (cfgCheck_eq_noError.1 (h.keygenChecked hf).2.2.2).2.2

/-- The bounds that an FSM step checks hold under the invariant (log 10). -/
theorem Inv.fsmStep_next {P : Params} {s : State} (h : Inv P s) : ∃ t, fsmStep P s = .next t := by
  cases hf : s.fsm with
  | idle => exact ⟨s, by rw [fsmStep, hf]⟩
  | keygen =>
    refine ⟨Machine.keygenBody P s, ?_⟩
    rw [fsmStep, hf]
    exact if_neg (not_lt.2 (h.keygenFits hf))
  | round =>
    obtain ⟨hconf, hi, hm⟩ := h.roundInBounds hf
    exact ⟨_, fsmStep_round (h.checkedConfig hconf) hf hm hi⟩

theorem access_next_or_error {s : State} {l : HostLine} {rest : List HostLine} {w o : Nat} {v : Word}
    (h : HostDoes s l rest) (hl : l = .read w o ∨ l = .write w o v) :
    (∃ t, step s = .next t) ∨
      step s = .fault (.busError o) ∧ (w ≠ 64 ∨ o % 8 ≠ 0 ∨ 0x1000 + Config.machine.keymemBytes ≤ o) := by
  cases hloc : locate Config.machine w o with
  | none => exact .inr ⟨step_access_error h hl hloc, locate_eq_none_iff.1 hloc⟩
  | some g => exact .inl (step_access_answers h hl hloc)

/-- Settles O48: a reset always answers, an FSM step does under the invariant, and of the host's lines an access alone can
have an ERROR response. -/
theorem onlyBusErrorsStop : Obligations.OnlyBusErrorsStop := by
  intro s hinv
  cases turn : nextTurn s with
  | rst => exact .inl ⟨_, step_rst turn⟩
  | fsm => exact .inl (step_fsm turn ▸ hinv.takeTurn.fsmStep_next)
  | host =>
    cases hline : s.host with
    | nil => exact .inl ⟨s.takeTurn, by rw [step_host turn, hostStep, show s.takeTurn.host = _ from hline]⟩
    | cons l rest =>
      cases l with
      | read w o =>
        have hdoes : HostDoes s (.read w o) rest := ⟨turn, hline⟩
        exact (access_next_or_error (v := 0) hdoes (.inl rfl)).imp_right fun hstop => ⟨w, o, 0, rest, .inl hdoes, hstop⟩
      | write w o v =>
        have hdoes : HostDoes s (.write w o v) rest := ⟨turn, hline⟩
        exact (access_next_or_error hdoes (.inr rfl)).imp_right fun hstop => ⟨w, o, v, rest, .inr hdoes, hstop⟩
      | poll => exact .inl ⟨_, step_poll ⟨turn, hline⟩⟩

/-! ## The window in the system -/

/-- An address of the window, from the base, is the access of its offset (R70). -/
theorem windowOffset_base {P : Params} {α : Type} {f : Nat → α} {o : Nat} {l : α}
    (h : (windowOffset P (P.tsfBase + o)).map f = some l) : l = f o ∧ o < windowBytes P := by
  obtain ⟨o', hoff, rfl⟩ := Option.map_eq_some_iff.1 h
  obtain ⟨hbase, hlt⟩ := windowOffset_eq_some.1 hoff
  obtain rfl := Nat.add_left_cancel hbase
  exact ⟨rfl, hlt⟩

theorem irqOnLine_eq_true {P : Params} {s : State} {n : Nat} :
    irqOnLine P s n = true ↔ n = P.tsfIrqLine ∧ s.irqEn = true ∧ s.irqPend = true := by
  simp only [irqOnLine, irq, Bool.and_eq_true, beq_iff_eq]

/-- Settles O58: system addresses map to their offsets from the base, whose accesses are read and written as such. -/
theorem windowStandsAtTheBase : Obligations.WindowStandsAtTheBase := by
  refine ⟨fun P a o => windowOffset_eq_some, fun s rest l o hat h h8 => ?_, fun s rest l o x hat h => ?_,
    fun P s n => irqOnLine_eq_true⟩
  · obtain ⟨rfl, hlt⟩ := windowOffset_base hat
    exact read_answers h h8 hlt
  · obtain ⟨rfl, -⟩ := windowOffset_base hat
    exact step_write h

end Sys2Proof.Machine

/-! SUPPORT. Command words (spec/30_encoding.md R90 to R100): the decoder as one equation per field, its inverse the
encoder, and the statements of both. -/

namespace Sys2Proof

/-! ## The fields of a command (R92, R97) -/

/-- OP of the command's word. -/
def Instr.opcode : Instr → Nat
  | .config | .configO _ => 1
  | .ckey | .ckeyO => 2
  | .enc => 3
  | .dec => 4
  | .rpp => 5
  | .unconfig => 6

/-- V of the command's word. -/
def Instr.variant : Instr → Bool
  | .configO _ | .ckeyO => true
  | _ => false

/-- L of the command's word. -/
def Instr.levelField : Instr → Nat
  | .configO level => level
  | _ => 0

theorem encode_eq_commandWord (i : Instr) : encode i = commandWord i.opcode i.variant.toNat i.levelField := by
  cases i <;> rfl

theorem Instr.opcode_lt (i : Instr) : i.opcode < 16 := by cases i <;> simp [opcode]

theorem Instr.wellFormed_iff (i : Instr) : i.wellFormed = true ↔ i.levelField < 16 := by
  cases i with
  | configO level => simp [wellFormed, levelField, Nat.lt_succ_iff]
  | _ => simp [wellFormed, levelField]

/-! ## The fields of a word (R91) -/

theorem levelOf_lt (c : Word) : levelOf c < 16 := Nat.mod_lt _ (by decide)

theorem variantOf_toNat (c : Word) : (variantOf c).toNat = c.toNat / 16 % 2 := by
  rcases Nat.mod_two_eq_zero_or_one (c.toNat / 16) with h | h <;> simp [variantOf, h]

/-- A word with no reserved bit set is its fields. -/
theorem commandWord_of_reservedOf_eq_zero {c : Word} (h : reservedOf c = 0) :
    commandWord (opOf c) (variantOf c).toNat (levelOf c) = c := by
  refine BitVec.eq_of_toNat_eq ?_
  have hc := c.isLt
  rw [commandWord, BitVec.toNat_ofNat, variantOf_toNat]
  unfold reservedOf at h
  unfold opOf levelOf
  omega

theorem eq_commandWord_iff {c : Word} {op level : Nat} {v : Bool} (hop : op < 16) (hl : level < 16) :
    c = commandWord op v.toNat level ↔ reservedOf c = 0 ∧ opOf c = op ∧ variantOf c = v ∧ levelOf c = level := by
  constructor
  · rintro rfl
    obtain ⟨h1, h2, h3, h4⟩ := commandWord_fields hop v.toNat_lt hl
    exact ⟨h4, h1, h2.trans (by cases v <;> rfl), h3⟩
  · rintro ⟨hrsv, rfl, rfl, rfl⟩
    exact (commandWord_of_reservedOf_eq_zero hrsv).symm

/-! ## What the decoder answers (R92, R94) -/

theorem plainCommand_eq_ok {c : Word} {i j : Instr} :
    plainCommand i c = .ok j ↔ i = j ∧ variantOf c = false ∧ levelOf c = 0 := by
  unfold plainCommand
  cases variantOf c with
  | true => simp
  | false => by_cases hl : levelOf c = 0 <;> simp [hl]

/-- A word decodes to a command exactly when it has no reserved bit and the command's fields. -/
theorem decodeWord_eq_ok_iff_fields {c : Word} {i : Instr} :
    decodeWord c = .ok i ↔
      reservedOf c = 0 ∧ opOf c = i.opcode ∧ variantOf c = i.variant ∧ levelOf c = i.levelField := by
  constructor
  · intro h
    unfold decodeWord at h
    split at h
    case isFalse => cases h
    case isTrue hrsv =>
      refine ⟨hrsv, ?_⟩
      split at h
      case h_1 hop =>
        cases hv : variantOf c with
        | true =>
          rw [hv, if_pos rfl] at h
          cases h
          exact ⟨hop, rfl, rfl⟩
        | false =>
          rw [hv, if_neg Bool.false_ne_true] at h
          obtain ⟨rfl, -, hl⟩ := plainCommand_eq_ok.1 h
          exact ⟨hop, rfl, hl⟩
      case h_2 hop =>
        split at h
        case isFalse => cases h
        case isTrue hl =>
          cases hv : variantOf c <;> rw [hv] at h <;> cases h <;> exact ⟨hop, rfl, hl⟩
      case h_7 => cases h
      all_goals
        obtain ⟨rfl, hv, hl⟩ := plainCommand_eq_ok.1 h
        exact ⟨‹_›, hv, hl⟩
  · rintro ⟨hrsv, hop, hv, hl⟩
    rw [decodeWord, if_pos hrsv, hop, hv, hl]
    cases i with
    | configO | ckey | ckeyO => rfl
    | _ => exact plainCommand_eq_ok.2 ⟨rfl, hv, hl⟩

/-- The decoder and the encoder are inverse: the word of a well-formed command, and no other, decodes to it. -/
theorem decodeWord_eq_ok_iff {c : Word} {i : Instr} : decodeWord c = .ok i ↔ i.wellFormed = true ∧ c = encode i := by
  rw [decodeWord_eq_ok_iff_fields, encode_eq_commandWord, i.wellFormed_iff]
  constructor
  · intro h
    have hlt : i.levelField < 16 := by
      obtain ⟨-, -, -, hl⟩ := h
      exact hl ▸ levelOf_lt c
    exact ⟨hlt, (eq_commandWord_iff i.opcode_lt hlt).2 h⟩
  · rintro ⟨hlt, hc⟩
    exact (eq_commandWord_iff i.opcode_lt hlt).1 hc

/-- Settles O1: the bus carries the encoded word as 8 bytes, and the decoder inverts the encoder. -/
theorem decodeOfEncodeIsIdentity : Obligations.DecodeOfEncodeIsIdentity := fun _ hi =>
  ⟨le64_length _, (decodeBytes_le64 _).trans (decodeWord_eq_ok_iff.2 ⟨hi, rfl⟩)⟩

/-! ## The legal words (R93, R94) -/

theorem encode_configO (level : Nat) : encode (.configO level) = 0x11 + BitVec.ofNat 64 (level * 256) :=
  BitVec.ofNat_add 17 (level * 256)

/-- Settles O3: the list is the encoder's table, command by command. -/
theorem legalWordsAreTheTwentyThree : Obligations.LegalWordsAreTheTwentyThree := by
  intro c i
  rw [decodeWord_eq_ok_iff]
  cases i with
  | configO level => simp [Instr.wellFormed, encode_configO]
  | _ => simp [Instr.wellFormed, encode, commandWord]

/-- The decoder accepts the words that R93 calls legal. -/
theorem exists_decodeWord_eq_ok_iff_legal (c : Word) : (∃ i, decodeWord c = .ok i) ↔ legal c = true := by
  simp only [decodeWord_eq_ok_iff_fields]
  constructor
  · rintro ⟨i, hrsv, hop, hv, hl⟩
    rw [legal, hrsv, hop, hv, hl]
    cases i <;> rfl
  · intro h
    simp only [legal, Bool.and_eq_true, Bool.or_eq_true, beq_iff_eq, Bool.not_eq_true', or_assoc, and_assoc] at h
    obtain ⟨hrsv, hop, hv, hl⟩ := h
    obtain h1 | h2 | hplain := hop
    · cases hvar : variantOf c with
      | true => exact ⟨.configO (levelOf c), hrsv, h1, rfl, rfl⟩
      | false =>
        have hl : levelOf c = 0 := by simpa [hvar] using hl
        exact ⟨.config, hrsv, h1, rfl, hl⟩
    · have hl : levelOf c = 0 := by simpa [h2] using hl
      cases hvar : variantOf c with
      | true => exact ⟨.ckeyO, hrsv, h2, rfl, hl⟩
      | false => exact ⟨.ckey, hrsv, h2, rfl, hl⟩
    · have hv : variantOf c = false := (hv.resolve_left (by omega)).resolve_left (by omega)
      have hl : levelOf c = 0 := hl.resolve_left (by omega)
      obtain hop | hop | hop | hop := hplain
      · exact ⟨.enc, hrsv, hop, hv, hl⟩
      · exact ⟨.dec, hrsv, hop, hv, hl⟩
      · exact ⟨.rpp, hrsv, hop, hv, hl⟩
      · exact ⟨.unconfig, hrsv, hop, hv, hl⟩

/-! ## R91's fields as slices of the word -/

theorem extractLsb'_toNat_eq_opOf (c : Word) : (c.extractLsb' 0 4).toNat = opOf c := by
  rw [BitVec.extractLsb'_toNat, Nat.shiftRight_zero]; rfl

theorem getLsbD_eq_variantOf (c : Word) : c.getLsbD 4 = variantOf c := by
  rw [← BitVec.testBit_toNat, Nat.testBit_eq_decide_div_mod_eq]; rfl

theorem extractLsb'_eq_zero_iff (c : Word) (start len : Nat) :
    c.extractLsb' start len = 0 ↔ c.toNat / 2 ^ start % 2 ^ len = 0 := by
  rw [← BitVec.toNat_inj, BitVec.extractLsb'_toNat, Nat.shiftRight_eq_div_pow]; rfl

theorem reservedOf_eq_zero_iff (c : Word) :
    reservedOf c = 0 ↔ c.extractLsb' 5 3 = 0 ∧ c.extractLsb' 12 52 = 0 := by
  rw [extractLsb'_eq_zero_iff, extractLsb'_eq_zero_iff, reservedOf]
  have := c.isLt
  omega

theorem levelOf_eq_zero_iff (c : Word) : levelOf c = 0 ↔ c.extractLsb' 8 4 = 0 :=
  (extractLsb'_eq_zero_iff c 8 4).symm

/-- Settles O2: the accepted words are the legal ones, and legality is R93 in the fields of R91. -/
theorem legalWordsByFields : Obligations.LegalWordsByFields := by
  intro c
  rw [exists_decodeWord_eq_ok_iff_legal, extractLsb'_toNat_eq_opOf, getLsbD_eq_variantOf, ← reservedOf_eq_zero_iff,
    ← levelOf_eq_zero_iff]
  simp [legal, and_assoc, or_assoc]

/-! ## Worked words (R97, R100) -/

/-- Settles O4: each word is decoded by evaluation. -/
theorem sampleWordsDecode : Obligations.SampleWordsDecode := by
  unfold Obligations.SampleWordsDecode
  decide

end Sys2Proof

/-! SUPPORT. Domain sizing, the key schedule and the configuration commands (spec/40_domain_and_keys.md): `rpp` as a least
exponent, the configuration check, what each of these commands does to an idle block, the KEYGEN step byte by byte, and what
no command's issue changes. -/

namespace Sys2Proof.Machine

/-! ## DomainSizing (R120 to R122) -/

/-- Started at or below the least exponent, with fuel to reach it, the search answers it. -/
theorem ceilLog2From_eq_clog {n : Nat} : ∀ {fuel k : Nat}, k ≤ Nat.clog 2 n → n ≤ 2 ^ (k + fuel) →
    ceilLog2From n fuel k = Nat.clog 2 n
  | 0, _, hlo, hhi => le_antisymm hlo (Nat.clog_le_of_le_pow hhi)
  | fuel + 1, k, hlo, hhi => by
    rw [ceilLog2From]
    split
    · exact le_antisymm hlo (Nat.clog_le_of_le_pow ‹_›)
    · rename_i hk
      have hnext : k < Nat.clog 2 n := not_le.1 (mt (Nat.clog_le_iff_le_pow one_lt_two).1 hk)
      exact ceilLog2From_eq_clog hnext (by rwa [Nat.add_right_comm, Nat.add_assoc])

theorem rpp_eq_clog (m : Word) : rpp m = Nat.clog 2 (m.toNat + 1) :=
  ceilLog2From_eq_clog (Nat.zero_le _) (by have := m.isLt; omega)

/-- R120: rpp is the least exponent of two that covers the domain. -/
theorem rpp_le_iff {m : Word} {k : Nat} : rpp m ≤ k ↔ m.toNat + 1 ≤ 2 ^ k := by
  rw [rpp_eq_clog, Nat.clog_le_iff_le_pow one_lt_two]

theorem rpp_le (m : Word) : rpp m ≤ 64 := rpp_le_iff.2 m.isLt

/-- The least exponent is the bit length. -/
theorem rpp_eq_log2 {m : Word} (h : m.toNat ≠ 0) : rpp m = Nat.log2 m.toNat + 1 :=
  eq_of_forall_ge_iff fun k => by rw [rpp_le_iff, Nat.succ_le_iff, Nat.succ_le_iff, Nat.log2_lt h]

/-- Settles O22: `rpp m ≤ k` says `m + 1 ≤ 2^k`, for the bit length as for every k. -/
theorem rppIsTheBitLength : Obligations.RppIsTheBitLength := by
  refine fun m => ⟨rpp_le m, rpp_le_iff.1 le_rfl, fun k => rpp_le_iff.2, ?_⟩
  split
  · rename_i hzero
    exact Nat.le_zero.1 (rpp_le_iff.2 (by rw [hzero]; decide))
  · exact rpp_eq_log2 ‹_›

/-! ## Commands on an idle block -/

section
variable {s : State} (hidle : s.fsm = .idle)
include hidle

theorem exec_idle (i : Instr) : exec i s = .next (commandBody i (s.setDrop false)) := by
  rw [exec_eq, issueRequest_idle hidle]

/-- The ends of a command leave an idle block's FSM_STATE as it is. -/
theorem complete_of_idle : s.complete = { s with err := false, errcode := .noError, irqPend := true } := by
  rw [State.complete, ← hidle]

theorem completeWith_of_idle (out : Word) :
    s.completeWith out = { s with err := false, errcode := .noError, dataOut := out, irqPend := true } := by
  rw [State.completeWith, ← hidle]

theorem raiseError_of_idle (e : ErrCode) : s.raiseError e = { s with err := true, errcode := e, irqPend := true } := by
  rw [State.raiseError, ← hidle]

end

/-- Settles O23: rpp is at most 64, so DATA_OUT holds it. -/
theorem rppCommand : Obligations.RppCommand := by
  refine fun s hidle => ⟨BitVec.ofNat 64 (rpp s.maxmsg), ?_, ?_⟩
  · have := rpp_le s.maxmsg
    exact Nat.mod_eq_of_lt (by omega)
  · rw [exec_idle hidle, commandBody, rppBody, completeWith_of_idle (by exact hidle)]
    rfl

/-- Settles O31: the body is the configuration discarded and a normal completion. -/
theorem unconfigCommand : Obligations.UnconfigCommand := by
  intro s hidle
  rw [exec_idle hidle, commandBody, unconfigBody, complete_of_idle (by exact hidle)]
  rfl

/-! ## The configuration check (R130) -/

theorem levelOk_eq_false_iff {l : Nat} : levelOk l = false ↔ l < 1 ∨ 7 < l ∨ 512 < l * 2 ^ (l - 1) := by
  simp only [levelOk, Bool.and_eq_false_iff, decide_eq_false_iff_not, not_le, or_assoc]

theorem partitionOk_eq_false_iff {m l : Nat} : partitionOk m l = false ↔ (m / 2 + 1) % 2 ^ (l - 1) ≠ 0 :=
  beq_eq_false_iff_ne

/-- The check with each guard as R130 writes it. -/
theorem cfgCheck_eq (P : Params) (m r : Nat) (v : Bool) (l kl : Nat) :
    cfgCheck P m r v l kl =
      if m % 2 = 0 then .domainEven
      else if v = true ∧ (l < 1 ∨ 7 < l ∨ 512 < l * 2 ^ (l - 1)) then .optLevel
      else if v = true ∧ (m / 2 + 1) % 2 ^ (l - 1) ≠ 0 then .partition
      else if kl < r * P.keySlotBytes then .keyShort
      else .noError := by
  simp only [cfgCheck, Bool.and_eq_true, Bool.not_eq_true', levelOk_eq_false_iff, partitionOk_eq_false_iff]

/-- Settles O24: the guards are tried in R130's order, and each answer is the first that applies. -/
theorem configurationCheckOrder : Obligations.ConfigurationCheckOrder := by
  intro P m r l kl v even level part short
  rw [show cfgCheck P m r v l kl = if even then .domainEven else if level then .optLevel
    else if part then .partition else if short then .keyShort else .noError from cfgCheck_eq P m r v l kl]
  by_cases heven : even
  · simp [heven]
  by_cases hlevel : level
  · simp [heven, hlevel]
  by_cases hpart : part
  · simp [heven, hlevel, hpart]
  by_cases hshort : short <;> simp [heven, hlevel, hpart, hshort]

/-! ## CONFIG (R131) -/

/-- Settles O25, by the two ends of the check. -/
theorem configCommands : Obligations.ConfigCommands := by
  intro s i v l hidle hi e
  have hbody : commandBody i = configBody Config.machine v l := by
    rcases hi with ⟨rfl, rfl, rfl⟩ | ⟨rfl, rfl⟩ <;> rfl
  rw [exec_idle hidle, hbody, configBody_eq]
  refine ⟨fun hpass => ?_, fun herror => ?_⟩
  · rw [if_pos (by exact hpass), complete_of_idle (by exact hidle)]
    rfl
  · rw [if_neg (by exact herror), raiseError_of_idle (by exact hidle)]
    rfl

/-! ## CONFIG_KEY's issue (R121, R136) -/

/-- HALF of an odd M is a multiple of 2^6 exactly where M + 1 is one of 2^7. -/
theorem partitionOk_lKey {m : Nat} (hodd : m % 2 = 1) : partitionOk m 7 = decide ((m + 1) % 128 = 0) := by
  have hhalf : (m / 2 + 1) % 64 = 0 ↔ (m + 1) % 128 = 0 := by omega
  exact decide_eq_decide.2 hhalf

theorem keyRounds_ge {m : Word} (hodd : m.toNat % 2 = 1) : 8 ≤ keyRounds m := by
  have hpos : ¬rpp m ≤ 0 := fun h => by have := rpp_le_iff.1 h; omega
  simp only [keyRounds, Config.passMult]
  omega

/-- The key number's schedule always fits KEYMEM, so KEY_SHORT cannot occur; nor can OPTLEVEL, at level 7. -/
theorem cfgCheck_keyNumber {P : Params} (hP : P.Legal) (m : Word) (v : Bool) :
    cfgCheck P m.toNat (keyRounds m) v (if v then 7 else 0) P.keymemBytes =
      if m.toNat % 2 = 0 then .domainEven else if v = true ∧ (m.toNat + 1) % 128 ≠ 0 then .partition else .noError := by
  have hfits : ¬P.keymemBytes < keyRounds m * P.keySlotBytes := not_lt.2 (hP.slots_le (keyRounds_le m))
  unfold cfgCheck
  by_cases heven : m.toNat % 2 = 0
  · rw [if_pos heven, if_pos heven]
  · have hlevel : levelOk 7 = true := by decide
    cases v <;> simp [heven, hfits, hlevel, partitionOk_lKey (Nat.mod_two_ne_zero.1 heven)]

/-- Settles O27: the check with V = 0 and with V = 1, and between 1 and 64 rounds per pass. -/
theorem keyNumberPathErrors : Obligations.KeyNumberPathErrors := by
  refine fun P m hP => ⟨?_, ?_, fun hodd => ⟨keyRounds_ge hodd, keyRounds_le m⟩⟩
  · simpa using cfgCheck_keyNumber hP m false
  · simpa using cfgCheck_keyNumber hP m true

/-- Settles O26: the ends of the check, and its answer on the key-number path. -/
theorem configKeyCommands : Obligations.ConfigKeyCommands := by
  intro s i v hidle hi l e
  have hbody : commandBody i = ckeyBody Config.machine v := by
    rcases hi with ⟨rfl, rfl⟩ | ⟨rfl, rfl⟩ <;> rfl
  have hcheck : e = _ := cfgCheck_keyNumber Config.machine_legal s.maxmsg v
  rw [exec_idle hidle, hbody, ckeyBody_eq]
  refine ⟨fun hpass => ?_, fun herror => ?_, ?_, ?_⟩
  · rw [if_pos (by exact hpass)]
    rfl
  · rw [if_neg (by exact herror), raiseError_of_idle (by exact hidle)]
    rfl
  · rw [hcheck]
    split_ifs with _ hpart
    · exact .inr (.inl rfl)
    · exact .inr (.inr ⟨hpart.1, rfl⟩)
    · exact .inl rfl
  · rintro rfl
    rw [hcheck]
    split
    · exact iff_of_false (by decide) (by omega)
    · simp

/-! ## The seed and the KEYGEN step (R123, R137) -/

/-- Settles O29: LE64 of the key number, then the padding. -/
theorem seedLayout : Obligations.SeedLayout := by
  intro P k hP
  have h8 := hP.seedBytes.1
  refine ⟨?_, fun j hj => ?_, fun j hlo hhi => ?_⟩
  · rw [seedOf, List.length_append, le64_length, List.length_replicate]
    omega
  · have hj' : j < (le64 k.toNat).length := by rwa [le64_length]
    rw [seedOf, List.getElem?_append_left hj', List.getElem?_eq_getElem hj', le64_getElem_word]
  · rw [seedOf, List.getElem?_append_right (by rwa [le64_length]), le64_length, List.getElem?_replicate_of_lt (by omega)]

/-- What a KEYGEN step writes in KEYMEM (R137). -/
theorem keygenBody_keyByte_below (P : Params) {s : State} (hwf : Memory.wf (drawOf P s) s.keymem = true) {a : Nat}
    (ha : a < keygenBytes P s) :
    keyByte P (keygenBody P s) a = P.expandByte (seedOf P s.kgKey) (keygenBytes P s) a := by
  have hlen : a < (keySchedule P s.kgKey s.kgR).length := by rwa [keySchedule, expand_length]
  calc keyByte P (keygenBody P s) a
      = keyByte P (memWrite P 0 (keySchedule P s.kgKey s.kgR) s) (0 + a) := by rw [Nat.zero_add]; rfl
    _ = (keySchedule P s.kgKey s.kgR)[a] := keyByte_memWrite_inside P s _ 0 hlen hwf
    _ = P.expandByte (seedOf P s.kgKey) (keygenBytes P s) a := by simp [keySchedule, expand, keygenBytes]

theorem fsmStep_keygen {P : Params} {s : State} (hf : s.fsm = .keygen) (hfits : keygenBytes P s ≤ P.keymemBytes) :
    fsmStep P s = .next (keygenBody P s) := by
  rw [fsmStep, hf]
  exact if_neg (not_lt.2 hfits)

/-- Settles O28: a waiting CONFIG_KEY passed its check, so its rounds and its bytes fit their registers. -/
theorem keygenStepLoadsTheSchedule : Obligations.KeygenStepLoadsTheSchedule := by
  intro s hinv hturn hf
  have hP := Config.machine_legal
  obtain ⟨-, hrounds, -, hcheck⟩ := hinv.keygenChecked hf
  obtain ⟨hodd, -, -⟩ := cfgCheck_eq_noError.1 hcheck
  have hfits := hinv.keygenFits hf
  have hrounds64 : s.kgR < 2 ^ 64 := (hP.rounds_lt hfits).trans (by decide)
  have hbytes64 : s.kgR * Config.machine.keySlotBytes < 2 ^ 64 := (hfits.trans_lt hP.keymemBytes_lt).trans (by decide)
  refine ⟨keygenBody Config.machine s.takeTurn, ?_, rfl, ?_, hfits, ?_, ?_, fun a ha => ?_, fun a ha => ?_⟩
  · rw [step_fsm hturn]
    exact fsmStep_keygen hf hfits
  · exact Nat.mul_le_mul_right _ (hrounds ▸ keyRounds_ge hodd)
  · exact Nat.mod_eq_of_lt hbytes64
  · exact Nat.mod_eq_of_lt hrounds64
  · exact keygenBody_keyByte_below _ hinv.takeTurn.keymemWf ha
  · exact keygenBody_keyByte _ s.takeTurn ha

/-! ## The two constructors (R138) -/

/-- Settles O30: the KEYGEN step activates the latched operands over the expanded bytes; CONFIG activates the same operands,
whose check passes over a KEYLEN of exactly those bytes. -/
theorem theTwoConstructorsAgree : Obligations.TheTwoConstructorsAgree := by
  intro s u v n hs hu hwf hmax hrounds hkeylen hbytes hcheck
  obtain ⟨hodd, hlevel, hfits⟩ := cfgCheck_eq_noError.1 hcheck
  obtain ⟨hissue, -⟩ := configKeyCommands s (if v then .ckeyO else .ckey) v hs (by cases v <;> simp)
  obtain ⟨hconfig, -⟩ := configCommands u (if v then .configO 7 else .config) v (if v then 7 else 0) hu
    (by cases v <;> simp)
  have hpass : cfgCheck Config.machine u.maxmsg.toNat u.rounds.toNat v (if v then 7 else 0) u.keylen.toNat = .noError := by
    rw [hmax, hrounds, hkeylen]
    exact cfgCheck_eq_noError.2 ⟨hodd, hlevel, le_rfl⟩
  have hactRounds : u.rounds = BitVec.ofNat 64 (keyRounds s.maxmsg) := by
    rw [← hrounds, BitVec.ofNat_toNat, BitVec.setWidth_eq]
  refine ⟨_, _, _, hissue hcheck, fsmStep_keygen rfl hfits, hconfig hpass, rfl, ⟨rfl, hmax, hactRounds, rfl, rfl⟩,
    fun a ha => ?_⟩
  exact (keygenBody_keyByte_below _ (by exact hwf) ha).trans (hbytes a ha).symm

/-! ## What no command's issue changes -/

/-- A command's issue is dropped, with DROP set, or is one of its ends. -/
theorem exec_cases {i : Instr} {s t : State} (h : exec i s = .next t) :
    t = s.setDrop true ∨ IssueEnd (s.setDrop false) i t := by
  rw [exec_eq, Host.Outcome.next.injEq] at h
  subst h
  by_cases hidle : s.fsm = .idle
  · rw [issueRequest_idle hidle]
    exact .inr (commandBody_end i _)
  · exact .inl (issueRequest_busy hidle)

namespace IssueEnd
variable {s t : State} {i : Instr}

theorem sameOperands (h : IssueEnd s i t) : SameOperands s t := by
  cases h <;> exact ⟨rfl, rfl, rfl, rfl, rfl⟩

theorem sameOutside (h : IssueEnd s i t) : SameOutside s t := by
  cases h <;> exact ⟨rfl, rfl, rfl, rfl, rfl⟩

/-- Only an accepted ENCRYPT or DECRYPT starts the engine (R190). -/
theorem sameEngine (h : IssueEnd s i t) (hi : ¬(i = .enc ∨ i = .dec)) : SameEngine s t := by
  cases h with
  | identity hrun | started hrun => exact absurd hrun hi
  | _ => exact ⟨rfl, rfl, rfl, rfl, rfl, rfl, rfl⟩

/-- Only CONFIG_KEY latches (R136). -/
theorem sameLatch (h : IssueEnd s i t) (hi : ¬(i = .ckey ∨ i = .ckeyO)) : SameLatch s t := by
  cases h with
  | latched hkey => exact absurd hkey hi
  | _ => exact ⟨rfl, rfl, rfl, rfl, rfl⟩

/-- ENCRYPT, DECRYPT and RPP read the configuration only. -/
theorem sameConfig (h : IssueEnd s i t) (hi : i = .enc ∨ i = .dec ∨ i = .rpp) : SameConfig s t := by
  cases h with
  | denied | identity | started | sized => exact ⟨rfl, rfl, rfl, rfl, rfl⟩
  | unconfigured => simp at hi
  | failed hne => exact absurd hi (by simp [hne])
  | configured hconfig => rcases hconfig with rfl | ⟨l, rfl⟩ <;> simp at hi
  | latched hkey => rcases hkey with rfl | rfl <;> simp at hi

/-- Only the completions with a result write DATA_OUT (R122, R190). -/
theorem dataOut_eq (h : IssueEnd s i t) (hi : ¬(i = .enc ∨ i = .dec ∨ i = .rpp)) : t.dataOut = s.dataOut := by
  cases h with
  | identity hrun => exact absurd (hrun.imp_right .inl) hi
  | sized => exact absurd (.inr (.inr rfl)) hi
  | _ => rfl

end IssueEnd

/-- Settles O52: a dropped request sets DROP only, and of the ends of an issue each changes what its command writes. -/
theorem issueFrame : Obligations.IssueFrame := by
  intro i s t h
  rcases exec_cases h with rfl | hend
  · exact ⟨⟨rfl, rfl, rfl, rfl, rfl⟩, fun _ => rfl, ⟨rfl, rfl, rfl, rfl, rfl⟩, fun _ _ => ⟨rfl, rfl, rfl, rfl, rfl, rfl, rfl⟩,
      fun _ _ => ⟨rfl, rfl, rfl, rfl, rfl⟩, fun _ => ⟨rfl, rfl, rfl, rfl, rfl⟩, fun _ _ _ => rfl⟩
  · exact ⟨{ hend.sameOperands with }, congrFun (hend.keyByte_eq _), { hend.sameOutside with },
      fun henc hdec => { hend.sameEngine (by simp [henc, hdec]) with },
      fun hckey hckeyO => { hend.sameLatch (by simp [hckey, hckeyO]) with }, fun hi => { hend.sameConfig hi with },
      fun henc hdec hrpp => hend.dataOut_eq (by simp [henc, hdec, hrpp])⟩

end Sys2Proof.Machine

/-! SUPPORT. The round bit sources (spec/41_prf.md): the basic bit as a parity, the ranges of bit partitioning, the HashCache's
hit and miss, one hash input per super-round, and one ROUND step of each variant. -/

namespace Sys2Proof.Machine

/-! ## The basic bit is a parity (R160, R161) -/

/-- The parity of the first `n` bits of a sequence of bits. -/
def parity (f : Nat → Bool) (n : Nat) : Bool := ((List.range n).filter f).length % 2 == 1

@[simp] theorem parity_zero (f : Nat → Bool) : parity f 0 = false := rfl

theorem parity_succ (f : Nat → Bool) (n : Nat) : parity f (n + 1) = (parity f n ^^ f n) := by
  unfold parity
  rw [List.range_succ, List.filter_append, List.length_append]
  cases hf : f n with
  | false => simp [hf]
  | true =>
    simp only [hf, List.filter_cons_of_pos, List.filter_nil, List.length_singleton, Bool.xor_true]
    rcases Nat.mod_two_eq_zero_or_one ((List.range n).filter f).length with h | h <;> simp [Nat.add_mod, h]

theorem parity_xor (f g : Nat → Bool) : ∀ n, parity (fun j => f j ^^ g j) n = (parity f n ^^ parity g n)
  | 0 => rfl
  | n + 1 => by
    rw [parity_succ, parity_succ, parity_succ, parity_xor f g n]
    simp only [Bool.xor_assoc, Bool.xor_left_comm]

theorem parity_add (f : Nat → Bool) (m : Nat) :
    ∀ n, parity f (m + n) = (parity f m ^^ parity (fun j => f (m + j)) n)
  | 0 => by simp
  | n + 1 => by rw [← Nat.add_assoc, parity_succ, parity_succ, parity_add f m n, Bool.xor_assoc]

theorem parity_congr {f g : Nat → Bool} {n : Nat} (h : ∀ j < n, f j = g j) : parity f n = parity g n := by
  unfold parity
  rw [List.filter_congr fun j hj => h j (List.mem_range.1 hj)]

theorem foldShift_getLsbD (k : Nat) (x : Byte) (i : Nat) :
    (foldShift k x).getLsbD i = (x.getLsbD i ^^ x.getLsbD (k + i)) := by
  rw [foldShift, BitVec.getLsbD_xor, BitVec.getLsbD_ushiftRight]

/-- The three shifts fold a byte to its parity. -/
theorem foldShifts_eq_parity (x : Byte) :
    (foldShift 1 (foldShift 2 (foldShift 4 x))).getLsbD 0 = parity x.getLsbD 8 := by
  simp only [foldShift_getLsbD, parity_succ, parity_zero, Bool.false_xor, Nat.reduceAdd]
  simp only [Bool.xor_assoc, Bool.xor_left_comm]

theorem bitOf_cons_head (b : Byte) (bs : List Byte) {j : Nat} (hj : j < 8) : bitOf (b :: bs) j = b.getLsbD j := by
  rw [bitOf, Nat.div_eq_of_lt hj, Nat.mod_eq_of_lt hj]
  rfl

theorem bitOf_cons_tail (b : Byte) (bs : List Byte) (j : Nat) : bitOf (b :: bs) (8 + j) = bitOf bs j := by
  rw [bitOf, Nat.add_div_left _ (by decide), Nat.add_mod_left]
  rfl

theorem parity_bitOf_cons (b : Byte) (bs : List Byte) (n : Nat) :
    parity (bitOf (b :: bs)) (8 + n) = (parity b.getLsbD 8 ^^ parity (bitOf bs) n) := by
  rw [parity_add, parity_congr fun _ hj => bitOf_cons_head b bs hj, parity_congr fun j _ => bitOf_cons_tail b bs j]

/-- The parity of the XOR of all bytes is the XOR of their parities. -/
theorem parity_xorBytes : ∀ (h : List Byte) (x : Byte),
    parity (h.foldl (· ^^^ ·) x).getLsbD 8 = (parity x.getLsbD 8 ^^ parity (bitOf h) (8 * h.length))
  | [], x => by simp
  | b :: bs, x => by
    have hxor : parity (x ^^^ b).getLsbD 8 = (parity x.getLsbD 8 ^^ parity b.getLsbD 8) := by
      rw [← parity_xor]
      exact parity_congr fun j _ => BitVec.getLsbD_xor
    rw [List.foldl_cons, parity_xorBytes bs, hxor, List.length_cons, Nat.mul_succ, Nat.add_comm _ 8, parity_bitOf_cons,
      Bool.xor_assoc]

/-- R161, for every byte string. -/
theorem foldBit_eq_parity (h : List Byte) : foldBit h = parity (bitOf h) (8 * h.length) := by
  have hzero : parity (0 : Byte).getLsbD 8 = false := by decide
  rw [foldBit, foldShifts_eq_parity, parity_xorBytes, hzero, Bool.false_xor]

theorem basicHash_length (P : Params) (s : State) (r i : Nat) : (basicHash P s r i).length = P.hashOutBasic :=
  hash_length _ _ _ _

/-- Settles O33: the XOR of bytes and the shifts of the fold each keep the parity of the bits. -/
theorem basicBitIsTheParity : Obligations.BasicBitIsTheParity := by
  refine ⟨fun P s r i => ⟨rfl, basicHash_length P s r i, ?_⟩, foldBit_eq_parity⟩
  rw [prfBasic, foldBit_eq_parity, basicHash_length]
  rfl

/-! ## Bit partitioning (R163 to R165) -/

/-- The PARTITION check makes the projector's division exact (R163). -/
theorem projector_mul {half l : Nat} (h : half % 2 ^ (l - 1) = 0) : projector half l * 2 ^ (l - 1) = half :=
  Nat.div_mul_cancel (Nat.dvd_of_mod_eq_zero h)

theorem projector_pos {half l r : Nat} (h : half % 2 ^ (l - 1) = 0) (hr : r < half) : 1 ≤ projector half l := by
  rw [← projector_mul h] at hr
  exact Nat.pos_of_mul_pos_right (Nat.zero_lt_of_lt hr)

theorem two_pow_split {l p : Nat} (hp : p < l) : 2 ^ (l - 1) = 2 ^ (l - 1 - p) * 2 ^ p := by
  rw [← Nat.pow_add, Nat.sub_add_cancel (by omega)]

/-- The remainder shifted by its sub-round position. -/
theorem shiftedRemainder_lt {half l r p : Nat} (h : half % 2 ^ (l - 1) = 0) (hr : r < half) (hp : p < l) :
    r / 2 ^ p < projector half l * 2 ^ (l - 1 - p) := by
  rw [Nat.div_lt_iff_lt_mul (Nat.two_pow_pos p), Nat.mul_assoc, ← two_pow_split hp, projector_mul h]
  exact hr

/-- A digit over `n` low digits stays below the product of the ranges. -/
theorem mul_add_lt_mul {a b m n : Nat} (ha : a < m) (hb : b < n) : a * n + b < m * n :=
  calc a * n + b < (a + 1) * n := by rw [Nat.succ_mul]; omega
    _ ≤ m * n := Nat.mul_le_mul_right n ha

/-- `L · 2^(L−1)` grows with the level. -/
theorem level_mul_two_pow_le {l : Nat} (hl : l ≤ 7) : l * 2 ^ (l - 1) ≤ 448 :=
  calc l * 2 ^ (l - 1) ≤ 7 * 2 ^ 6 := Nat.mul_le_mul hl (Nat.pow_le_pow_right (by decide) (by omega))
    _ = 448 := rfl

/-- Settles O34: the selector is the pair of `hi` and `lo`, each in its range, and the bit index the pair of the sub-round
position and the selector. -/
theorem bitPartitioningRanges : Obligations.BitPartitioningRanges := by
  intro half l r i p hl hl7 hpart hr hhalf hp proj a
  have hpl : p < l := hp ▸ Nat.mod_lt i hl
  have hproj : 1 ≤ proj := projector_pos hpart hr
  have hshift : r / 2 ^ p < proj * 2 ^ (l - 1 - p) := shiftedRemainder_lt hpart hr hpl
  have hhi : r / 2 ^ p / proj < 2 ^ (l - 1 - p) := Nat.div_lt_of_lt_mul hshift
  have hlo : r % 2 ^ p < 2 ^ p := Nat.mod_lt r (Nat.two_pow_pos p)
  have hsel : r / 2 ^ p / proj * 2 ^ p + r % 2 ^ p < 2 ^ (l - 1) := two_pow_split hpl ▸ mul_add_lt_mul hhi hlo
  have hidx : a.bitIndex = p * 2 ^ (l - 1) + (r / 2 ^ p / proj * 2 ^ p + r % 2 ^ p) := by subst hp; rfl
  have hinput : a.hashInput = r / 2 ^ p % proj := by subst hp; rfl
  refine ⟨rfl, rfl, hinput, hidx, (projector_mul hpart).symm, hproj, hshift, hhi, hlo, Nat.le_sub_one_of_lt hsel, ?_, ?_, ?_,
    level_mul_two_pow_le hl7, by decide, ?_, (Nat.div_le_self _ _).trans hhalf, Nat.div_le_self _ _⟩
  · exact hidx ▸ Nat.le_add_right _ _
  · exact hidx ▸ mul_add_lt_mul p.lt_succ_self hsel
  · exact hidx ▸ mul_add_lt_mul hpl hsel
  · exact hinput ▸ Nat.mod_lt _ hproj

/-! ## The HashCache (R166, R167) -/

/-- Settles O35: the look-up leaves the state on a hit, and fills the line and counts the call on a miss. -/
theorem hashCacheHitAndMiss : Obligations.HashCacheHitAndMiss := by
  refine fun P s r i => ⟨fun ⟨hvalid, htag⟩ => ?_, fun hmiss => ?_⟩
  · rw [prfAmort, cacheLookup_hit hvalid htag]
  · rw [prfAmort, cacheLookup_miss hmiss]
    rfl

/-- The first round of a super-round hashes its remainder modulo the projector. -/
theorem hashInput_first {half l : Nat} (r s : Nat) :
    (amortIndex half l r (s * l)).hashInput = r % projector half l := by
  simp [amortIndex]

/-- Settles O36: by induction on the sub-round position, from the first round of the super-round. -/
theorem hashInputIsConstantInASuperRound : Obligations.HashInputIsConstantInASuperRound := by
  intro half l r c hl _ _ hpart _ hrec s p hp
  induction p with
  | zero => exact hashInput_first _ s
  | succ p ih =>
    have hsuper : ∀ q < l, (s * l + q) / l = s := fun q hq => by
      rw [Nat.mul_comm, Nat.mul_add_div hl, Nat.div_eq_of_lt hq, Nat.add_zero]
    obtain ⟨hc, hnext⟩ := hrec (s * l + p)
    rw [← ih (by omega), ← Nat.add_assoc, hnext]
    exact hashInput_succ hl (Nat.dvd_of_mod_eq_zero hpart) hc
      ((hsuper (p + 1) hp).trans (hsuper p (by omega)).symm)

/-! ## A ROUND step of the invariant (R192, R196) -/

theorem remainder_eq_ite (d : Dir) (half m : Nat) : remainder d half m = if d = .enc then m % half else m / 2 := by
  cases d <;> rfl

theorem roundWith_eq_ite (d : Dir) (half m : Nat) (b : Bool) :
    roundWith d half m b =
      if d = .enc then remainder d half m * 2 + (m / half ^^^ b.toNat)
      else remainder d half m + (m % 2 ^^^ b.toNat) * half := by
  cases d <;> rfl

theorem nextRound_eq_ite (d : Dir) (i : Nat) : nextRound d i = if d = .enc then i + 1 else i - 1 := by
  cases d <;> rfl

/-- The due round is the command's last in its direction (R200). -/
def IsLastRound (s : State) : Prop := if s.dir = .enc then s.iround = s.actRounds.toNat - 1 else s.iround = 0

theorem isLastRound_iff {s : State} (hbound : s.iround < s.actRounds.toNat) :
    IsLastRound s ↔ roundsDone s + 1 = s.actRounds.toNat := by
  cases hd : s.dir <;> simp [IsLastRound, roundsDone, hd] <;> omega

section
variable {s : State} (hinv : Inv Config.machine s) (turn : FsmDoes s) (hf : s.fsm = .round)
include hinv hf

/-- No round needs its result cut to a word (R199). -/
theorem Inv.roundMsg_toNat : (roundMsg Config.machine s).toNat =
    roundWith s.dir s.half s.msg.toNat (Machine.roundBit Config.machine s).1 := by
  obtain ⟨hconf, -, hm⟩ := hinv.roundInBounds hf
  have hchecked := hinv.checkedConfig hconf
  have hle := hchecked.lt_two_half.1
    (roundWith_lt s.dir (Machine.roundBit Config.machine s).1 (hchecked.lt_two_half.2 hm))
  exact Nat.mod_eq_of_lt (hle.trans_lt s.actMaxmsg.isLt)

include turn

theorem Inv.step_round : step s = .next (if roundsDone s + 1 = s.actRounds.toNat
    then (Machine.afterRound Config.machine s.takeTurn).completeWith (roundMsg Config.machine s.takeTurn)
    else Machine.nextRoundState Config.machine s.takeTurn) := by
  obtain ⟨hconf, hi, hm⟩ := hinv.roundInBounds hf
  rw [step_fsm turn]
  exact fsmStep_round (hinv.takeTurn.checkedConfig hconf) hf hm hi

theorem Inv.step_round_last (hlast : IsLastRound s) : step s = .next
    ((Machine.afterRound Config.machine s.takeTurn).completeWith (roundMsg Config.machine s.takeTurn)) := by
  obtain ⟨-, hi, -⟩ := hinv.roundInBounds hf
  rw [hinv.step_round turn hf, if_pos ((isLastRound_iff hi).1 hlast)]

theorem Inv.step_round_more (hmore : ¬IsLastRound s) :
    step s = .next (Machine.nextRoundState Config.machine s.takeTurn) := by
  obtain ⟨-, hi, -⟩ := hinv.roundInBounds hf
  rw [hinv.step_round turn hf, if_neg (mt (isLastRound_iff hi).2 hmore)]

end

/-! ## The two variants (R160, R166) -/

theorem roundBit_basic (P : Params) {s : State} (hv : s.actV = false) :
    roundBit P s = (foldBit (basicHash P s (remainder s.dir s.half s.msg.toNat) s.iround), s.countHash) := by
  rw [roundBit, bitSource, hv]
  rfl

/-- Settles O38: with V = 0 the round bit leaves the state but for the call it counts. -/
theorem basicRoundStep : Obligations.BasicRoundStep := by
  intro s hinv turn hf hv half r b last
  have hbit := roundBit_basic Config.machine (s := s.takeTurn) hv
  refine ⟨roundMsg Config.machine s.takeTurn, ?_, fun hlast => ?_, fun hmore => ?_⟩
  · rw [hinv.takeTurn.roundMsg_toNat hf, hbit, roundWith_eq_ite, remainder_eq_ite]
    rfl
  · rw [hinv.step_round_last turn hf hlast, afterRound, hbit]
    rfl
  · rw [hinv.step_round_more turn hf hmore, nextRoundState, afterRound, hbit, nextRound_eq_ite]
    rfl

/-- What bit partitioning gives for the due round (R164). -/
def roundIndex (s : State) : AmortIndex :=
  amortIndex s.half s.actL.toNat (remainder s.dir s.half s.msg.toNat) s.iround

theorem roundBit_optimized (P : Params) {s : State} (hv : s.actV = true) :
    roundBit P s = (bitOf (cacheLookup P (roundIndex s) s).cacheData (roundIndex s).bitIndex,
      cacheLookup P (roundIndex s) s) := by
  rw [roundBit, bitSource, if_pos hv]
  rfl

/-- Hit or miss, a look-up leaves a valid line of its super-round, and writes nothing but the line and HASHCNT. -/
theorem cacheLookup_eq (P : Params) (a : AmortIndex) (s : State) :
    cacheLookup P a s = { s with
      cacheValid := true, cacheTag := a.superRound, cacheData := (cacheLookup P a s).cacheData,
      hashcnt := (cacheLookup P a s).hashcnt } := by
  by_cases hit : s.cacheValid = true ∧ s.cacheTag = a.superRound
  · rw [cacheLookup_hit hit.1 hit.2, ← hit.1, ← hit.2]
  · rw [cacheLookup_miss hit]
    rfl

/-- Settles O39: with V = 1 the round bit leaves the state of the look-up. -/
theorem optimizedRoundStep : Obligations.OptimizedRoundStep := by
  intro s hinv turn hf hv half r a hit last
  have hbit := roundBit_optimized Config.machine (s := s.takeTurn) hv
  have hindex : roundIndex s.takeTurn = a := by
    rw [roundIndex, remainder_eq_ite]
    rfl
  rw [hindex] at hbit
  have hlook := cacheLookup_eq Config.machine a s.takeTurn
  refine ⟨roundMsg Config.machine s.takeTurn, (cacheLookup Config.machine a s.takeTurn).cacheData,
    (cacheLookup Config.machine a s.takeTurn).hashcnt, fun ⟨hvalid, htag⟩ => ?_, fun hmiss => ?_, ?_, fun hlast => ?_,
    fun hmore => ?_⟩
  · rw [cacheLookup_hit (s := s.takeTurn) hvalid htag]
    exact ⟨rfl, rfl⟩
  · rw [cacheLookup_miss (s := s.takeTurn) hmiss]
    exact ⟨rfl, rfl⟩
  · rw [hinv.takeTurn.roundMsg_toNat hf, hbit, roundWith_eq_ite, remainder_eq_ite]
    rfl
  · rw [hinv.step_round_last turn hf hlast, afterRound, hbit, hlook]
    rfl
  · rw [hinv.step_round_more turn hf hmore, nextRoundState, afterRound, hbit, nextRound_eq_ite, hlook]
    rfl

end Sys2Proof.Machine

/-! SUPPORT. ENCRYPT and DECRYPT (spec/42_shuffle.md): the issue, the inverses of R198 in both orders, the domain of two
elements, a running command under a host's accesses, and its run to the result. -/

namespace Sys2Proof.Machine

/-! ## A running command under the other events (R72, R268) -/

/-- What a running command's rounds read and write is the same, and so is DATA_OUT. -/
structure RoundUntouched (P : Params) (s t : State) : Prop where
  fsm : t.fsm = s.fsm
  dataOut : t.dataOut = s.dataOut
  config : SameConfig s t
  keymem : SameKeymem P s t
  engine : SameEngine s t

theorem RoundUntouched.refl (P : Params) (s : State) : RoundUntouched P s s :=
  ⟨rfl, rfl, ⟨rfl, rfl, rfl, rfl, rfl⟩, fun _ => rfl, ⟨rfl, rfl, rfl, rfl, rfl, rfl, rfl⟩⟩

theorem takeTurn_untouched (P : Params) (s : State) : RoundUntouched P s s.takeTurn :=
  ⟨rfl, rfl, ⟨rfl, rfl, rfl, rfl, rfl⟩, fun _ => rfl, ⟨rfl, rfl, rfl, rfl, rfl, rfl, rfl⟩⟩

/-- With the lock closed no host write but one to CMD reaches a running command. -/
theorem writeTarget_untouched (P : Params) (v : Word) {s : State} (hlock : s.locked = true) (g : Target) :
    RoundUntouched P s (writeTarget P v s g) := by
  cases g with
  | reg r =>
    cases r with
    | irqPend =>
      simp only [writeTarget, writeReg]
      split <;> exact ⟨rfl, rfl, ⟨rfl, rfl, rfl, rfl, rfl⟩, fun _ => rfl, ⟨rfl, rfl, rfl, rfl, rfl, rfl, rfl⟩⟩
    | keylen =>
      rw [writeTarget, writeReg, if_pos hlock]
      exact .refl P s
    | _ => exact ⟨rfl, rfl, ⟨rfl, rfl, rfl, rfl, rfl⟩, fun _ => rfl, ⟨rfl, rfl, rfl, rfl, rfl, rfl, rfl⟩⟩
  | reserved => exact .refl P s
  | keyWord k =>
    rw [writeTarget, writeKeyWord_locked P k v hlock]
    exact .refl P s

/-- A host's event in ROUND: a command is dropped, a KEYMEM or KEYLEN write is locked out, and nothing else it can do is
the engine's. -/
theorem Event.untouched {s t : State} (h : Event s t) (turn : nextTurn s = .host) (hf : s.fsm = .round) :
    RoundUntouched Config.machine s t := by
  have hbusy : s.fsm ≠ .idle := by rw [hf]; decide
  cases h with
  | reset turn' | keygen turn' | round turn' | lastRound turn' => cases turn.symm.trans turn'
  | illegal _ _ _ idle | issued _ _ _ _ _ _ idle => exact absurd idle hbusy
  | passed => exact takeTurn_untouched _ s
  | answered | dropped =>
    exact ⟨rfl, rfl, ⟨rfl, rfl, rfl, rfl, rfl⟩, fun _ => rfl, ⟨rfl, rfl, rfl, rfl, rfl, rfl, rfl⟩⟩
  | stored w o v rest g does located notCmd =>
    have hlock : (s.takeTurn.answer rest .done).locked = true := locked_of_configured_or_busy (.inr hbusy)
    have h := writeTarget_untouched Config.machine v hlock g
    exact ⟨h.fsm, h.dataOut, { h.config with }, h.keymem, { h.engine with }⟩

namespace RoundUntouched
variable {P : Params} {s t : State} (h : RoundUntouched P s t)
include h

theorem roundsDone_eq : roundsDone t = roundsDone s := by
  simp only [roundsDone, h.engine.dir, h.engine.iround, h.config.actRounds]

theorem lastRound_eq : lastRound t = lastRound s := by
  simp only [lastRound, h.engine.dir, h.engine.iround]

theorem superRoundsDone_eq : superRoundsDone t = superRoundsDone s := by
  simp only [superRoundsDone, h.roundsDone_eq, h.lastRound_eq, h.engine.dir, h.config.actL, h.config.actRounds]

theorem half_eq : t.half = s.half := by simp only [State.half, h.config.actMaxmsg]

/-- So the command is between the same two of its steps. -/
theorem running {x : Nat} (hrun : Running P s x) : Running P t x where
  inRound := h.fsm.trans hrun.inRound
  message := by
    rw [messageAt_eq, messageAfter_congr h.config h.keymem, h.roundsDone_eq, h.engine.dir, h.engine.msg, ← messageAt_eq]
    exact hrun.message
  counted := by
    rw [h.engine.hashcnt, h.config.actV, h.superRoundsDone_eq, h.roundsDone_eq]
    exact hrun.counted
  cacheOff := by
    rw [h.config.actV, h.roundsDone_eq, h.engine.cacheValid]
    exact hrun.cacheOff
  cacheTagged := by
    rw [h.config.actV, h.roundsDone_eq, h.engine.cacheValid, h.engine.cacheTag, h.lastRound_eq, h.config.actL]
    exact hrun.cacheTagged
  cacheFresh := by
    rw [h.config.actV, h.roundsDone_eq, h.engine.iround, h.config.actL, h.lastRound_eq, h.engine.cacheData, h.half_eq,
      h.engine.dir, h.engine.msg, wideHash_congr (funext h.keymem)]
    exact hrun.cacheFresh

end RoundUntouched

/-- What the last round leaves is the command's end (R193, R197, R169). -/
theorem MidRun.endsWithResult {P : Params} {s : State} {x : Nat} (h : MidRun P s x)
    (hlast : roundsDone s + 1 = s.actRounds.toNat) :
    EndsWithResult P s s.dir x ((afterRound P s).completeWith (roundMsg P s)) where
  idle := rfl
  noError := rfl
  errcode := rfl
  irqPend := rfl
  result := by rw [State.completeWith_dataOut, h.roundMsg_toNat, hlast, resultOf_eq]
  hashcnt := h.hashcnt_last hlast
  frame := (afterRound_frame P s).trans (completeWith_frame P _ _)

/-- Settles O43: a host's event leaves all that the command reads, and an FSM step is its due round, from which it is
between two steps again or at its end. -/
theorem runningCommandKeepsItsResult : Obligations.RunningCommandKeepsItsResult := by
  intro s t x hinv hx hrun hturn hstep
  cases turn : nextTurn s with
  | rst => exact absurd turn hturn
  | host =>
    have h := (step_event hstep).untouched turn hrun.inRound
    exact ⟨h.engine.dir, h.config, h.keymem, resultOf_congr h.config h.keymem _ _,
      fun _ => ⟨h.running hrun, h.engine.iround, h.dataOut⟩, nofun, nofun⟩
  | fsm =>
    have hturned := takeTurn_untouched Config.machine s
    have hmid : MidRun Config.machine s.takeTurn x := (hturned.running hrun).midRun hinv.takeTurn hx
    rw [hinv.step_round turn hrun.inRound, Host.Outcome.next.injEq] at hstep
    by_cases hlast : roundsDone s + 1 = s.actRounds.toNat
    · rw [if_pos hlast] at hstep
      subst hstep
      have hend := hmid.endsWithResult hlast
      have hconfig := hturned.config.trans hend.frame.config
      exact ⟨afterRound_dir _ s.takeTurn, hconfig, hend.frame.keymem, resultOf_congr hconfig hend.frame.keymem _ _, nofun,
        fun _ hmore => absurd hlast (Nat.ne_of_lt hmore), fun _ _ => ⟨hend.idle,
          hend.result.trans (resultOf_congr hturned.config hturned.keymem _ _), hend.noError, hend.errcode, hend.irqPend,
          hend.hashcnt⟩⟩
    · rw [if_neg hlast] at hstep
      subst hstep
      have hframe := nextRoundState_frame Config.machine s.takeTurn
      have hconfig := hturned.config.trans hframe.config
      exact ⟨afterRound_dir _ s.takeTurn, hconfig, hframe.keymem, resultOf_congr hconfig hframe.keymem _ _, nofun,
        fun _ hmore => ⟨(hmid.next hmore).running, roundsDone_nextRoundState hmid.bound hmore,
          afterRound_dataOut _ s.takeTurn⟩,
        fun _ hlast' => absurd hlast' hlast⟩

/-! ## The issue (R190) -/

theorem encDecIssue_notConfigured {s : State} (d : Dir) (hconf : s.configured = false) :
    encDecIssue d s = s.raiseError .notConfigured := by
  unfold encDecIssue
  rw [if_pos hconf]

theorem encDecIssue_domainInput {s : State} (d : Dir) (hconf : s.configured = true)
    (hx : s.actMaxmsg.toNat < s.dataIn.toNat) : encDecIssue d s = s.raiseError .domainInput := by
  unfold encDecIssue
  rw [if_neg (by simp [hconf]), if_pos hx]

/-- Settles O37: on an idle block the command is its body, and each guard of R190 selects one end of it. -/
theorem encryptAndDecryptIssue : Obligations.EncryptAndDecryptIssue := by
  intro s i d hidle hi
  have hexec : exec i s = .next (encDecIssue d (s.setDrop false)) := by
    rcases hi with ⟨rfl, rfl⟩ | ⟨rfl, rfl⟩ <;> exact exec_idle hidle _
  rw [hexec]
  refine ⟨fun hconf => ?_, fun hconf hx => ?_, fun hconf hx hzero => ?_, fun hconf hx hpos => ?_⟩
  · rw [encDecIssue_notConfigured (s := s.setDrop false) d hconf, raiseError_of_idle (by exact hidle)]
    rfl
  · rw [encDecIssue_domainInput (s := s.setDrop false) d hconf hx, raiseError_of_idle (by exact hidle)]
    rfl
  · have hzero' : (s.setDrop false).actRounds.toNat = 0 := by rw [State.setDrop_actRounds, hzero]; rfl
    rw [encDecIssue_accepted (s := s.setDrop false) d hconf hx, if_pos hzero', completeWith_of_idle (by exact hidle)]
    rfl
  · have hpos' : ¬(s.setDrop false).actRounds.toNat = 0 := fun h => hpos (BitVec.eq_of_toNat_eq h)
    rw [encDecIssue_accepted (s := s.setDrop false) d hconf hx, if_neg hpos']
    cases d <;> rfl

/-! ## Rounds and commands undo each other in both orders (R198) -/

/-- R198 for one round, the other order. -/
theorem encRoundWith_decRoundWith {half m : Nat} (b : Bool) (hm : m < 2 * half) :
    encRoundWith half (decRoundWith half m b) b = m := by
  have hdiv : decRoundWith half m b / half = m % 2 ^^^ b.toNat := by
    rw [decRoundWith, Nat.add_mul_div_right _ _ (by omega), Nat.div_eq_of_lt (by omega), Nat.zero_add]
  rw [encRoundWith, decRoundWith_mod b hm, hdiv, Nat.xor_assoc, Nat.xor_self, Nat.xor_zero]
  exact Nat.div_add_mod' m 2

/-- Settles O40: a round and its mirror see the same remainder, so the same bit. -/
theorem roundsStayInTheDomainAndInvert : Obligations.RoundsStayInTheDomainAndInvert := by
  intro M m bit hodd hm
  have hdomain : ∀ {y}, y < 2 * (M / 2 + 1) ↔ y ≤ M := by omega
  have hm' := hdomain.2 hm
  refine ⟨hdomain.1 (roundWith_lt .enc _ hm'), hdomain.1 (roundWith_lt .dec _ hm'), ?_, ?_⟩
  · dsimp only
    rw [(encRoundWith_div_mod _ hm').1]
    exact decRoundWith_encRoundWith _ hm'
  · dsimp only
    rw [decRoundWith_mod _ hm']
    exact encRoundWith_decRoundWith _ hm'

namespace CheckedConfig
variable {P : Params} {s : State} (h : CheckedConfig P s) {x : Nat} (hx : x ≤ s.actMaxmsg.toNat)
include h

theorem encRound_decRound {m : Nat} (i : Nat) (hm : m ≤ s.actMaxmsg.toNat) :
    encRound P s (decRound P s m i) i = m := by
  have hm' := h.lt_two_half.2 hm
  rw [encRound, decRound, decRoundWith_mod _ hm']
  exact encRoundWith_decRoundWith _ hm'

include hx

/-- Each encrypting round takes back the last decrypting round that is left. -/
theorem encUpTo_decOf :
    ∀ k, k ≤ s.actRounds.toNat → encUpTo P s (decOf P s x) k = decDownFrom P s x (s.actRounds.toNat - k)
  | 0, _ => rfl
  | k + 1, hk => by
    obtain ⟨j, hj⟩ : ∃ j, s.actRounds.toNat - k = j + 1 := ⟨s.actRounds.toNat - k - 1, by omega⟩
    rw [encUpTo, encUpTo_decOf k (by omega), hj, decDownFrom, show s.actRounds.toNat - 1 - j = k by omega,
      show s.actRounds.toNat - (k + 1) = j by omega]
    exact h.encRound_decRound k (h.messageAfter_le .dec hx j)

theorem encOf_decOf : encOf P s (decOf P s x) = x := by
  rw [encOf, h.encUpTo_decOf hx _ (le_refl _), Nat.sub_self, decDownFrom]

end CheckedConfig

/-- Settles O41: each direction takes the other back round by round, so ENC is injective. -/
theorem encAndDecAreInversePermutations : Obligations.EncAndDecAreInversePermutations := by
  intro s hinv hconf
  have h := hinv.checkedConfig hconf
  refine ⟨fun x hx => ⟨h.resultOf_le .enc hx, h.resultOf_le .dec hx, h.decOf_encOf hx, h.encOf_decOf hx⟩,
    fun x y hx hy heq => ?_⟩
  rw [← h.decOf_encOf hx, heq, h.decOf_encOf hy]

/-! ## The domain of two elements (R201) -/

theorem boolToNat_xor (b c : Bool) : (b ^^ c).toNat = b.toNat ^^^ c.toNat := by cases b <;> cases c <;> rfl

section
variable {P : Params} {s : State} (hM : s.actMaxmsg = 1)
include hM

theorem half_eq_one : s.half = 1 := by rw [State.half, hM]; rfl

theorem encRound_eq_xor (m i : Nat) : encRound P s m i = m ^^^ (freshBit P s 0 i).toNat := by
  rw [encRound, half_eq_one hM, encRoundWith, Nat.mod_one, Nat.div_one, Nat.zero_mul, Nat.zero_add]

theorem decRound_eq_xor {m : Nat} (i : Nat) (hm : m ≤ 1) : decRound P s m i = m ^^^ (freshBit P s 0 i).toNat := by
  rw [decRound, half_eq_one hM, decRoundWith, Nat.div_eq_of_lt (by omega), Nat.mod_eq_of_lt (by omega), Nat.mul_one,
    Nat.zero_add]

theorem encUpTo_eq_xor_parity (x : Nat) : ∀ k, encUpTo P s x k = x ^^^ (parity (freshBit P s 0) k).toNat
  | 0 => (Nat.xor_zero x).symm
  | k + 1 => by rw [encUpTo, encUpTo_eq_xor_parity x k, encRound_eq_xor hM, parity_succ, boolToNat_xor, Nat.xor_assoc]

/-- The rounds from R - 1 down to R - k have the bits that the parity of all R rounds has beside the first R - k. -/
theorem decDownFrom_eq_xor_parity {x : Nat} (hx : x ≤ 1) : ∀ k, k ≤ s.actRounds.toNat →
    decDownFrom P s x k =
      x ^^^ (parity (freshBit P s 0) s.actRounds.toNat ^^ parity (freshBit P s 0) (s.actRounds.toNat - k)).toNat
  | 0, _ => by simp [decDownFrom]
  | k + 1, hk => by
    obtain ⟨j, hj⟩ : ∃ j, s.actRounds.toNat - k = j + 1 := ⟨s.actRounds.toNat - k - 1, by omega⟩
    rw [decDownFrom, decDownFrom_eq_xor_parity hx k (by omega), hj, show s.actRounds.toNat - 1 - k = j by omega,
      show s.actRounds.toNat - (k + 1) = j by omega, decRound_eq_xor hM j (xor_bit_le _ hx), Nat.xor_assoc,
      ← boolToNat_xor, parity_succ, Bool.xor_assoc, Bool.xor_assoc, Bool.xor_self, Bool.xor_false]

/-- R201: the PARTITION check leaves level 1 only. -/
theorem CheckedConfig.level_eq_one (h : CheckedConfig P s) (hv : s.actV = true) : s.actL = 1 := by
  have hdvd := h.two_pow_dvd_half hv
  rw [half_eq_one hM, Nat.dvd_one, Nat.pow_eq_one] at hdvd
  have := h.level_pos hv
  refine BitVec.eq_of_toNat_eq (show s.actL.toNat = 1 from ?_)
  omega

end

theorem xor_parity_eq_add_mod {x : Nat} (hx : x ≤ 1) (f : Nat → Bool) (n : Nat) :
    x ^^^ (parity f n).toNat = (x + ((List.range n).filter f).length) % 2 := by
  unfold parity
  generalize ((List.range n).filter f).length = c
  rcases Nat.mod_two_eq_zero_or_one c with hc | hc <;> obtain rfl | rfl := Nat.le_one_iff_eq_zero_or_eq_one.1 hx <;>
    simp [hc, Nat.add_mod]

/-- Settles O42: HALF is 1, so every remainder is 0 and a round is an exclusive or, in whatever order the rounds come. -/
theorem twoElementDomain : Obligations.TwoElementDomain := by
  intro s hM
  have henc : ∀ x, encOf Config.machine s x = x ^^^ (parity (freshBit Config.machine s 0) s.actRounds.toNat).toNat :=
    fun x => encUpTo_eq_xor_parity hM x _
  refine ⟨fun m i hm => ⟨encRound_eq_xor hM m i, decRound_eq_xor hM i hm⟩, fun x hx => ⟨?_, ?_⟩,
    fun hinv hconf hv => (hinv.checkedConfig hconf).level_eq_one hM hv⟩
  · rw [henc, decOf, decDownFrom_eq_xor_parity hM hx _ (le_refl _), Nat.sub_self, parity_zero, Bool.xor_false]
  · rw [henc, xor_parity_eq_add_mod hx]

/-! ## A command between its issue and its result (R280) -/

/-- After the CMD write and fewer than R rounds the command is still in ROUND, its result not yet out. -/
theorem command_runsThroughRounds {s : State} (d : Dir) (h : CheckedConfig Config.machine s) (hidle : s.fsm = .idle)
    (hconf : s.configured = true) (hx : s.dataIn.toNat ≤ s.actMaxmsg.toNat) (hs : s.sched = []) {k : Nat}
    (hk : k < s.actRounds.toNat) :
    ∃ u, runSteps (k + 1) (s.withFetchWord 64 (opWord d)) = .next u ∧ u.fsm = .round ∧ u.dataOut = s.dataOut := by
  have hpos : s.actRounds.toNat ≠ 0 := by omega
  have hissue := step_opWord d hidle hconf hx
  rw [if_neg hpos] at hissue
  obtain ⟨u, hrun, hu, -, -, hout, -⟩ := (atFirstRound_midRun d h hx hpos).runRounds k hs
    (by rw [roundsDone_atFirstRound, Nat.zero_add]; exact hk)
  exact ⟨u, (runSteps_succ hissue).trans hrun, hu.running.inRound, hout⟩

/-- Settles O44: the run of all rounds ends with the result, and every shorter one stands in ROUND. -/
theorem commandRunsToItsResult : Obligations.CommandRunsToItsResult := by
  intro s d hinv hidle hconf hx hs
  have h := hinv.checkedConfig hconf
  obtain ⟨t, hrun, hend⟩ := command_runsToResult d h hidle hconf hx hs
  refine ⟨t, hrun, hend.idle, hend.noError, hend.irqPend, hend.result, hend.hashcnt, hend.frame.config,
    hend.frame.operands, hend.frame.keymem, hend.frame.host, fun k hpos hk => ?_⟩
  obtain ⟨j, rfl⟩ := Nat.exists_eq_succ_of_ne_zero (Nat.ne_of_gt hpos)
  exact command_runsThroughRounds d h hidle hconf hx hs hk

end Sys2Proof.Machine

/-! SUPPORT. Errors and the interrupt (spec/60_exceptions.md R220 to R230): what one step does to ERR, ERRCODE, BUSY and
DONE, said once, and the statements of both read off it. -/

namespace Sys2Proof.Machine

/-! ## An illegal word (R221) -/

/-- Settles O6: the word reaches the decoder, which rejects it, and an idle block takes the report as an issue. -/
theorem illegalWordIsReported : Obligations.IllegalWordIsReported := by
  intro s c rest h hillegal hidle
  cases hdec : decodeWord c with
  | ok i => exact absurd hdec (hillegal i)
  | error e =>
    rw [step_writeCmd h, writeCmd, hdec]
    dsimp only
    rw [issueRequest_idle (s := afterLine s rest .done) hidle,
      raiseError_of_idle (s := (afterLine s rest .done).setDrop false) hidle]
    rfl

/-! ## What each event does to the status -/

/-- ERR, ERRCODE and FSM_STATE are the same (R27, R29, R47). -/
structure SameStatus (s t : State) : Prop where
  err : t.err = s.err
  errcode : t.errcode = s.errcode
  fsm : t.fsm = s.fsm

theorem nextRoundState_sameStatus (P : Params) (s : State) : SameStatus s (nextRoundState P s) where
  err := roundBit_keeps P (·.err) (fun _ => rfl) (fun _ _ _ => rfl) s
  errcode := roundBit_keeps P (·.errcode) (fun _ => rfl) (fun _ _ _ => rfl) s
  fsm := afterRound_fsm P s

theorem nextRoundState_irqPend (P : Params) (s : State) : (nextRoundState P s).irqPend = s.irqPend :=
  roundBit_keeps P (·.irqPend) (fun _ => rfl) (fun _ _ _ => rfl) s

theorem writeTarget_sameStatus (P : Params) (v : Word) (s : State) (g : Target) :
    SameStatus s (writeTarget P v s g) := by
  cases g with
  | reg r =>
    cases r with
    | keylen | irqPend =>
      simp only [writeTarget, writeReg]
      split <;> exact ⟨rfl, rfl, rfl⟩
    | _ => exact ⟨rfl, rfl, rfl⟩
  | reserved => exact ⟨rfl, rfl, rfl⟩
  | keyWord k =>
    simp only [writeTarget, writeKeyWord]
    split <;> exact ⟨rfl, rfl, rfl⟩

/-- A host write leaves DONE unless it writes 1 to bit 0 of IRQ_PEND, which clears it (R40). -/
theorem writeTarget_irqPend (P : Params) (v : Word) (s : State) (g : Target) :
    (writeTarget P v s g).irqPend = s.irqPend ∨
      (writeTarget P v s g).irqPend = false ∧ g = .reg .irqPend ∧ v.getLsbD 0 = true := by
  cases g with
  | reg r =>
    cases r with
    | irqPend =>
      rw [writeTarget, writeReg]
      split
      · exact .inr ⟨rfl, rfl, ‹_›⟩
      · exact .inl rfl
    | keylen =>
      simp only [writeTarget, writeReg]
      split <;> exact .inl rfl
    | _ => exact .inl rfl
  | reserved => exact .inl rfl
  | keyWord k =>
    simp only [writeTarget, writeKeyWord]
    split <;> exact .inl rfl

/-- An issue either completes, with DONE set, or starts a command, with DONE left as it was (R226, R227). -/
theorem IssueEnd.irqPend {s t : State} {i : Instr} (h : IssueEnd s i t) :
    t.irqPend = s.irqPend ∨ t.irqPend = true ∧ t.fsm = .idle := by
  cases h with
  | started | latched => exact .inl rfl
  | denied | identity | sized | unconfigured | failed | configured => exact .inr ⟨rfl, rfl⟩

/-- What a step can do to ERR, ERRCODE, FSM_STATE and DONE. -/
inductive StatusChange (s t : State) : Prop where
  /-- A reset (R260). -/
  | reset (turn : nextTurn s = .rst) (idle : t.fsm = .idle) (err : t.err = false) (done : t.irqPend = false)
  /-- A step that ends no command and issues none: at most it is the host's clear of DONE (R40). -/
  | kept (same : SameStatus s t) (done : t.irqPend = s.irqPend ∨
      t.irqPend = false ∧ ∃ v rest, HostDoes s (.write 64 0x060 v) rest ∧ v.getLsbD 0 = true)
  /-- The FSM step that ends a command: a normal completion (R222, R227). -/
  | completed (turn : FsmDoes s) (busy : s.fsm ≠ .idle) (idle : t.fsm = .idle) (err : t.err = false)
      (errcode : t.errcode = .noError) (done : t.irqPend = true)
  /-- The CMD write of an idle block (R225). -/
  | issued (c : Word) (rest : List HostLine) (does : HostDoes s (.write 64 0 c) rest) (idle : s.fsm = .idle)
      (done : t.irqPend = s.irqPend ∨ t.irqPend = true ∧ t.fsm = .idle)

theorem Event.statusChange {s t : State} (h : Event s t) : StatusChange s t := by
  cases h with
  | reset turn => exact .reset turn rfl rfl rfl
  | passed | answered | dropped => exact .kept ⟨rfl, rfl, rfl⟩ (.inl rfl)
  | illegal c rest does idle => exact .issued c rest does idle (.inr ⟨rfl, rfl⟩)
  | issued c rest i t does decodes idle ends => exact .issued c rest does idle ends.irqPend
  | stored w o v rest g does located =>
    have hsame := writeTarget_sameStatus Config.machine v (s.takeTurn.answer rest .done) g
    refine .kept ⟨hsame.err, hsame.errcode, hsame.fsm⟩ ((writeTarget_irqPend _ v _ g).imp_right ?_)
    rintro ⟨hdone, rfl, hbit⟩
    obtain ⟨rfl, rfl⟩ := locate_eq_reg located
    exact ⟨hdone, v, rest, does, hbit⟩
  | keygen turn state => exact .completed turn (by rw [state]; decide) rfl rfl rfl rfl
  | round =>
    have hsame := nextRoundState_sameStatus Config.machine s.takeTurn
    exact .kept ⟨hsame.err, hsame.errcode, hsame.fsm⟩ (.inl (nextRoundState_irqPend _ s.takeTurn))
  | lastRound turn state => exact .completed turn (by rw [state]; decide) rfl rfl rfl rfl

/-! ## ERR and DONE -/

/-- DONE rises at a completion only, which leaves the block idle. -/
theorem StatusChange.done_rises {s t : State} (h : StatusChange s t) (hs : s.irqPend = false) (ht : t.irqPend = true) :
    t.fsm = .idle ∧ (s.fsm ≠ .idle ∧ FsmDoes s ∧ t.err = false ∨
      ∃ c rest, HostDoes s (.write 64 0 c) rest ∧ s.fsm = .idle) := by
  cases h with
  | reset _ _ _ done => simp [done] at ht
  | kept _ done => simp [ht, hs] at done
  | completed turn busy idle err => exact ⟨idle, .inl ⟨busy, turn, err⟩⟩
  | issued c rest does idle done => exact ⟨by simpa [ht, hs] using done, .inr ⟨c, rest, does, idle⟩⟩

/-- DONE falls at a reset or at the host's clear only. -/
theorem StatusChange.done_falls {s t : State} (h : StatusChange s t) (hs : s.irqPend = true) (ht : t.irqPend = false) :
    nextTurn s = .rst ∨ ∃ v rest, HostDoes s (.write 64 0x060 v) rest ∧ v.getLsbD 0 = true := by
  cases h with
  | reset turn => exact .inl turn
  | kept _ done => exact .inr (by simpa [ht, hs] using done)
  | completed _ _ _ _ _ done => simp [done] at ht
  | issued _ _ _ _ done => simp [ht, hs] at done

/-- Settles O21: a completion is the only way up, a reset or the host's clear the only way down. -/
theorem doneChangesOnlyAtCompletionsAndClears : Obligations.DoneChangesOnlyAtCompletionsAndClears := by
  intro s t hstep
  have hchange := (step_event hstep).statusChange
  exact ⟨hchange.done_rises, hchange.done_falls, by rw [irq, Bool.and_eq_true]⟩

/-- Settles O51: an issue needs an idle block, so a busy block's status is kept, cleared by the completion, or reset. -/
theorem errorsOnlyAtIssue : Obligations.ErrorsOnlyAtIssue := by
  intro s t hstep
  cases (step_event hstep).statusChange with
  | reset turn idle err =>
    exact ⟨fun ht => by simp [err] at ht, fun _ hturn => absurd turn hturn, fun _ _ ht => by simp [err] at ht,
      fun _ hbusy => absurd idle hbusy⟩
  | kept same =>
    exact ⟨fun ht => .inl ⟨same.err ▸ ht, same.errcode⟩, fun hbusy _ hidle => absurd (same.fsm ▸ hidle) hbusy,
      fun _ hbusy ht => ⟨same.err ▸ ht, same.fsm ▸ hbusy⟩, fun _ _ => ⟨same.err, same.errcode⟩⟩
  | completed _ _ idle err errcode =>
    exact ⟨fun ht => by simp [err] at ht, fun _ _ _ => ⟨err, errcode⟩, fun _ _ ht => by simp [err] at ht,
      fun _ hbusy => absurd idle hbusy⟩
  | issued c rest does idle =>
    exact ⟨fun _ => .inr ⟨idle, c, rest, does⟩, fun hbusy => absurd idle hbusy, fun _ hbusy => absurd idle hbusy,
      fun hbusy => absurd idle hbusy⟩

end Sys2Proof.Machine

/-! SUPPORT. Reset and hazards (spec/70_reset_and_hazards.md): what each command does at the reset state, and that an FSM
step reads none of the operand registers MAXMSG, ROUNDS, KEYNUM and DATA_IN. -/

namespace Sys2Proof.Machine

/-! ## Commands straight after reset (R264) -/

/-- An even M is refused before any other check is made (R130). -/
theorem cfgCheck_even (P : Params) {m : Nat} (heven : m % 2 = 0) (r : Nat) (v : Bool) (l kl : Nat) :
    cfgCheck P m r v l kl = .domainEven :=
  if_pos heven

section
variable {s : State} (heven : s.maxmsg.toNat % 2 = 0)
include heven

theorem configBody_even (P : Params) (v : Bool) (l : Nat) :
    configBody P v l s = s.clearConfig.raiseError .domainEven := by
  rw [configBody, cfgCheck_even P heven]

theorem ckeyBody_even (P : Params) (v : Bool) : ckeyBody P v s = s.clearConfig.raiseError .domainEven := by
  rw [ckeyBody, cfgCheck_even P heven]

/-- Every form of CONFIG and CONFIG_KEY, on an idle block whose MAXMSG is even. -/
theorem exec_configure_even (hidle : s.fsm = .idle) {i : Instr}
    (hi : i = .config ∨ i = .ckey ∨ i = .ckeyO ∨ ∃ l, i = .configO l) :
    exec i s = .next ((s.setDrop false).clearConfig.raiseError .domainEven) := by
  rw [exec_idle hidle]
  obtain rfl | rfl | rfl | ⟨l, rfl⟩ := hi
  · exact congrArg _ (configBody_even (s := s.setDrop false) heven _ _ _)
  · exact congrArg _ (ckeyBody_even (s := s.setDrop false) heven _ _)
  · exact congrArg _ (ckeyBody_even (s := s.setDrop false) heven _ _)
  · exact congrArg _ (configBody_even (s := s.setDrop false) heven _ _ _)

end

/-- Settles O56: after reset the block is idle and unconfigured, and MAXMSG is 0, which is even. -/
theorem commandsStraightAfterReset : Obligations.CommandsStraightAfterReset := by
  have hidle : State.reset.fsm = .idle := rfl
  have heven : State.reset.maxmsg.toNat % 2 = 0 := rfl
  refine ⟨⟨_, exec_idle hidle .rpp, rfl, rfl⟩, ⟨_, unconfigCommand _ hidle, rfl⟩, fun i hi => ?_, fun i hi => ?_⟩
  · obtain ⟨d, hd⟩ : ∃ d : Dir, i = .enc ∧ d = .enc ∨ i = .dec ∧ d = .dec :=
      hi.elim (fun h => ⟨.enc, .inl ⟨h, rfl⟩⟩) (fun h => ⟨.dec, .inr ⟨h, rfl⟩⟩)
    obtain ⟨hdenied, -⟩ := encryptAndDecryptIssue _ i d hidle hd
    exact ⟨_, hdenied rfl, rfl, rfl⟩
  · exact ⟨_, exec_configure_even heven hidle hi, rfl, rfl, rfl⟩

/-! ## Operands are read at issue only (R268) -/

/-- The state with other values in the operand registers that the host can write while BUSY = 1 (R30, R31, R33, R34). -/
def State.withOperands (m r k x : Word) (s : State) : State := { s with maxmsg := m, rounds := r, keynum := k, dataIn := x }

section
variable (P : Params) (m r k x : Word) (s : State)

theorem cacheLookup_withOperands (a : AmortIndex) :
    cacheLookup P a (s.withOperands m r k x) = (cacheLookup P a s).withOperands m r k x := by
  rw [cacheLookup, cacheLookup, apply_ite (State.withOperands m r k x)]
  rfl

theorem bitSource_withOperands (rem i : Nat) :
    bitSource P rem i (s.withOperands m r k x) =
      ((bitSource P rem i s).1, (bitSource P rem i s).2.withOperands m r k x) := by
  unfold bitSource
  rw [show (s.withOperands m r k x).actV = s.actV from rfl]
  split
  · simp only [prfAmort, cacheLookup_withOperands]
    rfl
  · rfl

theorem roundBit_withOperands :
    roundBit P (s.withOperands m r k x) = ((roundBit P s).1, (roundBit P s).2.withOperands m r k x) :=
  bitSource_withOperands P m r k x s _ _

theorem encRoundBody_withOperands :
    encRoundBody P (s.withOperands m r k x) = (encRoundBody P s).withOperands m r k x := by
  rw [encRoundBody_eq, roundBit_withOperands, encRoundBody_eq, apply_ite (State.withOperands m r k x)]
  rfl

theorem decRoundBody_withOperands :
    decRoundBody P (s.withOperands m r k x) = (decRoundBody P s).withOperands m r k x := by
  rw [decRoundBody_eq, roundBit_withOperands, decRoundBody_eq, apply_ite (State.withOperands m r k x)]
  rfl

theorem roundStep_withOperands :
    roundStep P (s.withOperands m r k x) = mapNext (State.withOperands m r k x) (roundStep P s) := by
  unfold roundStep
  rw [show roundFault P (s.withOperands m r k x) = roundFault P s from rfl,
    show (s.withOperands m r k x).dir = s.dir from rfl]
  split
  · rfl
  · split
    · exact congrArg _ (encRoundBody_withOperands P m r k x s)
    · exact congrArg _ (decRoundBody_withOperands P m r k x s)

/-- The KEYGEN step works on the latched operands (R136, R137). -/
theorem keygenStep_withOperands :
    keygenStep P (s.withOperands m r k x) = mapNext (State.withOperands m r k x) (keygenStep P s) := by
  rw [keygenStep, keygenStep, apply_ite (mapNext (State.withOperands m r k x))]
  rfl

theorem fsmStep_withOperands :
    fsmStep P (s.withOperands m r k x) = mapNext (State.withOperands m r k x) (fsmStep P s) := by
  unfold fsmStep
  rw [show (s.withOperands m r k x).fsm = s.fsm from rfl]
  split
  · rfl
  · exact keygenStep_withOperands P m r k x s
  · exact roundStep_withOperands P m r k x s

end

/-- Settles O53: the operands change neither whose turn it is nor what the FSM step does. -/
theorem operandsAreReadAtIssueOnly : Obligations.OperandsAreReadAtIssueOnly := by
  intro s m r k x hturn _
  have hturn' : nextTurn (s.withOperands m r k x) = .fsm := hturn
  calc step (s.withOperands m r k x)
      = fsmStep Config.machine (s.takeTurn.withOperands m r k x) := step_fsm hturn'
    _ = mapNext (State.withOperands m r k x) (fsmStep Config.machine s.takeTurn) := fsmStep_withOperands _ m r k x _
    _ = mapNext (State.withOperands m r k x) (step s) := by rw [step_fsm hturn]

end Sys2Proof.Machine
